-- ==== Sys2Proof/Word.lean ====
section
/-! DEFINITION. The word types of the RT4K-CEC core: bytes, logical and physical addresses, and time. -/

namespace Sys2Proof

/-- A frame byte, 8 bits (10_state R23). -/
abbrev Byte := BitVec 8

/-- A logical address, 4 bits; 15 is broadcast or unregistered (10_state R23, 30_encoding R76). -/
abbrev La := BitVec 4

/-- A physical address, 16 bits; 0x0000 is unknown (10_state R23, 30_encoding R77). -/
abbrev Pa := BitVec 16

/-- A time or a duration in microseconds. DESIGN CHOICE (log entry 4): a natural number, since the arithmetic of
00_scope R16 is on naturals. A timestamp has 64 bits and never wraps within a run (10_state R23): a step whose result
holds a greater one ends the run. Safe. -/
abbrev Micros := Nat

end Sys2Proof
end

