-- ==== Sys2Proof/Machine/Constants.lean ====
section
/-! DEFINITION. The constants of the spec: timing (00_scope R13), identity (R4), opcode and operand values (30_encoding
R79, R80), and the candidate table (42_addressing R135). -/

namespace Sys2Proof.Machine

/-! ## Timing, in microseconds (00_scope R13) -/

/-- `T_BIT`. -/
def tBit : Micros := 2400
/-- `T_0_LOW`. -/
def tZeroLow : Micros := 1500
/-- `T_1_LOW`. -/
def tOneLow : Micros := 600
/-- `T_SAMPLE`. -/
def tSample : Micros := 1050
/-- `T_START_LOW`. -/
def tStartLow : Micros := 3700
/-- `T_START`. -/
def tStart : Micros := 4500
/-- `TX_TOL`: how far a transmitter's own timing may be off. The model's alarms are exact, so no rule reads it. -/
def txTol : Micros := 200
/-- `RX_TOL`. -/
def rxTol : Micros := 400
/-- `FREE_FIRST`. -/
def freeFirst : Micros := 16800
/-- `FREE_RETRY`. -/
def freeRetry : Micros := 12000
/-- `FREE_AFTER_TX`. -/
def freeAfterTx : Micros := 7200
/-- `KEYQ_TIMEOUT_MS` in microseconds. -/
def keyqTimeout : Micros := 10 * 1000
/-- The default of the OPEN parameter `SEND_IDLE_TIMEOUT_US` (R14, 92 D15). -/
def sendIdleTimeoutDefault : Micros := 130000
/-- The default of the OPEN parameter `ISR_LATENCY_MAX_US` (R14, 92 D3). -/
def isrLatencyMaxDefault : Micros := 0

/-- A timestamp is below this: it has 64 bits and never wraps within a run (10_state R23, 20_memory R53). -/
def timeLimit : Micros := 2 ^ 64

/-! ## Counts (00_scope R13) -/

/-- `MAX_ATTEMPTS`. -/
def maxAttempts : Nat := 5
/-- `MAX_FRAME`. -/
def maxFrame : Nat := 16
/-- The number of entries of the key map (10_state R38). -/
def keyMapSize : Nat := 256

/-! ## Receive windows, inclusive: nominal ± `RX_TOL` (00_scope R15) -/

/-- `d` lies within `RX_TOL` of `nominal`. -/
def inWindow (nominal d : Micros) : Bool := decide (nominal - rxTol ≤ d) && decide (d ≤ nominal + rxTol)
/-- `START_LOW_OK`: 3300 to 4100. -/
def startLowOk (d : Micros) : Bool := inWindow tStartLow d
/-- `START_PERIOD_OK`: 4100 to 4900. -/
def startPeriodOk (d : Micros) : Bool := inWindow tStart d
/-- `BIT_PERIOD_OK`: 2000 to 2800. -/
def bitPeriodOk (d : Micros) : Bool := inWindow tBit d
/-- `ONE_OK`: 200 to 1000. -/
def oneOk (d : Micros) : Bool := inWindow tOneLow d
/-- `ZERO_OK`: 1100 to 1900. -/
def zeroOk (d : Micros) : Bool := inWindow tZeroLow d

/-! ## Identity and operand values (00_scope R4, R13; 30_encoding R79) -/

/-- `BROADCAST`: the broadcast or unregistered logical address. -/
def laBroadcast : La := 15#4
/-- The TV's logical address. -/
def laTv : La := 0#4
/-- `VENDOR_ID` 0x0010FA, most significant byte first (20_memory R50). -/
def vendorId : BitVec 24 := 0x0010FA#24
/-- `CEC_VERSION` v1.3a. -/
def cecVersion : Byte := 0x04#8
/-- `AUDIO_STATUS`: volume 50 %, not muted. -/
def audioStatus : Byte := 0x32#8
/-- `OSD_NAME`: "Pico-CEC" in ASCII, no terminator (43_protocol_engine R164). -/
def osdName : List Byte := [0x50#8, 0x69#8, 0x63#8, 0x6F#8, 0x2D#8, 0x43#8, 0x45#8, 0x43#8]
/-- The HID "no key" byte (10_state R41). -/
def noKey : Byte := 0x00#8
/-- Feature Abort reason "Unrecognized opcode" (60_exceptions R194). -/
def reasonUnrecognized : Byte := 0#8
/-- Feature Abort reason "Refused" (60_exceptions R194). -/
def reasonRefused : Byte := 4#8
/-- Menu request type Activate. PRESUMED (log entry 17, 93 GK2). -/
def menuActivate : Byte := 0x00#8
/-- Menu request type Deactivate. PRESUMED (log entry 17, 93 GK2). -/
def menuDeactivate : Byte := 0x01#8
/-- Menu status: 0x00 activated; 0x01 deactivated is PRESUMED (log entry 17, 93 GK2). -/
def menuStatusByte (active : Bool) : Byte := if active then 0x00#8 else 0x01#8
/-- System audio mode: the only operand that reads as on (43_protocol_engine R176). -/
def audioModeOn : Byte := 0x01#8
/-- System audio mode as sent: 1 on, 0 off (43_protocol_engine R159, R160). -/
def audioModeByte (on : Bool) : Byte := if on then audioModeOn else 0x00#8
/-- Power status: 0 On if selected, else 1 Standby (43_protocol_engine R162). -/
def powerStatusByte (selected : Bool) : Byte := if selected then 0x00#8 else 0x01#8

/-! ## Opcodes (30_encoding R80) -/

def opFeatureAbort : Byte := 0x00#8
def opImageViewOn : Byte := 0x04#8
def opTextViewOn : Byte := 0x0D#8
def opStandby : Byte := 0x36#8
def opUserControlPressed : Byte := 0x44#8
def opUserControlReleased : Byte := 0x45#8
def opGiveOsdName : Byte := 0x46#8
/-- PRESUMED (log entry 17, 93 GK1). -/
def opSetOsdName : Byte := 0x47#8
def opSystemAudioModeRequest : Byte := 0x70#8
def opGiveAudioStatus : Byte := 0x71#8
def opSetSystemAudioMode : Byte := 0x72#8
/-- PRESUMED (log entry 17, 93 GK1). -/
def opReportAudioStatus : Byte := 0x7A#8
def opGiveSystemAudioModeStatus : Byte := 0x7D#8
def opSystemAudioModeStatus : Byte := 0x7E#8
def opRoutingChange : Byte := 0x80#8
def opActiveSource : Byte := 0x82#8
def opGivePhysicalAddress : Byte := 0x83#8
def opReportPhysicalAddress : Byte := 0x84#8
def opRequestActiveSource : Byte := 0x85#8
def opSetStreamPath : Byte := 0x86#8
def opDeviceVendorId : Byte := 0x87#8
def opGiveDeviceVendorId : Byte := 0x8C#8
def opMenuRequest : Byte := 0x8D#8
def opMenuStatus : Byte := 0x8E#8
def opGiveDevicePowerStatus : Byte := 0x8F#8
/-- PRESUMED (log entry 17, 93 GK1). -/
def opReportPowerStatus : Byte := 0x90#8
/-- PRESUMED (log entry 17, 93 GK1). -/
def opCecVersion : Byte := 0x9E#8
def opGetCecVersion : Byte := 0x9F#8
def opAbort : Byte := 0xFF#8

/-- The opcodes with an Rx rule of their own (43_protocol_engine R145); every other value is unrecognized. -/
def rxOpcodes : List Byte :=
  [opFeatureAbort, opImageViewOn, opTextViewOn, opStandby, opUserControlPressed, opUserControlReleased,
   opGiveOsdName, opSystemAudioModeRequest, opGiveAudioStatus, opSetSystemAudioMode, opGiveSystemAudioModeStatus,
   opSystemAudioModeStatus] ++
  [opRoutingChange, opActiveSource, opGivePhysicalAddress, opReportPhysicalAddress, opRequestActiveSource,
   opSetStreamPath, opDeviceVendorId, opGiveDeviceVendorId, opMenuRequest, opGiveDevicePowerStatus,
   opGetCecVersion, opAbort]

/-! ## Candidate table (42_addressing R135) -/

/-- `CAND[device_type]`; a device type above 5 has no row (a configuration with one is a load failure, R142), and
reads as "give up". -/
def candRow (deviceType : Byte) : List La :=
  match deviceType.toNat with
  | 0 => [0#4, 0#4, 0#4, 0#4]
  | 1 => [1#4, 2#4, 9#4, 15#4]
  | 2 => [15#4, 15#4, 15#4, 15#4]
  | 3 => [3#4, 6#4, 7#4, 15#4]
  | 4 => [4#4, 8#4, 11#4, 15#4]
  | 5 => [5#4, 5#4, 5#4, 5#4]
  | _ => [15#4, 15#4, 15#4, 15#4]

/-- `CAND[device_type][i]` (42_addressing R135); past the fourth entry the list is exhausted. -/
def candidate (deviceType : Byte) (i : Nat) : La := (candRow deviceType).getD i laBroadcast

/-- The greatest legal `CFG.device_type` (10_state R38). -/
def maxDeviceType : Nat := 5

end Sys2Proof.Machine
end

