-- ==== Sys2Proof/Syntax.lean ====
section
/-! DEFINITION. The instructions of the RT4K-CEC core: one constructor per row of the opcode table. -/

namespace Sys2Proof

/-- One constructor per row of spec/opcode_table.json (30_encoding R80). A received message carries its header's two
nibbles and all its operand bytes in frame order: a short frame is still its row's message, and the dispatch rule
43_protocol_engine R145 ignores it. A transmitted message carries the fields its row's encoding gives. -/
inductive Instr where
  /-- POLL: a frame of length 1 (R166). -/
  | poll (init dest : La)
  /-- 0x00 (R167). -/
  | featureAbort (init dest : La) (ops : List Byte)
  /-- 0x04 (R168). -/
  | imageViewOn (init dest : La) (ops : List Byte)
  /-- 0x0D (R169). -/
  | textViewOn (init dest : La) (ops : List Byte)
  /-- 0x36 (R170). -/
  | standby (init dest : La) (ops : List Byte)
  /-- 0x44 (R171); operand 0 is the user control code. -/
  | userControlPressed (init dest : La) (ops : List Byte)
  /-- 0x45 (R172). -/
  | userControlReleased (init dest : La) (ops : List Byte)
  /-- 0x46 (R173). -/
  | giveOsdName (init dest : La) (ops : List Byte)
  /-- 0x70 (R174). -/
  | systemAudioModeRequest (init dest : La) (ops : List Byte)
  /-- 0x71 (R175). -/
  | giveAudioStatus (init dest : La) (ops : List Byte)
  /-- 0x72 (R176); operand 0 is the mode. -/
  | setSystemAudioMode (init dest : La) (ops : List Byte)
  /-- 0x7D (R177). -/
  | giveSystemAudioModeStatus (init dest : La) (ops : List Byte)
  /-- 0x7E (R178). -/
  | systemAudioModeStatus (init dest : La) (ops : List Byte)
  /-- 0x80 (R179); operands 0 and 1 are the original address, 2 and 3 the new one. -/
  | routingChange (init dest : La) (ops : List Byte)
  /-- 0x82 (R180); operands 0 and 1 are the physical address. -/
  | activeSource (init dest : La) (ops : List Byte)
  /-- 0x83 (R181). -/
  | givePhysicalAddress (init dest : La) (ops : List Byte)
  /-- 0x84 (R182). -/
  | reportPhysicalAddress (init dest : La) (ops : List Byte)
  /-- 0x85 (R183). -/
  | requestActiveSource (init dest : La) (ops : List Byte)
  /-- 0x86 (R184); operands 0 and 1 are the physical address. -/
  | setStreamPath (init dest : La) (ops : List Byte)
  /-- 0x87 (R185). -/
  | deviceVendorId (init dest : La) (ops : List Byte)
  /-- 0x8C (R186). -/
  | giveDeviceVendorId (init dest : La) (ops : List Byte)
  /-- 0x8D (R187); operand 0 is the request type. -/
  | menuRequest (init dest : La) (ops : List Byte)
  /-- 0x8F (R188). -/
  | giveDevicePowerStatus (init dest : La) (ops : List Byte)
  /-- 0x9F (R189). -/
  | getCecVersion (init dest : La) (ops : List Byte)
  /-- 0xFF (R190). -/
  | abort (init dest : La) (ops : List Byte)
  /-- Every other opcode byte, the send-only ones included (R191). -/
  | unrecognized (init dest : La) (op : Byte) (ops : List Byte)
  /-- Transmitted 0x00 (R165). -/
  | featureAbortTx (init dest : La) (origOpcode reason : Byte)
  /-- Transmitted 0x04 (R153). -/
  | imageViewOnTx (init dest : La)
  /-- Transmitted 0x47 (R164): the name's bytes. -/
  | setOsdNameTx (init dest : La) (name : List Byte)
  /-- Transmitted 0x72 (R159). -/
  | setSystemAudioModeTx (init dest : La) (mode : Byte)
  /-- Transmitted 0x7A (R161). -/
  | reportAudioStatusTx (init dest : La) (status : Byte)
  /-- Transmitted 0x7E (R160). -/
  | systemAudioModeStatusTx (init dest : La) (status : Byte)
  /-- Transmitted 0x82 (R154). -/
  | activeSourceTx (init dest : La) (paHi paLo : Byte)
  /-- Transmitted 0x84 (R157). -/
  | reportPhysicalAddressTx (init dest : La) (paHi paLo deviceType : Byte)
  /-- Transmitted 0x87 (R158). -/
  | deviceVendorIdTx (init dest : La) (vid2 vid1 vid0 : Byte)
  /-- Transmitted 0x8E (R156). -/
  | menuStatusTx (init dest : La) (state : Byte)
  /-- Transmitted 0x90 (R162). -/
  | reportPowerStatusTx (init dest : La) (status : Byte)
  /-- Transmitted 0x9E (R163). -/
  | cecVersionTx (init dest : La) (version : Byte)
  /-- The polling frame the core sends for candidate `c` (R133, R137). -/
  | pollTx (c : La)
  deriving DecidableEq, Repr

/-- Who puts the frame on the bus: another node (the core receives it) or the core (30_encoding R85, `RX` and `TX`). -/
inductive Direction where
  | rx
  | tx
  deriving DecidableEq, Repr

/-- The direction of a row of the opcode table: its `format` is `TX` for a frame the core sends (30_encoding R80). -/
def Instr.direction : Instr → Direction
  | .poll .. | .featureAbort .. | .imageViewOn .. | .textViewOn .. | .standby .. | .userControlPressed ..
  | .userControlReleased .. | .giveOsdName .. | .systemAudioModeRequest .. | .giveAudioStatus ..
  | .setSystemAudioMode .. | .giveSystemAudioModeStatus .. | .systemAudioModeStatus .. | .routingChange ..
  | .activeSource .. | .givePhysicalAddress .. | .reportPhysicalAddress .. | .requestActiveSource ..
  | .setStreamPath .. | .deviceVendorId .. | .giveDeviceVendorId .. | .menuRequest .. | .giveDevicePowerStatus ..
  | .getCecVersion .. | .abort .. | .unrecognized .. => .rx
  | .featureAbortTx .. | .imageViewOnTx .. | .setOsdNameTx .. | .setSystemAudioModeTx .. | .reportAudioStatusTx ..
  | .systemAudioModeStatusTx .. | .activeSourceTx .. | .reportPhysicalAddressTx .. | .deviceVendorIdTx ..
  | .menuStatusTx .. | .reportPowerStatusTx .. | .cecVersionTx .. | .pollTx .. => .tx

end Sys2Proof
end

