-- ==== Sys2Proof/WellFormed.lean ====
section
/-! DEFINITION. Which instructions are well formed: the sanity limits of the codec and the constants the opcode table
fixes in a transmitted row. -/

namespace Sys2Proof

open Machine

/-- A received message: initiator and destination differ, and the frame holds at most 16 bytes
(41_frame_codec R128). -/
def rxWellFormed (init dest : La) (ops : List Byte) : Bool :=
  decide (init ≠ dest) && decide (ops.length + 2 ≤ maxFrame)

/-- The check on an instruction. For a received message, the codec's sanity limits (41_frame_codec R128), and for the
catch-all an opcode with no row of its own (30_encoding R82). For a transmitted message, a sane header and the operand
values its row of spec/opcode_table.json allows. -/
def Instr.wellFormed : Instr → Bool
  | .poll _ _ => true
  | .featureAbort i d ops => rxWellFormed i d ops
  | .imageViewOn i d ops => rxWellFormed i d ops
  | .textViewOn i d ops => rxWellFormed i d ops
  | .standby i d ops => rxWellFormed i d ops
  | .userControlPressed i d ops => rxWellFormed i d ops
  | .userControlReleased i d ops => rxWellFormed i d ops
  | .giveOsdName i d ops => rxWellFormed i d ops
  | .systemAudioModeRequest i d ops => rxWellFormed i d ops
  | .giveAudioStatus i d ops => rxWellFormed i d ops
  | .setSystemAudioMode i d ops => rxWellFormed i d ops
  | .giveSystemAudioModeStatus i d ops => rxWellFormed i d ops
  | .systemAudioModeStatus i d ops => rxWellFormed i d ops
  | .routingChange i d ops => rxWellFormed i d ops
  | .activeSource i d ops => rxWellFormed i d ops
  | .givePhysicalAddress i d ops => rxWellFormed i d ops
  | .reportPhysicalAddress i d ops => rxWellFormed i d ops
  | .requestActiveSource i d ops => rxWellFormed i d ops
  | .setStreamPath i d ops => rxWellFormed i d ops
  | .deviceVendorId i d ops => rxWellFormed i d ops
  | .giveDeviceVendorId i d ops => rxWellFormed i d ops
  | .menuRequest i d ops => rxWellFormed i d ops
  | .giveDevicePowerStatus i d ops => rxWellFormed i d ops
  | .getCecVersion i d ops => rxWellFormed i d ops
  | .abort i d ops => rxWellFormed i d ops
  | .unrecognized i d op ops => rxWellFormed i d ops && !rxOpcodes.contains op
  | .featureAbortTx i d _ reason =>
      decide (i ≠ d) && (decide (reason = reasonUnrecognized) || decide (reason = reasonRefused))
  | .imageViewOnTx i d => decide (i ≠ d) && decide (d = laTv)
  | .setOsdNameTx i d name => decide (i ≠ d) && decide (name = osdName)
  | .setSystemAudioModeTx i d mode => decide (i ≠ d) && decide (mode.toNat ≤ 1)
  | .reportAudioStatusTx i d status => decide (i ≠ d) && decide (status = audioStatus)
  | .systemAudioModeStatusTx i d status => decide (i ≠ d) && decide (status.toNat ≤ 1)
  | .activeSourceTx i d _ _ => decide (i ≠ d) && decide (d = laBroadcast)
  | .reportPhysicalAddressTx i d _ _ dt =>
      decide (i ≠ d) && decide (d = laBroadcast) && decide (dt.toNat ≤ maxDeviceType)
  | .deviceVendorIdTx i d v2 v1 v0 =>
      decide (i ≠ d) && decide (d = laBroadcast) && decide (v2 ++ v1 ++ v0 = vendorId)
  | .menuStatusTx i d state => decide (i ≠ d) && decide (state.toNat ≤ 1)
  | .reportPowerStatusTx i d status => decide (i ≠ d) && decide (status.toNat ≤ 1)
  | .cecVersionTx i d version => decide (i ≠ d) && decide (version = cecVersion)
  | .pollTx c => decide (c ≠ laBroadcast)

end Sys2Proof
end

