-- ==== Sys2Proof/Decode.lean ====
section
/-! DEFINITION. From frames to instructions and back: the header law, the sanity limits, the decoder of received and
of transmitted frames, the encoder, and the reading of the opcode table's words. -/

namespace Sys2Proof

open Machine

/-! ## Header (41_frame_codec R126, R127) -/

/-- `header(init, dest)`: initiator in the high nibble, destination in the low one (R126). -/
def header (init dest : La) : Byte := init ++ dest

/-- `init(b) = b[7:4]` (R127). -/
def headerInit (b : Byte) : La := b.extractLsb' 4 4

/-- `dest(b) = b[3:0]` (R127). -/
def headerDest (b : Byte) : La := b.extractLsb' 0 4

/-- `sane(bytes, n)`: 1 to 16 bytes, and initiator ≠ destination unless the frame is a poll (R128). -/
def sane : List Byte → Bool
  | [] => false
  | [_] => true
  | b :: op :: ops => decide ((b :: op :: ops).length ≤ maxFrame) && decide (headerInit b ≠ headerDest b)

/-! ## Decoding -/

/-- Why a frame is no instruction. -/
inductive DecodeError where
  /-- Length 0 (30_encoding R81). -/
  | empty
  /-- More than 16 bytes (30_encoding R81). -/
  | tooLong
  /-- Initiator equal to destination in a frame longer than 1 (30_encoding R81). -/
  | selfAddressed
  /-- A transmitted frame whose opcode no TX row has (30_encoding R80). -/
  | notTransmitted
  /-- A transmitted frame whose length is not its row's (spec/opcode_table.json). -/
  | badLength
  /-- A transmitted polling frame whose nibbles differ (30_encoding R74). -/
  | badPoll
  deriving DecidableEq, Repr

/-- `ROW(op)`: the message of a received frame of length ≥ 2, by its opcode byte alone (43_protocol_engine R145,
30_encoding R82, R84). Total: every opcode value decodes. -/
def rxRow (init dest : La) (op : Byte) (ops : List Byte) : Instr :=
  if op = opFeatureAbort then .featureAbort init dest ops
  else if op = opImageViewOn then .imageViewOn init dest ops
  else if op = opTextViewOn then .textViewOn init dest ops
  else if op = opStandby then .standby init dest ops
  else if op = opUserControlPressed then .userControlPressed init dest ops
  else if op = opUserControlReleased then .userControlReleased init dest ops
  else if op = opGiveOsdName then .giveOsdName init dest ops
  else if op = opSystemAudioModeRequest then .systemAudioModeRequest init dest ops
  else if op = opGiveAudioStatus then .giveAudioStatus init dest ops
  else if op = opSetSystemAudioMode then .setSystemAudioMode init dest ops
  else if op = opGiveSystemAudioModeStatus then .giveSystemAudioModeStatus init dest ops
  else if op = opSystemAudioModeStatus then .systemAudioModeStatus init dest ops
  else if op = opRoutingChange then .routingChange init dest ops
  else if op = opActiveSource then .activeSource init dest ops
  else if op = opGivePhysicalAddress then .givePhysicalAddress init dest ops
  else if op = opReportPhysicalAddress then .reportPhysicalAddress init dest ops
  else if op = opRequestActiveSource then .requestActiveSource init dest ops
  else if op = opSetStreamPath then .setStreamPath init dest ops
  else if op = opDeviceVendorId then .deviceVendorId init dest ops
  else if op = opGiveDeviceVendorId then .giveDeviceVendorId init dest ops
  else if op = opMenuRequest then .menuRequest init dest ops
  else if op = opGiveDevicePowerStatus then .giveDevicePowerStatus init dest ops
  else if op = opGetCecVersion then .getCecVersion init dest ops
  else if op = opAbort then .abort init dest ops
  else .unrecognized init dest op ops

/-- The decoder of received frames: the codec's sanity limits, then the poll by its length, then the opcode
(41_frame_codec R128, R131; 30_encoding R80 "Decode order"). -/
def decodeRx : List Byte → Except DecodeError Instr
  | [] => .error .empty
  | [b] => .ok (.poll (headerInit b) (headerDest b))
  | b :: op :: ops =>
    if maxFrame < ops.length + 2 then .error .tooLong
    else if headerInit b = headerDest b then .error .selfAddressed
    else .ok (rxRow (headerInit b) (headerDest b) op ops)

/-- The TX row of an opcode, with the operand bytes its length allows (43_protocol_engine section 3;
spec/opcode_table.json). -/
def txRow (init dest : La) (op : Byte) (ops : List Byte) : Except DecodeError Instr :=
  if op = opFeatureAbort then
    match ops with
    | [orig, reason] => .ok (.featureAbortTx init dest orig reason)
    | _ => .error .badLength
  else if op = opImageViewOn then
    match ops with
    | [] => .ok (.imageViewOnTx init dest)
    | _ => .error .badLength
  else if op = opSetOsdName then
    if ops.length = osdName.length then .ok (.setOsdNameTx init dest ops) else .error .badLength
  else if op = opSetSystemAudioMode then
    match ops with
    | [mode] => .ok (.setSystemAudioModeTx init dest mode)
    | _ => .error .badLength
  else if op = opReportAudioStatus then
    match ops with
    | [status] => .ok (.reportAudioStatusTx init dest status)
    | _ => .error .badLength
  else if op = opSystemAudioModeStatus then
    match ops with
    | [status] => .ok (.systemAudioModeStatusTx init dest status)
    | _ => .error .badLength
  else if op = opActiveSource then
    match ops with
    | [hi, lo] => .ok (.activeSourceTx init dest hi lo)
    | _ => .error .badLength
  else if op = opReportPhysicalAddress then
    match ops with
    | [hi, lo, dt] => .ok (.reportPhysicalAddressTx init dest hi lo dt)
    | _ => .error .badLength
  else if op = opDeviceVendorId then
    match ops with
    | [v2, v1, v0] => .ok (.deviceVendorIdTx init dest v2 v1 v0)
    | _ => .error .badLength
  else if op = opMenuStatus then
    match ops with
    | [state] => .ok (.menuStatusTx init dest state)
    | _ => .error .badLength
  else if op = opReportPowerStatus then
    match ops with
    | [status] => .ok (.reportPowerStatusTx init dest status)
    | _ => .error .badLength
  else if op = opCecVersion then
    match ops with
    | [version] => .ok (.cecVersionTx init dest version)
    | _ => .error .badLength
  else .error .notTransmitted

/-- The decoder of frames the core transmits: the same sanity limits, the poll by its length, then the TX rows. -/
def decodeTx : List Byte → Except DecodeError Instr
  | [] => .error .empty
  | [b] => if headerInit b = headerDest b then .ok (.pollTx (headerInit b)) else .error .badPoll
  | b :: op :: ops =>
    if maxFrame < ops.length + 2 then .error .tooLong
    else if headerInit b = headerDest b then .error .selfAddressed
    else txRow (headerInit b) (headerDest b) op ops

/-- The decoder. The bytes of a received and of a transmitted message can be equal (`40 04`), so it takes the
direction, which the hardware knows (41_frame_codec R131 `direction`; DEDUCED, log entry 12). -/
def decode : Direction → List Byte → Except DecodeError Instr
  | .rx => decodeRx
  | .tx => decodeTx

/-! ## Encoding -/

/-- A message: header, opcode, operands (30_encoding R72). -/
def message (init dest : La) (op : Byte) (operands : List Byte) : List Byte :=
  header init dest :: op :: operands

/-- `poll(c)`: the one byte `(c << 4) | c` (41_frame_codec R133). -/
def pollFrame (c : La) : List Byte := [header c c]

/-- The encoder: an instruction's frame, written from the rows of spec/opcode_table.json. -/
def encode : Instr → List Byte
  | .poll i d => [header i d]
  | .featureAbort i d ops => message i d opFeatureAbort ops
  | .imageViewOn i d ops => message i d opImageViewOn ops
  | .textViewOn i d ops => message i d opTextViewOn ops
  | .standby i d ops => message i d opStandby ops
  | .userControlPressed i d ops => message i d opUserControlPressed ops
  | .userControlReleased i d ops => message i d opUserControlReleased ops
  | .giveOsdName i d ops => message i d opGiveOsdName ops
  | .systemAudioModeRequest i d ops => message i d opSystemAudioModeRequest ops
  | .giveAudioStatus i d ops => message i d opGiveAudioStatus ops
  | .setSystemAudioMode i d ops => message i d opSetSystemAudioMode ops
  | .giveSystemAudioModeStatus i d ops => message i d opGiveSystemAudioModeStatus ops
  | .systemAudioModeStatus i d ops => message i d opSystemAudioModeStatus ops
  | .routingChange i d ops => message i d opRoutingChange ops
  | .activeSource i d ops => message i d opActiveSource ops
  | .givePhysicalAddress i d ops => message i d opGivePhysicalAddress ops
  | .reportPhysicalAddress i d ops => message i d opReportPhysicalAddress ops
  | .requestActiveSource i d ops => message i d opRequestActiveSource ops
  | .setStreamPath i d ops => message i d opSetStreamPath ops
  | .deviceVendorId i d ops => message i d opDeviceVendorId ops
  | .giveDeviceVendorId i d ops => message i d opGiveDeviceVendorId ops
  | .menuRequest i d ops => message i d opMenuRequest ops
  | .giveDevicePowerStatus i d ops => message i d opGiveDevicePowerStatus ops
  | .getCecVersion i d ops => message i d opGetCecVersion ops
  | .abort i d ops => message i d opAbort ops
  | .unrecognized i d op ops => message i d op ops
  | .featureAbortTx i d orig reason => message i d opFeatureAbort [orig, reason]
  | .imageViewOnTx i d => message i d opImageViewOn []
  | .setOsdNameTx i d name => message i d opSetOsdName name
  | .setSystemAudioModeTx i d mode => message i d opSetSystemAudioMode [mode]
  | .reportAudioStatusTx i d status => message i d opReportAudioStatus [status]
  | .systemAudioModeStatusTx i d status => message i d opSystemAudioModeStatus [status]
  | .activeSourceTx i d hi lo => message i d opActiveSource [hi, lo]
  | .reportPhysicalAddressTx i d hi lo dt => message i d opReportPhysicalAddress [hi, lo, dt]
  | .deviceVendorIdTx i d v2 v1 v0 => message i d opDeviceVendorId [v2, v1, v0]
  | .menuStatusTx i d state => message i d opMenuStatus [state]
  | .reportPowerStatusTx i d status => message i d opReportPowerStatus [status]
  | .cecVersionTx i d version => message i d opCecVersion [version]
  | .pollTx c => pollFrame c

/-! ## The opcode table's words

The table's bits are those of byte 1, the opcode ("`match` and `mask` apply to byte 1", 30_encoding R80); it gives the
header byte no bits. A table word is therefore laid out as the frame: a header the model chooses, the opcode byte
(bits 7..0), then the operand bytes the row reads, from bits 15..8 on, zero above `nbits` (log entry 12). -/

/-- The opcodes only TX rows have: a table word with one of them stands for the transmitted message; received, it is
the catch-all's (30_encoding R82; log entry 12). -/
def txOnlyOpcodes : List Byte :=
  [opSetOsdName, opReportAudioStatus, opMenuStatus, opReportPowerStatus, opCecVersion]

/-- The direction a table word is read in. -/
def tableDirection (op : Byte) : Direction := if txOnlyOpcodes.contains op then .tx else .rx

/-- The number of operand bytes a table word's row reads (43_protocol_engine R145 `min_operands`; the TX rows'
`length`). -/
def tableOperands (op : Byte) : Nat :=
  if op = opSetOsdName then 8
  else if txOnlyOpcodes.contains op then 1
  else if op = opRoutingChange then 4
  else if op = opActiveSource ∨ op = opSetStreamPath then 2
  else if op = opUserControlPressed ∨ op = opSetSystemAudioMode ∨ op = opMenuRequest then 1
  else 0

/-- The header byte put before a table word: TV to address 4 for a received direct row, TV to broadcast for a row that
acts on broadcast only, 4 to the TV for a transmitted row (the addresses of 95_test_vectors; DESIGN CHOICE, log
entry 12). -/
def tableHeader (op : Byte) : Byte :=
  if txOnlyOpcodes.contains op then header 4#4 0#4
  else if op = opReportPhysicalAddress ∨ op = opDeviceVendorId then header 0#4 15#4
  else header 0#4 4#4

/-- Byte `k` of a table word of `nbits` bits, zero above them. -/
def tableByte (nbits w k : Nat) : Byte := if 8 * k < nbits then BitVec.ofNat 8 (w / 2 ^ (8 * k)) else 0#8

/-- The frame of a table word. A word of no bits is the header alone, a poll. -/
def tableFrame (nbits w : Nat) : List Byte :=
  let op := tableByte nbits w 0
  if nbits = 0 then [tableHeader op]
  else tableHeader op :: op :: (List.range (tableOperands op)).map fun k => tableByte nbits w (k + 1)

/-- The instruction the decoder reads from the table word `w` of `nbits` bits (log entry 12). -/
def decodeTableWord (nbits w : Nat) : Option Instr :=
  match decode (tableDirection (tableByte nbits w 0)) (tableFrame nbits w) with
  | .ok i => some i
  | .error _ => none

end Sys2Proof
end

