-- ==== Sys2Proof/Config.lean ====
section
/-! DEFINITION. What the spec leaves open: the draws of the environment and the capacity of the key queue, as
constants with no body. -/

namespace Sys2Proof

/-- One thing the environment can do to the core at an instant (00_scope R11 (4)): another node's drive of the line
changes (`EXT.low`, 10_state R43), or the HID consumer removes the head of the key queue (10_state R41). -/
inductive EnvEvent where
  | line (low : Bool)
  | pop
  deriving DecidableEq, Repr

/-- The record `load_config()` answers (60_exceptions R212). A code outside `keyMap`'s listed entries is unmapped. -/
structure CfgAnswer where
  deviceType  : Byte
  la          : Byte
  pa          : Pa
  edidDelayMs : BitVec 32
  keyMap      : List (Nat × Byte)
  deriving DecidableEq, Repr

/-- Free value: the `n`-th batch of coming environment events, each with its time (00_scope R20, 93 U20, U21;
log entry 2). -/
opaque Config.envDraw : Nat → List (Micros × EnvEvent)

/-- Free value: the EDID reader's answer at the `n`-th draw (42_addressing R136, 93 U19; log entry 2). -/
opaque Config.edidDraw : Nat → Pa

/-- Free value: the configuration store's answer at the `n`-th draw, `none` for a failure (43_protocol_engine R142,
93 U18; log entry 2). -/
opaque Config.cfgDraw : Nat → Option CfgAnswer

/-- Free value: which of the ready agents runs first at the `n`-th draw (60_exceptions R199, 93 U28; log entry 2). -/
opaque Config.orderDraw : Nat → Nat

/-- Free value: how far above its least value 1 the key queue's capacity stands (92 D35; log entry 3). -/
opaque Config.keyqSpare : Nat

/-- Free value: the OPEN parameter `PLATFORM`, the binding to a pin, a timer peripheral, a clock and a register map,
which the source does not give and no rule reads (00_scope R14, 93 U27, 92 D42; log entry 3). -/
opaque Config.platform : Nat

/-- The OPEN parameter `KEYQ_DEPTH`, at least 1 (00_scope R14, 92 D35; log entry 3). -/
def Config.keyqDepth : Nat := Config.keyqSpare + 1

end Sys2Proof
end

