-- ==== Sys2Proof/Machine/State.lean ====
section
/-! DEFINITION. The state of the RT4K-CEC core as plain data: driver, engine, configuration, outputs, the coming inputs
of the environment, and the state right after reset. -/

namespace Sys2Proof.Machine

/-! ## Stops -/

/-- Why the machine stops with a fault: the three model faults of 60_exceptions R192, "each unreachable from reset". -/
inductive Fault where
  /-- Raised by `send_frame` while a send is in progress or before the driver is enabled (40 R105). The spec names it;
  safe. -/
  | txBusy
  /-- Raised by a wait in interrupt context (40 R125). The spec names it; safe. -/
  | isrBlock
  /-- Raised by a buffer access at or above the valid length, or outside the 16 bytes (10_state R24; log entries 7 and
  21). The spec names it for reads; safe. -/
  | bufRange
  deriving DecidableEq, Repr

/-- The non-goals of 00_scope R8. -/
inductive NonGoal where
  | audioStream
  | vendorExtension
  | deferredTransmission
  | multiInitiator
  deriving DecidableEq, Repr

/-- The state the spec gives one owner (20_memory R57): the line to the driver, configuration and device state to the
engine task. -/
inductive Owned where
  | gpio
  | configuration
  | deviceState
  deriving DecidableEq, Repr

/-- Why a step is refused. -/
inductive Refusal where
  /-- An instruction with no meaning yet; raised by an arm of the dispatch only. Safe. -/
  | notModelled (mnemonic : String)
  /-- A request for a non-goal, refused by name (00_scope R8; log entry 16). Raised by the environment's step. Safe. -/
  | nonGoal (g : NonGoal)
  /-- A timestamp no longer fits its 64 bits: the run, in which the time base never wraps, ends there (10_state R23,
  60_exceptions R208; log entry 4). Raised by the step. Safe. -/
  | timeBaseEnd
  /-- A write of an owned field by an agent other than its owner (20_memory R57; log entry 16). Raised by the
  environment's step. Safe. -/
  | notOwner (o : Owned)
  deriving DecidableEq, Repr

/-! ## Memory -/

/-- A storage space with a small index (20_memory R46): the listed cells, indexes strictly rising. An index that is not
listed holds no value (10_state R24), which for the key map means unmapped (R39). Log entry 7. -/
abbrev Memory := List Host.Cell

/-- The canonical form over indexes `lo ..< size`: strictly rising, each below `size`. -/
def Memory.wfFrom (size : Nat) : Nat → Memory → Bool
  | _, [] => true
  | lo, c :: m => decide (lo ≤ c.1) && decide (c.1 < size) && Memory.wfFrom size (c.1 + 1) m

/-- The canonical form of a space of `size` bytes. -/
def Memory.wf (size : Nat) (m : Memory) : Bool := Memory.wfFrom size 0 m

/-! ## Driver (10_state section 2) -/

/-- The line's level (R26). -/
inductive Level where
  | high
  | low
  deriving DecidableEq, Repr

/-- What this node does to the line (R26). -/
inductive Drive where
  | low
  | released
  deriving DecidableEq, Repr

/-- `DRV.rx_state` (R27). -/
inductive RxState where
  | idle
  | startLow
  | startHigh
  | bitLow
  | bitHigh
  deriving DecidableEq, Repr

/-- `DRV.tx_phase` (R30). -/
inductive TxPhase where
  | idle
  | wait
  | startLow
  | startHigh
  | bitLow
  | bitPresample
  | bitHigh
  deriving DecidableEq, Repr

/-- `DRV.tx_free_req` (R31). -/
inductive FreeReq where
  | first
  | retry
  | afterTx
  deriving DecidableEq, Repr

/-- The result record of `send_frame` (R31, R45). -/
structure TxResult where
  acked           : Bool
  arbitrationLost : Bool
  timeout         : Bool
  deriving DecidableEq, Repr

/-- `{acked: false, arbitration_lost: false, timeout: false}`. -/
def TxResult.none : TxResult := ⟨false, false, false⟩

/-- The registers of the bit-timing driver (10_state R26 to R33). -/
structure Drv where
  enabled     : Bool
  drive       : Drive
  lineLevel   : Level
  tLastEdge   : Micros
  selfLa      : La
  rxState     : RxState
  rxTFall     : Micros
  rxBit       : Nat
  rxShift     : Byte
  rxLen       : Nat
  rxBuf       : Memory
  rxAckbit    : BitVec 16
  rxEom       : Bool
  rxAckOwed   : Bool
  rxAcking    : Bool
  mbFull      : Bool
  mbLen       : Nat
  mbBuf       : Memory
  mbAckbit    : BitVec 16
  txPhase     : TxPhase
  txBuf       : Memory
  txLen       : Nat
  txByte      : Nat
  txBit       : Nat
  txValue     : Bool
  txCellStart : Micros
  txAttempt   : Nat
  txWaitStart : Micros
  txFreeReq   : FreeReq
  txBlockOk   : Bool
  txResult    : TxResult
  txUsedBus   : Bool
  justTransmitted : Bool
  alarmTx     : Option Micros
  alarmAck    : Option Micros
  evRx        : Bool
  evTx        : Bool
  deriving DecidableEq, Repr

/-! ## Engine (10_state section 3) -/

/-- `ENG.ctl` (R34). -/
inductive Ctl where
  | load
  | fault
  | settle
  | init
  | pa
  | la
  | recv
  | dispatch
  deriving DecidableEq, Repr

/-- The indicator states (R42). -/
inductive Indicator where
  | idle
  | active
  | keyPressed
  | fault
  deriving DecidableEq, Repr

/-- An outbound message still to be built (43_protocol_engine R153 to R165): the rule, and what it takes from the frame
being dispatched. The rest of the frame is built from the engine's state when the message is sent. -/
inductive Msg where
  | imageViewOn
  | activeSource
  | menuStatus (dst : La)
  | reportPa
  | deviceVendorId
  | setSystemAudioMode (dst : La)
  | systemAudioModeStatus (dst : La)
  | reportAudioStatus (dst : La)
  | reportPowerStatus (dst : La)
  | cecVersion (dst : La)
  | setOsdName (dst : La)
  | featureAbort (dst : La) (op reason : Byte)
  deriving DecidableEq, Repr

/-- One thing the engine still has to do inside the rule it is running: a step of a rule's pseudocode, at the grain at
which it can be suspended (60_exceptions R207; log entry 9). -/
inductive Act where
  /-- Execute an instruction: the message built by `send`, or a probe's poll. -/
  | instr (i : Instr)
  /-- Build a message and make it the next instruction (43 section 3; log entry 11). -/
  | send (m : Msg)
  /-- `wait(ev_tx)` inside `send_frame` (40 R105). -/
  | sendWait
  /-- The loop test of `tx` after its call number `calls` (43 R147). -/
  | txLoop (bytes : List Byte) (calls : Nat)
  /-- `enqueue_key(b)` not begun (43 R150). -/
  | enqueueKey (b : Byte)
  /-- `enqueue_key(b)` blocked until space or `deadline` (43 R150). -/
  | keyWait (b : Byte) (deadline : Micros)
  /-- `indicator(i)` (43 R151). -/
  | indicator (i : Indicator)
  /-- `indicator(if selected then active else idle)` (43 R172). -/
  | indicatorSelected
  /-- `ENG.menu_active <- b` (43 R184). -/
  | setMenu (b : Bool)
  /-- `ENG.lost_count <- 0` after the announcement (43 R183). -/
  | resetLost
  /-- `if new == ENG.self_pa: announce_active()` (43 R179). -/
  | announceIf (new : Pa)
  /-- `update_selection(before)` (43 R152). -/
  | updateSelection (before : Bool)
  /-- `ENG.self_pa <- derive_pa()` (42 R140). -/
  | derivePa
  /-- `allocate()` (42 R138). -/
  | allocate
  /-- The verdict on candidate `c` at position `i` of the list (42 R137, R138). -/
  | verdict (c : La) (i : Nat)
  /-- `ENG.self_la <- la ; DRV.self_la <- la`, the end of `allocate()` for a configured address (42 R138). -/
  | claim (la : La)
  /-- `ENG.ctl <- E_RECV` once the startup's `allocate()` has ended (43 R143). -/
  | enterLoop
  /-- `wait(ev_rx)` inside `recv_frame` (40 R123). -/
  | recvWait
  /-- `recv_frame` has returned with `n` bytes in `ENG.fbuf`: the sanity test of `codec_recv`, then the dispatch (41
  R130, 43 R144). -/
  | received (n : Nat)
  /-- `DRV.enabled <- true`, the end of `drv_enable()` (40 R89). -/
  | enable
  deriving DecidableEq, Repr

/-- The engine's registers (10_state R34 to R36), and the model's own record of its position in a rule (log entry 9). -/
structure Eng where
  ctl          : Ctl
  selfLa       : La
  selfPa       : Pa
  activeSource : Pa
  audioMode    : Bool
  menuActive   : Bool
  lostCount    : Nat
  fbuf         : Memory
  flen         : Nat
  /-- The `ackbits` of the frame record (41_frame_codec R131), taken from the mailbox with the frame (log entry 26). -/
  fackbits     : BitVec 16
  /-- `t_loaded` (43 R143). -/
  tLoaded      : Micros
  /-- Model's own: what is left of the rule the engine is inside. -/
  todo         : List Act
  /-- Model's own: the result `codec_send` returned to its caller. -/
  ret          : TxResult
  deriving DecidableEq, Repr

/-- The configuration record (10_state R38). A code the key map does not list is `UNMAPPED` (R39). -/
structure Cfg where
  deviceType  : Byte
  la          : Byte
  pa          : Pa
  edidDelayMs : BitVec 32
  keyMap      : Memory
  deriving DecidableEq, Repr

/-- An entry of the observation trace, with what it records (60_exceptions R192). -/
inductive Err where
  | malformed (edge : Micros)
  | nack (attempt : Nat)
  | arbLost (byte bit : Nat)
  | timeout (waitStart : Micros)
  | codecReject (frame : List Byte)
  | unrecognized (op : Byte)
  | refused (op : Byte)
  | noPa
  | keyqDrop (b : Byte)
  | configFail
  deriving DecidableEq, Repr

/-! ## Environment -/

/-- A coming input: an event of 00_scope R11 (4), or a request the spec says to refuse (00_scope R8, 20_memory R57). -/
inductive EnvInput where
  | event (e : EnvEvent)
  | request (g : NonGoal)
  | foreignWrite (o : Owned)
  deriving DecidableEq, Repr

/-- The environment (10_state R43), the model's own queues of its coming inputs and answers, and the count of free
values drawn once a queue is empty (log entry 2). -/
structure Env where
  /-- `EXT.low`. -/
  extLow : Bool
  /-- Coming inputs, each at its time, in order. -/
  script : List (Micros × EnvInput)
  /-- Coming answers of `get_physical_address()`. -/
  edid   : List Pa
  /-- Coming answers of `load_config()`. -/
  cfg    : List (Option CfgAnswer)
  /-- Coming choices among ready agents. -/
  order  : List Nat
  /-- How many free values have been drawn. -/
  draws  : Nat
  deriving DecidableEq, Repr

/-- The OPEN parameters of 00_scope R14, as data no step writes (log entry 3). -/
structure Params where
  keyqDepth         : Nat
  sendIdleTimeoutUs : Micros
  isrLatencyMaxUs   : Micros
  /-- `PLATFORM`: no rule reads it. -/
  platform          : Nat
  deriving DecidableEq, Repr

/-- The whole machine. -/
structure State where
  /-- The time base (60_exceptions R208). -/
  now   : Micros
  drv   : Drv
  eng   : Eng
  cfg   : Cfg
  /-- `KEYQ` (10_state R41), head first. -/
  keyq  : List Byte
  /-- `IND` (10_state R42), oldest first. -/
  ind   : List Indicator
  /-- `ERR` (60_exceptions R193), oldest first, each with its time. -/
  err   : List (Micros × Err)
  /-- Edges whose handler has not run yet, oldest first (60_exceptions R196). -/
  edges : List (Micros × Level)
  /-- Model's own: when the alarm channel TX was last armed (log entry 15). -/
  armedTx  : Micros
  /-- Model's own: when the alarm channel ACK was last armed (log entry 15). -/
  armedAck : Micros
  env   : Env
  par   : Params
  deriving DecidableEq, Repr

/-! ## Reset (70_reset_and_hazards R217) -/

/-- The driver's registers at reset. Where R217 gives no value: log entries 6 and 7. -/
def Drv.reset : Drv where
  enabled := false
  drive := .released
  lineLevel := .high
  tLastEdge := 0
  selfLa := 15#4
  rxState := .idle
  rxTFall := 0
  rxBit := 0
  rxShift := 0#8
  rxLen := 0
  rxBuf := []
  rxAckbit := 0#16
  rxEom := false
  rxAckOwed := false
  rxAcking := false
  mbFull := false
  mbLen := 0
  mbBuf := []
  mbAckbit := 0#16
  txPhase := .idle
  txBuf := []
  txLen := 0
  txByte := 0
  txBit := 0
  txValue := false
  txCellStart := 0
  txAttempt := 1
  txWaitStart := 0
  txFreeReq := .first
  txBlockOk := false
  txResult := TxResult.none
  txUsedBus := false
  justTransmitted := false
  alarmTx := none
  alarmAck := none
  evRx := false
  evTx := false

/-- The engine's registers at reset. Where R217 gives no value: log entries 6, 7, 9 and 26. -/
def Eng.reset : Eng where
  ctl := .load
  selfLa := 15#4
  selfPa := 0#16
  activeSource := 0#16
  audioMode := false
  menuActive := false
  lostCount := 0
  fbuf := []
  flen := 0
  fackbits := 0#16
  tLoaded := 0
  todo := []
  ret := TxResult.none

/-- The configuration before `E_LOAD` completes: R217 gives no value (log entry 8). -/
def Cfg.reset : Cfg where
  deviceType := 0#8
  la := 0#8
  pa := 0#16
  edidDelayMs := 0#32
  keyMap := []

/-- The environment at reset: no input queued (log entry 2). -/
def Env.reset : Env where
  extLow := false
  script := []
  edid := []
  cfg := []
  order := []
  draws := 0

/-- The OPEN parameters: unknown values for `KEYQ_DEPTH` and `PLATFORM`, the spec's defaults for the others (log
entry 3). -/
def Params.reset : Params where
  keyqDepth := Config.keyqDepth
  sendIdleTimeoutUs := sendIdleTimeoutDefault
  isrLatencyMaxUs := isrLatencyMaxDefault
  platform := Config.platform

/-- The machine right after reset (70_reset_and_hazards R216, R217). The model's own fields: log entries 1, 2 and 15. -/
def State.reset : State where
  now := 0
  drv := Drv.reset
  eng := Eng.reset
  cfg := Cfg.reset
  keyq := []
  ind := []
  err := []
  edges := []
  armedTx := 0
  armedAck := 0
  env := Env.reset
  par := Params.reset

end Sys2Proof.Machine
end

