-- ==== Sys2Proof/Machine/Ops.lean ====
section
/-! DEFINITION. The named operations: storage, the line, alarms, wake signals, entering and leaving a handler, the
outputs, and the draws. -/

namespace Sys2Proof.Machine

/-- What an instruction's meaning answers. -/
abbrev Result := Host.Outcome State Fault Refusal

/-- A handler's or an operation's answer as a step's. -/
def ofExcept : Except Fault State → Result
  | .ok s => .next s
  | .error f => .fault f

/-! ## Updating a part of the state -/

/-- Update the driver. -/
def updDrv (f : Drv → Drv) (s : State) : State := { s with drv := f s.drv }

/-- Update the engine. -/
def updEng (f : Eng → Eng) (s : State) : State := { s with eng := f s.eng }

/-- Update the environment. -/
def updEnv (f : Env → Env) (s : State) : State := { s with env := f s.env }

/-! ## Storage (20_memory R46, 00_scope R17, 10_state R24) -/

/-- The value at index `i`, or none. -/
def memGet : Memory → Nat → Option Byte
  | [], _ => none
  | c :: m, i => if c.1 = i then some c.2 else memGet m i

/-- Write index `i`, keeping the indexes rising. -/
def memSet : Memory → Nat → Byte → Memory
  | [], i, b => [(i, b)]
  | c :: m, i, b =>
    if i < c.1 then (i, b) :: c :: m
    else if i = c.1 then (i, b) :: m
    else c :: memSet m i b

/-- Write `bytes` at indexes `lo` and up, leaving every other index as it was. -/
def memStore : Memory → Nat → List Byte → Memory
  | m, _, [] => m
  | m, lo, b :: bs => memStore (memSet m lo b) (lo + 1) bs

/-- The canonical form of any list of cells below `size`; the first of two cells at one index wins (log entry 23). -/
def memCanon (size : Nat) (m : Memory) : Memory :=
  m.foldr (fun c acc => if c.1 < size then memSet acc c.1 c.2 else acc) []

/-- Read byte `i` of a buffer of valid length `len`: `BUF_RANGE` at or above it (10_state R24). -/
def bufRead (m : Memory) (len i : Nat) : Except Fault Byte :=
  if i < len then
    match memGet m i with
    | some b => .ok b
    | none => .error .bufRange
  else .error .bufRange

/-- Write byte `i` of a 16-byte buffer; no index above 15 exists (20_memory R46; log entry 21). -/
def bufWrite (m : Memory) (i : Nat) (b : Byte) : Except Fault Memory :=
  if i < maxFrame then .ok (memSet m i b) else .error .bufRange

/-- Bytes `i .. i + n - 1` of a buffer of valid length `len`. -/
def bufReadFrom (m : Memory) (len : Nat) : Nat → Nat → Except Fault (List Byte)
  | _, 0 => .ok []
  | i, n + 1 =>
    match bufRead m len i with
    | .error f => .error f
    | .ok b =>
      match bufReadFrom m len (i + 1) n with
      | .error f => .error f
      | .ok bs => .ok (b :: bs)

/-- The first `n` bytes of a buffer of valid length `len`. -/
def bufTake (m : Memory) (len n : Nat) : Except Fault (List Byte) := bufReadFrom m len 0 n

/-- Set bit `i` of a 16-bit register of ACK bits (10_state R28). -/
def setAckbit (v : BitVec 16) (i : Nat) (b : Bool) : BitVec 16 :=
  (v &&& ~~~(1#16 <<< i)) ||| ((if b then 1#16 else 0#16) <<< i)

/-- The ACK bits below `n` taken from `v`, the others from `old` (40 R101, R119; log entry 19). -/
def copyAckbits (n : Nat) (v old : BitVec 16) : BitVec 16 :=
  let mask := BitVec.ofNat 16 (2 ^ n - 1)
  (v &&& mask) ||| (old &&& ~~~mask)

/-! ## The line (40 R87, R88) -/

/-- `line()`: LOW when this node or another drives it, else HIGH (R87). -/
def lineLevel (drive : Drive) (extLow : Bool) : Level :=
  if drive = .low ∨ extLow = true then .low else .high

/-- The level of the line now. -/
def lineNow (s : State) : Level := lineLevel s.drv.drive s.env.extLow

/-- An edge occurs if the line changed from `before`: its interrupt becomes pending at this instant (R87, 60 R196). -/
def noteEdge (before : Level) (s : State) : State :=
  if lineNow s = before then s else { s with edges := s.edges ++ [(s.now, lineNow s)] }

/-- Set what this node does to the line; the edge it may cause is delivered after the handler returns (R87, R88). -/
def setDrive (drive : Drive) (s : State) : State :=
  noteEdge (lineNow s) (updDrv (fun d => { d with drive := drive }) s)

/-- `drive_low()` (R88). -/
def driveLow (s : State) : State := setDrive .low s

/-- `release()` (R88). -/
def release (s : State) : State := setDrive .released s

/-- Another node's drive of the line changes (10_state R43). -/
def setExtLow (low : Bool) (s : State) : State := noteEdge (lineNow s) (updEnv (fun v => { v with extLow := low }) s)

/-! ## Alarms (60_exceptions R198) -/

/-- The two alarm channels (10_state R32). -/
inductive Channel where
  | tx
  | ack
  deriving DecidableEq, Repr

/-- `arm(ch, d)`: replaces any earlier deadline of the channel. When it was armed is kept too: a deadline already past
makes the channel pending from this instant on (R198, R203; log entry 15). -/
def arm (ch : Channel) (deadline : Micros) (s : State) : State :=
  match ch with
  | .tx => { s with drv := { s.drv with alarmTx := some deadline }, armedTx := s.now }
  | .ack => { s with drv := { s.drv with alarmAck := some deadline }, armedAck := s.now }

/-- `cancel(ch)`. -/
def cancel (ch : Channel) (s : State) : State :=
  match ch with
  | .tx => updDrv (fun d => { d with alarmTx := none }) s
  | .ack => updDrv (fun d => { d with alarmAck := none }) s

/-! ## Wake signals (60_exceptions R206) and contexts (R205) -/

/-- The two execution contexts (R205). -/
inductive Context where
  | interrupt
  | task
  deriving DecidableEq, Repr

/-- The two wake flags (10_state R33). -/
inductive WakeFlag where
  | rx
  | tx
  deriving DecidableEq, Repr

/-- `signal(ev)`: set the flag (R206). -/
def signal (ev : WakeFlag) (s : State) : State :=
  match ev with
  | .rx => updDrv (fun d => { d with evRx := true }) s
  | .tx => updDrv (fun d => { d with evTx := true }) s

/-- `wait(ev)`: none while the flag is not set, which blocks the engine; once it is set, cleared (R206). In interrupt
context it is the fault `ISR_BLOCK` (40 R125). -/
def waitFlag (ctx : Context) (ev : WakeFlag) (s : State) : Except Fault (Option State) :=
  match ctx with
  | .interrupt => .error .isrBlock
  | .task =>
    match ev with
    | .rx => .ok (if s.drv.evRx then some (updDrv (fun d => { d with evRx := false }) s) else none)
    | .tx => .ok (if s.drv.evTx then some (updDrv (fun d => { d with evTx := false }) s) else none)

/-! ## Outputs -/

/-- `record E`: append to the observation trace (60_exceptions R193). -/
def record (e : Err) (s : State) : State := { s with err := s.err ++ [(s.now, e)] }

/-- `indicator(i)` (43 R151). -/
def indicate (i : Indicator) (s : State) : State := { s with ind := s.ind ++ [i] }

/-- Append a byte to the key queue (43 R150). -/
def pushKey (b : Byte) (s : State) : State := { s with keyq := s.keyq ++ [b] }

/-- The key queue has room (43 R150). -/
def keyqRoom (s : State) : Bool := decide (s.keyq.length < s.par.keyqDepth)

/-! ## The engine's remaining actions (log entry 9) -/

/-- Put actions before what is left of the rule. -/
def pushActs (acts : List Act) (s : State) : State := updEng (fun e => { e with todo := acts ++ s.eng.todo }) s

/-- Replace what is left of the rule. -/
def setTodo (acts : List Act) (s : State) : State := updEng (fun e => { e with todo := acts }) s

/-- Set `ENG.ctl`. -/
def setCtl (c : Ctl) (s : State) : State := updEng (fun e => { e with ctl := c }) s

/-- Write the logical address of the engine, and at once the driver's (42 R139). -/
def publishLa (la : La) (s : State) : State :=
  updDrv (fun d => { d with selfLa := la }) (updEng (fun e => { e with selfLa := la }) s)

/-! ## Taking an interrupt, and returning from one (60_exceptions R196, R200, R201)

The machine's exceptions are its interrupts. Entry saves no pc and no status, changes no mode and no mask: it only
clears the pending condition of its source. Return restores nothing. -/

/-- The interrupt sources (R196). -/
inductive Source where
  | edge
  | alarm (ch : Channel)
  deriving DecidableEq, Repr

/-- A taken interrupt: which handler runs, with the time and level it is given (R197, R203). -/
inductive Taken where
  | edge (t : Micros) (lvl : Level)
  | alarm (ch : Channel) (t : Micros)
  deriving DecidableEq, Repr

/-- Handler entry: clear the pending condition and answer what the handler is given; none if nothing is pending. The
oldest edge is taken first, with its own time; a fired alarm is disarmed and given the time it runs at. -/
def enterHandler (src : Source) (s : State) : Option (Taken × State) :=
  match src with
  | .edge =>
    match s.edges with
    | [] => none
    | e :: es => some (.edge e.1 e.2, { s with edges := es })
  | .alarm .tx =>
    match s.drv.alarmTx with
    | none => none
    | some d => if d ≤ s.now then some (.alarm .tx s.now, cancel .tx s) else none
  | .alarm .ack =>
    match s.drv.alarmAck with
    | none => none
    | some d => if d ≤ s.now then some (.alarm .ack s.now, cancel .ack s) else none

/-- Handler return: the preempted sequence resumes where it was; no state is restored (R201). -/
def leaveHandler (s : State) : State := s

/-! ## Draws (00_scope R20; log entry 2) -/

/-- Count one free value drawn. -/
def countDraw (s : State) : State := updEnv (fun v => { v with draws := s.env.draws + 1 }) s

/-- `get_physical_address()`: the next queued answer, or a free value (42 R136). -/
def drawEdid (s : State) : Pa × State :=
  match s.env.edid with
  | pa :: rest => (pa, (updEnv (fun v => { v with edid := rest }) s))
  | [] => (Config.edidDraw s.env.draws, countDraw s)

/-- `load_config()`: the next queued answer, or a free value (43 R142). -/
def drawCfg (s : State) : Option CfgAnswer × State :=
  match s.env.cfg with
  | r :: rest => (r, (updEnv (fun v => { v with cfg := rest }) s))
  | [] => (Config.cfgDraw s.env.draws, countDraw s)

/-- A choice among alternatives (which ready agent runs first, 60 R199; how much latency passes, R203): the next queued
one, or a free value. -/
def drawOrder (s : State) : Nat × State :=
  match s.env.order with
  | k :: rest => (k, (updEnv (fun v => { v with order := rest }) s))
  | [] => (Config.orderDraw s.env.draws, countDraw s)

/-- The coming inputs: when none is queued, a free batch of events (93 U20, U21). -/
def refillScript (s : State) : State :=
  match s.env.script with
  | _ :: _ => s
  | [] =>
    countDraw (updEnv (fun v =>
      { v with script := (Config.envDraw s.env.draws).map fun e => (e.1, EnvInput.event e.2) }) s)

end Sys2Proof.Machine
end

