-- ==== Sys2Proof/Machine/Operands.lean ====
section
/-! DEFINITION. The operand forms of 30_encoding R78, read from a message's operand bytes and laid out in one. -/

namespace Sys2Proof.Machine

/-- A byte operand: operand `k`, which is frame byte `k + 2`; none if the frame is shorter (R78). -/
def operandByte (ops : List Byte) (k : Nat) : Option Byte := ops[k]?

/-- A physical address, high byte first: operands `k` and `k + 1` (R78, 20_memory R50). -/
def operandPa (ops : List Byte) (k : Nat) : Option Pa :=
  match ops[k]?, ops[k + 1]? with
  | some hi, some lo => some (hi ++ lo)
  | _, _ => none

/-- A vendor id, most significant byte first: operands `k` to `k + 2` (R78). -/
def operandVendorId (ops : List Byte) (k : Nat) : Option (BitVec 24) :=
  match ops[k]?, ops[k + 1]?, ops[k + 2]? with
  | some b2, some b1, some b0 => some (b2 ++ b1 ++ b0)
  | _, _, _ => none

/-- An ASCII string of `n` bytes from operand `k` on, no terminator (R78). -/
def operandString (ops : List Byte) (k n : Nat) : Option (List Byte) :=
  if k + n ≤ ops.length then some ((ops.drop k).take n) else none

/-- `pa[15:8]` (20_memory R50). -/
def paHi (pa : Pa) : Byte := pa.extractLsb' 8 8

/-- `pa[7:0]` (20_memory R50). -/
def paLo (pa : Pa) : Byte := pa.extractLsb' 0 8

/-- Byte 2 of a vendor id, the most significant (20_memory R50). -/
def vid2 (v : BitVec 24) : Byte := v.extractLsb' 16 8

/-- Byte 1 of a vendor id. -/
def vid1 (v : BitVec 24) : Byte := v.extractLsb' 8 8

/-- Byte 0 of a vendor id. -/
def vid0 (v : BitVec 24) : Byte := v.extractLsb' 0 8

/-- `MemRead(buf, i, n)`: `n` bytes of a buffer of valid length `len` as one big-endian number (00_scope R17). -/
def memRead (m : Memory) (len i n : Nat) : Except Fault Nat :=
  match bufReadFrom m len i n with
  | .ok bs => .ok (bs.foldl (fun acc b => acc * 256 + b.toNat) 0)
  | .error f => .error f

/-- `MemWrite(buf, i, n, v)`: the `n` bytes of `v`, most significant first, from index `i` on (00_scope R17). -/
def memWrite (m : Memory) : Nat → Nat → Nat → Except Fault Memory
  | _, 0, _ => .ok m
  | i, n + 1, v =>
    match bufWrite m i (BitVec.ofNat 8 (v / 256 ^ n)) with
    | .ok m' => memWrite m' (i + 1) n v
    | .error f => .error f

end Sys2Proof.Machine
end

