-- ==== Sys2Proof/Machine/Flags.lean ====
section
/-! DEFINITION. The flags and predicates rules test: selection, addressing gates, bus-free, the signal-free time, the
ACK polarity, and the classification of a low time. -/

namespace Sys2Proof.Machine

/-- `selected`: `ENG.active_source == ENG.self_pa`, literally, also when both are 0x0000 (10_state R37, 93 U33). -/
def selected (s : State) : Bool := decide (s.eng.activeSource = s.eng.selfPa)

/-- `is_broadcast(f)` (41 R132). -/
def isBroadcast (dest : La) : Bool := decide (dest = laBroadcast)

/-- `direct_to_self(f)`: never, while the node is unregistered (41 R132). -/
def directToSelf (dest : La) (s : State) : Bool :=
  decide (dest = s.eng.selfLa) && decide (s.eng.selfLa ≠ laBroadcast)

/-- The addressing gates of the dispatch table (43 R145). -/
inductive GateMode where
  | direct
  | directB
  | tvBcast
  deriving DecidableEq, Repr

/-- `act` of the dispatch: whether a row of this mode acts on a frame with this header (43 R145). -/
def gateOpen (mode : GateMode) (init dest : La) (s : State) : Bool :=
  match mode with
  | .direct => directToSelf dest s
  | .directB => directToSelf dest s || isBroadcast dest
  | .tvBcast => isBroadcast dest && decide (init = laTv)

/-- The kinds of attempt a signal-free time is chosen for (40 R106). -/
inductive AttemptKind where
  | first
  | retry
  deriving DecidableEq, Repr

/-- `free_select(kind)` (40 R106). -/
def freeSelect (kind : AttemptKind) (s : State) : FreeReq :=
  match kind with
  | .retry => .retry
  | .first => if s.drv.justTransmitted then .afterTx else .first

/-- The signal-free time in microseconds (00_scope R13). -/
def freeMicros : FreeReq → Micros
  | .first => freeFirst
  | .retry => freeRetry
  | .afterTx => freeAfterTx

/-- `bus_free(t)` (40 R107). -/
def busFree (t : Micros) (s : State) : Bool :=
  decide (s.drv.lineLevel = .high) && decide (freeMicros s.drv.txFreeReq ≤ t - s.drv.tLastEdge)

/-- `wait_deadline()` (40 R107). -/
def waitDeadline (s : State) : Micros :=
  if s.drv.lineLevel = .high then
    min (s.drv.tLastEdge + freeMicros s.drv.txFreeReq) (s.drv.txWaitStart + s.par.sendIdleTimeoutUs)
  else s.drv.txWaitStart + s.par.sendIdleTimeoutUs

/-- The ACK bit's meaning at the sample point: LOW acknowledges a direct frame and rejects a broadcast one (30 R69,
40 R116). -/
def ackOk (dest : La) (lvl : Level) : Bool :=
  if dest = laBroadcast then decide (lvl = .high) else decide (lvl = .low)

/-- `rx_ack_owed`: the frame is for this node's own address (40 R97). -/
def ackOwed (dest selfLa : La) : Bool := decide (dest = selfLa) && decide (selfLa ≠ laBroadcast)

/-- What a low time means inside a bit cell (40 R95). -/
inductive LowClass where
  | bit (b : Bool)
  | start
  | bad
  deriving DecidableEq, Repr

/-- Classify a low time (40 R95). -/
def classifyLow (d : Micros) : LowClass :=
  if oneOk d then .bit true
  else if zeroOk d then .bit false
  else if startLowOk d then .start
  else .bad

/-- An attempt is on the line (40 R90, R121). -/
def onLine (p : TxPhase) : Bool :=
  match p with
  | .idle => false
  | .wait => false
  | .startLow => true
  | .startHigh => true
  | .bitLow => true
  | .bitPresample => true
  | .bitHigh => true

end Sys2Proof.Machine
end

