-- ==== Sys2Proof/Machine/Receive.lean ====
section
/-! DEFINITION. The receive path of the bit-timing driver: EDGE_ISR's rules R91 to R104 of 40_bit_timing_driver, the
end of a driven ACK (R99), and the edge while waiting for the bus (R109). -/

namespace Sys2Proof.Machine

/-- The end of a driven ACK LOW (R99), and what R102 does with one. -/
def rxDropAck (s : State) : State := updDrv (fun d => { d with rxAcking := false }) (release s)

/-- `malformed(kind, t)` (R102): the frame is discarded, a driven ACK is released, and a falling edge is taken as a
possible start bit. `lvl` is the level after the edge. -/
def rxMalformed (lvl : Level) (t : Micros) (s : State) : State :=
  let s1 := updDrv (fun d => { d with rxLen := 0 }) s
  let s2 := if s1.drv.rxAcking then cancel .ack (rxDropAck s1) else s1
  record (.malformed t)
    (match lvl with
     | .low => updDrv (fun d => { d with rxTFall := t, rxState := .startLow }) s2
     | .high => updDrv (fun d => { d with rxState := .idle }) s2)

/-- R91: a falling edge while idle is a possible start bit. -/
def rxIdleFall (t : Micros) (s : State) : State :=
  updDrv (fun d => { d with rxTFall := t, rxLen := 0, rxState := .startLow }) s

/-- R92: a rising edge while idle is ignored. -/
def rxIdleRise (s : State) : State := s

/-- R93: the end of the start bit's low time. -/
def rxStartLowRise (t : Micros) (s : State) : State :=
  if startLowOk (t - s.drv.rxTFall) then updDrv (fun d => { d with rxState := .startHigh }) s
  else rxMalformed .high t s

/-- R94: the first data bit of the frame. -/
def rxStartHighFall (t : Micros) (s : State) : State :=
  if startPeriodOk (t - s.drv.rxTFall) then
    updDrv (fun d => { d with rxTFall := t, rxLen := 0, rxBit := 0, rxShift := 0#8, rxEom := false,
                              rxAckOwed := false, rxState := .bitLow }) s
  else rxMalformed .low t s

/-- R97: the ACK decision, taken when the header is complete. -/
def rxAckDecision (s : State) : Except Fault State :=
  match bufRead s.drv.rxBuf s.drv.rxLen 0 with
  | .error f => .error f
  | .ok b => .ok (updDrv (fun d => { d with rxAckOwed := ackOwed (headerDest b) d.selfLa }) s)

/-- R96: a byte is complete. -/
def rxByteComplete (s : State) : Except Fault State :=
  match bufWrite s.drv.rxBuf s.drv.rxLen s.drv.rxShift with
  | .error f => .error f
  | .ok m =>
    let s1 := updDrv (fun d => { d with rxBuf := m, rxLen := d.rxLen + 1 }) s
    if s1.drv.rxLen = 1 then rxAckDecision s1 else .ok s1

/-- R101: delivery to the mailbox; a frame that finds it full is lost. -/
def rxDeliver (s : State) : Except Fault State :=
  if s.drv.mbFull then .ok s
  else
    match bufTake s.drv.rxBuf s.drv.rxLen s.drv.rxLen with
    | .error f => .error f
    | .ok bytes =>
      .ok (signal .rx
        (updDrv (fun d => { d with mbBuf := memStore d.mbBuf 0 bytes,
                                   mbAckbit := copyAckbits d.rxLen d.rxAckbit d.mbAckbit,
                                   mbLen := d.rxLen, mbFull := true }) s))

/-- R100: the frame is complete; it is delivered if an ACK was owed for it or it is a broadcast, else dropped. -/
def rxFrameComplete (s : State) : Except Fault State :=
  match bufRead s.drv.rxBuf s.drv.rxLen 0 with
  | .error f => .error f
  | .ok b =>
    let s1 := updDrv (fun d => { d with rxState := .idle }) s
    match (if s1.drv.rxAckOwed || isBroadcast (headerDest b) then rxDeliver s1 else .ok s1) with
    | .error f => .error f
    | .ok s2 => .ok (updDrv (fun d => { d with rxLen := 0 }) s2)

/-- The next position inside a bit cell: its high time (R95). -/
def rxCellHigh (s : State) : State := updDrv (fun d => { d with rxState := .bitHigh }) s

/-- A data bit shifted into `rx_shift`, MSB first (R95, 20_memory R48). -/
def rxShiftIn (b : Bool) (s : State) : State :=
  updDrv (fun d => { d with rxShift := (d.rxShift <<< 1) ||| (if b then 1#8 else 0#8) }) s

/-- R95, data bit: shifted in; the eighth completes the byte. -/
def rxDataBit (b : Bool) (s : State) : Except Fault State :=
  if s.drv.rxBit = 7 then (rxByteComplete (rxShiftIn b s)).map rxCellHigh else .ok (rxCellHigh (rxShiftIn b s))

/-- R95, ACK bit of the block just completed; it ends the frame if the block's EOM was 1. -/
def rxAckBit (b : Bool) (s : State) : Except Fault State :=
  match s.drv.rxLen with
  | 0 => .error .bufRange
  | n + 1 =>
    let s1 := updDrv (fun d => { d with rxAckbit := setAckbit d.rxAckbit n b }) s
    if s1.drv.rxEom then rxFrameComplete s1 else .ok (rxCellHigh s1)

/-- R95, after the bit `b` was classified: a data bit, the EOM bit or the ACK bit. -/
def rxTakeBit (b : Bool) (s : State) : Except Fault State :=
  if s.drv.rxBit ≤ 7 then rxDataBit b s
  else if s.drv.rxBit = 8 then .ok (rxCellHigh (updDrv (fun d => { d with rxEom := b }) s))
  else rxAckBit b s

/-- R95: the end of a cell's low time. -/
def rxBitLowRise (t : Micros) (s : State) : Except Fault State :=
  match classifyLow (t - s.drv.rxTFall) with
  | .bit b => rxTakeBit b s
  | .start => .ok (updDrv (fun d => { d with rxLen := 0, rxState := .startHigh }) s)
  | .bad => .ok (rxMalformed .high t s)

/-- R103: a 17th block begins; the frame is discarded. -/
def rxOverlong (t : Micros) (s : State) : State :=
  record (.malformed t) (updDrv (fun d => { d with rxLen := 0, rxState := .idle }) s)

/-- R98, the ACK cell of a frame for this node: LOW until `T_0_LOW`. -/
def rxDriveAck (t : Micros) (s : State) : State :=
  arm .ack (t + tZeroLow) (updDrv (fun d => { d with rxAcking := true }) (driveLow s))

/-- R98, the new cell's low time. -/
def rxEnterCell (t : Micros) (s : State) : State :=
  let s1 := updDrv (fun d => { d with rxTFall := t, rxState := .bitLow }) s
  if s1.drv.rxBit = 9 ∧ s1.drv.rxAckOwed = true then rxDriveAck t s1 else s1

/-- R98: the end of a cell and the start of the next. -/
def rxBitHighFall (t : Micros) (s : State) : State :=
  if bitPeriodOk (t - s.drv.rxTFall) then
    if s.drv.rxBit = 9 then
      if s.drv.rxLen = maxFrame then rxOverlong t s
      else rxEnterCell t (updDrv (fun d => { d with rxBit := 0, rxShift := 0#8, rxEom := false }) s)
    else rxEnterCell t (updDrv (fun d => { d with rxBit := d.rxBit + 1 }) s)
  else rxMalformed .low t s

/-- R90's dispatch on the receive state and the edge's polarity; an edge the state does not expect is R104. -/
def rxDispatch (t : Micros) (lvl : Level) (s : State) : Except Fault State :=
  match s.drv.rxState, lvl with
  | .idle, .low => .ok (rxIdleFall t s)
  | .idle, .high => .ok (rxIdleRise s)
  | .startLow, .high => .ok (rxStartLowRise t s)
  | .startHigh, .low => .ok (rxStartHighFall t s)
  | .bitLow, .high => rxBitLowRise t s
  | .bitHigh, .low => .ok (rxBitHighFall t s)
  | .startLow, .low => .ok (rxMalformed .low t s)
  | .startHigh, .high => .ok (rxMalformed .high t s)
  | .bitLow, .low => .ok (rxMalformed .low t s)
  | .bitHigh, .high => .ok (rxMalformed .high t s)

/-- R109: an edge while waiting for the bus moves the wait's alarm. -/
def txRearmWait (s : State) : State :=
  if s.drv.txPhase = .wait then arm .tx (waitDeadline s) s else s

/-- R90, the two registers every edge writes. -/
def noteLine (t : Micros) (lvl : Level) (s : State) : State :=
  updDrv (fun d => { d with lineLevel := lvl, tLastEdge := t }) s

/-- R90: a falling edge the receive path processes ends "just transmitted". -/
def clearJustTransmitted (lvl : Level) (s : State) : State :=
  match lvl with
  | .low => updDrv (fun d => { d with justTransmitted := false }) s
  | .high => s

/-- `EDGE_ISR(t, lvl)` (R90, R121). -/
def edgeIsr (t : Micros) (lvl : Level) (s : State) : Except Fault State :=
  if s.drv.enabled then
    if onLine s.drv.txPhase then .ok (noteLine t lvl s)
    else (rxDispatch t lvl (clearJustTransmitted lvl (noteLine t lvl s))).map txRearmWait
  else .ok s

end Sys2Proof.Machine
end

