-- ==== Sys2Proof/Machine/Transmit.lean ====
section
/-! DEFINITION. The transmit path of the bit-timing driver: `send_frame` and its waits (40_bit_timing_driver R105 to
R110), the alarm rules of an attempt (R111 to R120), the driver's enable (R89), and taking an interrupt. -/

namespace Sys2Proof.Machine

/-- R89: driver enable, up to `enabled <- true`. A handler that runs between the two does nothing (R90). -/
def drvPrepare (s : State) : State :=
  let s1 := release s
  let level := lineNow s1
  cancel .ack (cancel .tx
    (updDrv (fun d => { d with lineLevel := level, tLastEdge := s.now,
                               rxState := .idle, rxLen := 0, rxAcking := false,
                               txPhase := .idle,
                               mbFull := false, evRx := false, evTx := false,
                               justTransmitted := false }) s1))

/-- R89: the end of driver enable. -/
def drvEnabled (s : State) : State := updDrv (fun d => { d with enabled := true }) s

/-- R108: `begin_wait()`. -/
def beginWait (s : State) : State :=
  let s1 := updDrv (fun d => { d with txWaitStart := s.now, txPhase := .wait }) s
  arm .tx (waitDeadline s1) s1

/-- R105, up to `wait(ev_tx)`: the request is set up as one step (60 R202). `TX_BUSY` if a send is in progress or the
driver is not enabled. -/
def sendFrame (bytes : List Byte) (s : State) : Except Fault State :=
  if s.drv.enabled = true ∧ s.drv.txPhase = .idle then
    let req := freeSelect .first s
    .ok (beginWait
      (updDrv (fun d => { d with txBuf := memStore d.txBuf 0 bytes, txLen := bytes.length,
                                 txResult := TxResult.none, txUsedBus := false, txAttempt := 1,
                                 txFreeReq := req }) s))
  else .error .txBusy

/-- R120: `finish()`, the end of a `send_frame` other than by arbitration loss. -/
def txFinish (s : State) : State :=
  signal .tx
    (updDrv (fun d => { d with txPhase := .idle, rxState := .idle, rxLen := 0,
                               justTransmitted := d.justTransmitted || d.txUsedBus })
      (cancel .tx (release s)))

/-- R111: `start_attempt(t)`. -/
def txStartAttempt (t : Micros) (s : State) : State :=
  let s1 := updDrv (fun d => { d with rxState := .idle, rxLen := 0, txUsedBus := true,
                                      txByte := 0, txBit := 0, txCellStart := t }) s
  arm .tx (t + tStartLow) (updDrv (fun d => { d with txPhase := .startLow }) (driveLow s1))

/-- R110: the idle wait was too long. -/
def txTimeout (s : State) : State :=
  txFinish (updDrv (fun d => { d with txResult := { d.txResult with timeout := true } })
    (record (.timeout s.drv.txWaitStart) s))

/-- R110: the alarm of the signal-free wait. -/
def txWaitAlarm (t : Micros) (s : State) : State :=
  if busFree t s then txStartAttempt t s
  else if s.par.sendIdleTimeoutUs ≤ t - s.drv.txWaitStart then txTimeout s
  else arm .tx (waitDeadline s) s

/-- R112: the end of the start bit's low time. -/
def txStartRelease (s : State) : State :=
  arm .tx (s.drv.txCellStart + tStart) (updDrv (fun d => { d with txPhase := .startHigh }) (release s))

/-- `bit_value(k, j)` (R114): data MSB first, EOM on the last byte only, the ACK cell sent as 1. -/
def txBitValue (k j : Nat) (s : State) : Except Fault Bool :=
  if j ≤ 7 then
    match bufRead s.drv.txBuf s.drv.txLen k with
    | .error f => .error f
    | .ok b => .ok (b.getLsbD (7 - j))
  else if j = 8 then .ok (decide (k + 1 = s.drv.txLen))
  else .ok true

/-- The low time of a bit cell (R114). -/
def lowTime (v : Bool) : Micros := if v then tOneLow else tZeroLow

/-- R114: a cell's falling edge, for a bit of value `v`. -/
def txDriveCell (t : Micros) (v : Bool) (s : State) : State :=
  let s1 := updDrv (fun d => { d with txCellStart := t, txValue := v }) s
  arm .tx (t + lowTime v) (updDrv (fun d => { d with txPhase := .bitLow }) (driveLow s1))

/-- R114: `begin_cell(t)`. -/
def txBeginCell (t : Micros) (s : State) : Except Fault State :=
  match txBitValue s.drv.txByte s.drv.txBit s with
  | .error f => .error f
  | .ok v => .ok (txDriveCell t v s)

/-- R113: the end of the start bit. -/
def txStartEnd (t : Micros) (s : State) : Except Fault State := txBeginCell t s

/-- R115: the end of a cell's low time. -/
def txBitRelease (s : State) : State :=
  if s.drv.txValue then
    arm .tx (s.drv.txCellStart + tSample) (updDrv (fun d => { d with txPhase := .bitPresample }) (release s))
  else
    arm .tx (s.drv.txCellStart + tBit) (updDrv (fun d => { d with txPhase := .bitHigh }) (release s))

/-- The end of the cell is next (R116). -/
def txAwaitCellEnd (s : State) : State :=
  arm .tx (s.drv.txCellStart + tBit) (updDrv (fun d => { d with txPhase := .bitHigh }) s)

/-- R119: the complete bytes sent, when the attempt is lost at bit `j`: past the data bits the byte in progress is one. -/
def sentBytes (j : Nat) (sent : List Byte) (cur : Byte) : List Byte := if j ≤ 7 then sent else sent ++ [cur]

/-- R119, the receive registers: the bits already sent are the first bits of the frame in progress. `hdr` is the header
sent, `sent` the complete bytes, `cur` the byte in progress. -/
def txHandOff (hdr : Byte) (sent : List Byte) (cur : Byte) (s : State) : State :=
  let k := s.drv.txByte
  let j := s.drv.txBit
  let bytes := sentBytes j sent cur
  let acks : BitVec 16 := if isBroadcast (headerDest hdr) then BitVec.allOnes 16 else 0#16
  updDrv (fun d => { d with rxBuf := memStore d.rxBuf 0 bytes, rxLen := bytes.length,
                            rxAckbit := copyAckbits k acks d.rxAckbit,
                            rxShift := if j ≤ 7 then cur >>> (8 - j) else d.rxShift,
                            rxBit := j, rxEom := false,
                            rxAckOwed := decide (1 ≤ bytes.length) && ackOwed (headerDest hdr) d.selfLa,
                            rxTFall := d.txCellStart, rxAcking := false, rxState := .bitLow }) s

/-- R119, the transmit registers: the send ends with arbitration lost. -/
def txEndLost (s : State) : State :=
  signal .tx
    (updDrv (fun d => { d with txPhase := .idle, txResult := { d.txResult with arbitrationLost := true },
                               justTransmitted := false }) (cancel .tx s))

/-- R119: arbitration loss. -/
def txArbLost (s : State) : Except Fault State :=
  match bufRead s.drv.txBuf s.drv.txLen 0, bufTake s.drv.txBuf s.drv.txLen s.drv.txByte,
    bufRead s.drv.txBuf s.drv.txLen s.drv.txByte with
  | .ok hdr, .ok sent, .ok cur =>
    .ok (txEndLost (txHandOff hdr sent cur (record (.arbLost s.drv.txByte s.drv.txBit) s)))
  | .error f, _, _ => .error f
  | .ok _, .error f, _ => .error f
  | .ok _, .ok _, .error f => .error f

/-- R116: the sample point of a logical-1 cell: the ACK check, or the arbitration check. -/
def txSample (s : State) : Except Fault State :=
  if s.drv.txBit = 9 then
    match bufRead s.drv.txBuf s.drv.txLen 0 with
    | .error f => .error f
    | .ok hdr =>
      let ok := ackOk (headerDest hdr) (lineNow s)
      .ok (txAwaitCellEnd (updDrv (fun d => { d with txBlockOk := ok }) s))
  else if lineNow s = .low then txArbLost s
  else .ok (txAwaitCellEnd s)

/-- R118: `attempt_failed()`, a NACK ended an attempt. -/
def txAttemptFailed (s : State) : State :=
  let s1 := record (.nack s.drv.txAttempt) s
  let req := freeSelect .retry s1
  if s.drv.txAttempt < maxAttempts then
    beginWait (updDrv (fun d => { d with txAttempt := d.txAttempt + 1, txFreeReq := req }) s1)
  else txFinish s1

/-- R117: the end of a cell. -/
def txCellEnd (t : Micros) (s : State) : Except Fault State :=
  if s.drv.txBit < 9 then txBeginCell t (updDrv (fun d => { d with txBit := d.txBit + 1 }) s)
  else if s.drv.txBlockOk = false then .ok (txAttemptFailed s)
  else if s.drv.txByte + 1 = s.drv.txLen then
    .ok (txFinish (updDrv (fun d => { d with txResult := { d.txResult with acked := true } }) s))
  else txBeginCell t (updDrv (fun d => { d with txByte := d.txByte + 1, txBit := 0 }) s)

/-- 60_exceptions R197, channel TX: dispatch on the transmit phase. -/
def txAlarm (t : Micros) (s : State) : Except Fault State :=
  match s.drv.txPhase with
  | .idle => .ok s
  | .wait => .ok (txWaitAlarm t s)
  | .startLow => .ok (txStartRelease s)
  | .startHigh => txStartEnd t s
  | .bitLow => .ok (txBitRelease s)
  | .bitPresample => txSample s
  | .bitHigh => txCellEnd t s

/-- `ALARM_ISR(ch, t)` after the channel was disarmed (60_exceptions R197). -/
def alarmIsr (ch : Channel) (t : Micros) (s : State) : Except Fault State :=
  if s.drv.enabled then
    match ch with
    | .ack => .ok (if s.drv.rxAcking then rxDropAck s else s)
    | .tx => txAlarm t s
  else .ok s

/-- Take a pending interrupt: enter its handler, run it to completion, return (60_exceptions R197, R200, R201). With
nothing pending, nothing happens. -/
def takeInterrupt (src : Source) (s : State) : Except Fault State :=
  match enterHandler src s with
  | none => .ok s
  | some (.edge t lvl, s1) => (edgeIsr t lvl s1).map leaveHandler
  | some (.alarm ch t, s1) => (alarmIsr ch t s1).map leaveHandler

end Sys2Proof.Machine
end

