-- ==== Sys2Proof/Machine/Codec.lean ====
section
/-! DEFINITION. The frame codec on the engine task: `codec_send`, the copy-out of `recv_frame`, and the decoded frame
record (41_frame_codec R129 to R131; 40_bit_timing_driver R123). -/

namespace Sys2Proof.Machine

/-- `codec_send(bytes, n)` up to its wait (R129): what the engine has to do next, and the state. An insane frame is
refused: recorded, result all false, no bus activity, nothing to wait for. A sane one is handed to `send_frame`, whose
wait comes next. -/
def codecSend (bytes : List Byte) (s : State) : Except Fault (List Act × State) :=
  if sane bytes then
    match sendFrame bytes s with
    | .error f => .error f
    | .ok s1 => .ok ([.sendWait], s1)
  else .ok ([], updEng (fun e => { e with ret := TxResult.none }) (record (.codecReject bytes) s))

/-- `tx(bytes)` up to its wait, as its call number `calls` (43 R147): `codec_send`, then the loop test. -/
def txCall (bytes : List Byte) (calls : Nat) (s : State) : Except Fault (List Act × State) :=
  match codecSend bytes s with
  | .error f => .error f
  | .ok (acts, s1) => .ok (acts ++ [.txLoop bytes calls], s1)

/-- Whether `tx` sends again: arbitration lost, a direct frame, fewer than `MAX_ATTEMPTS` calls (43 R147). -/
def txAgain (bytes : List Byte) (calls : Nat) (s : State) : Bool :=
  s.eng.ret.arbitrationLost &&
  (match bytes with
   | [] => false
   | b :: _ => decide (headerDest b ≠ laBroadcast)) &&
  decide (calls < maxAttempts)

/-- The decoded frame record (41 R131), and the bytes it was read from. -/
structure Frame where
  len       : Nat
  init      : La
  dest      : La
  isPoll    : Bool
  bytes     : List Byte
  operands  : List Byte
  ackbits   : BitVec 16
  direction : Direction
  deriving DecidableEq, Repr

/-- `frame(buf, n)` of the frame in `ENG.fbuf`, with the ACK bits taken from the mailbox with it (41 R131). -/
def frameRecord (s : State) : Except Fault Frame :=
  match bufTake s.eng.fbuf s.eng.flen s.eng.flen with
  | .error f => .error f
  | .ok [] => .error .bufRange
  | .ok (b :: rest) =>
    .ok { len := s.eng.flen, init := headerInit b, dest := headerDest b, isPoll := decide (s.eng.flen = 1),
          bytes := b :: rest, operands := rest.drop 1, ackbits := s.eng.fackbits, direction := .rx }

/-- `op` of a frame record: `BUF_RANGE` for a poll (41 R131). -/
def frameOp (f : Frame) : Except Fault Byte :=
  match f.bytes with
  | _ :: op :: _ => .ok op
  | _ => .error .bufRange

/-- Entering `recv_frame(ENG.fbuf, ENG.self_la)`: the engine is at `E_RECV` and the driver's address is written (40
R123, 42 R139). The frame just handled is discarded (43 R144; log entry 20). -/
def enterRecv (s : State) : State :=
  updDrv (fun d => { d with selfLa := s.eng.selfLa })
    (updEng (fun e => { e with ctl := .recv, fbuf := [], flen := 0 }) s)

/-- The copy-out of `recv_frame`: the mailbox's bytes go to `ENG.fbuf`, with their ACK bits, and the mailbox is empty
(40 R123, 60 R202; log entry 26). -/
def copyOut (s : State) : Except Fault (List Byte × State) :=
  match bufTake s.drv.mbBuf s.drv.mbLen s.drv.mbLen with
  | .error f => .error f
  | .ok bytes =>
    .ok (bytes, updDrv (fun d => { d with mbFull := false })
      (updEng (fun e => { e with fbuf := memStore e.fbuf 0 bytes, fackbits := s.drv.mbAckbit }) s))

/-- `codec_recv` returns a sane frame of `n` bytes: its length is written and the engine dispatches (41 R130, 43
R144). -/
def acceptFrame (n : Nat) (s : State) : State := updEng (fun e => { e with flen := n, ctl := .dispatch }) s

/-- `codec_recv` drops an insane frame and calls `recv_frame` again (41 R130). -/
def rejectFrame (bytes : List Byte) (s : State) : State := enterRecv (record (.codecReject bytes) s)

end Sys2Proof.Machine
end

