-- ==== Sys2Proof/Machine/Addressing.lean ====
section
/-! DEFINITION. Addressing (42_addressing R136 to R140): the physical address, the probe's verdict, and the walk
through the candidate list. -/

namespace Sys2Proof.Machine

/-- `derive_pa()` (R136): the configured address, else the EDID reader's answer. -/
def derivePa (s : State) : Pa × State :=
  if s.cfg.pa ≠ 0#16 then (s.cfg.pa, s) else drawEdid s

/-- `ENG.self_pa <- derive_pa()` (R140, 43 R143). -/
def obtainPa (s : State) : State :=
  let r := derivePa s
  updEng (fun e => { e with selfPa := r.1 }) r.2

/-- `allocate()` at position `i` of the candidate list (R138): past the list, or at "give up", the node stays
unregistered and nothing is left to do; else candidate `c` is probed, and the verdict comes when the poll's send has
ended. -/
def allocateAt (i : Nat) (s : State) : List Act × State :=
  let c := candidate s.cfg.deviceType i
  if c = laBroadcast then ([], publishLa laBroadcast s)
  else ([.instr (.pollTx c), .verdict c i], s)

/-- The configured logical address is used verbatim, without a probe (R138, 92 D21). -/
def laOverride (la : Byte) : Bool := decide (1 ≤ la.toNat) && decide (la.toNat ≤ 14)

/-- `allocate()` (R138): unregistered at first; the override is claimed next, in a step of its own (60 R202); else the
walk through the candidates. -/
def allocateBegin (s : State) : List Act × State :=
  let s1 := publishLa laBroadcast s
  if laOverride s.cfg.la then ([.claim (BitVec.ofNat 4 s.cfg.la.toNat)], s1) else allocateAt 0 s1

/-- `probe(c)`'s verdict is TAKEN: acknowledged, or its freedom not observed (R137). -/
def probeTaken (r : TxResult) : Bool := r.acked || r.arbitrationLost || r.timeout

/-- The verdict on candidate `c` at position `i`: taken, go on with the next; free, claim it (R137, R138). -/
def probeVerdict (c : La) (i : Nat) (s : State) : List Act × State :=
  if probeTaken s.eng.ret then allocateAt (i + 1) s else ([], publishLa c s)

end Sys2Proof.Machine
end

