-- ==== Sys2Proof/Machine/Outbound.lean ====
section
/-! DEFINITION. The outbound messages (43_protocol_engine R153 to R165): how each is built from the engine's state, and
the meaning of each transmitted row of the opcode table. -/

namespace Sys2Proof.Machine

/-- The transmitted instruction a message rule builds (R153 to R165, R148, R149): a reply goes from this node to the
initiator of the frame being dispatched, a broadcast from this node to 15, Image View On to the TV. -/
def buildMsg (m : Msg) (s : State) : Instr :=
  let self := s.eng.selfLa
  match m with
  | .imageViewOn => .imageViewOnTx self laTv
  | .activeSource => .activeSourceTx self laBroadcast (paHi s.eng.selfPa) (paLo s.eng.selfPa)
  | .menuStatus dst => .menuStatusTx self dst (menuStatusByte s.eng.menuActive)
  | .reportPa =>
    .reportPhysicalAddressTx self laBroadcast (paHi s.eng.selfPa) (paLo s.eng.selfPa) s.cfg.deviceType
  | .deviceVendorId => .deviceVendorIdTx self laBroadcast (vid2 vendorId) (vid1 vendorId) (vid0 vendorId)
  | .setSystemAudioMode dst => .setSystemAudioModeTx self dst (audioModeByte s.eng.audioMode)
  | .systemAudioModeStatus dst => .systemAudioModeStatusTx self dst (audioModeByte s.eng.audioMode)
  | .reportAudioStatus dst => .reportAudioStatusTx self dst audioStatus
  | .reportPowerStatus dst => .reportPowerStatusTx self dst (powerStatusByte (selected s))
  | .cecVersion dst => .cecVersionTx self dst cecVersion
  | .setOsdName dst => .setOsdNameTx self dst osdName
  | .featureAbort dst op reason => .featureAbortTx self dst op reason

/-- An engine operation's answer as a step's: what it has to do next stands before what was left to do. -/
def ofEngine : Except Fault (List Act × State) → Result
  | .ok (acts, s) => .next (pushActs acts s)
  | .error f => .fault f

/-- A transmitted message's common meaning: `tx` of its frame, up to its wait (R147; log entry 14). -/
def transmit (i : Instr) (s : State) : Result := ofEngine (txCall (encode i) 1 s)

/-- FEATURE_ABORT_TX (R165). -/
def execFeatureAbortTx (init dest : La) (orig reason : Byte) (s : State) : Result :=
  transmit (.featureAbortTx init dest orig reason) s

/-- IMAGE_VIEW_ON_TX (R153). -/
def execImageViewOnTx (init dest : La) (s : State) : Result := transmit (.imageViewOnTx init dest) s

/-- SET_OSD_NAME_TX (R164). -/
def execSetOsdNameTx (init dest : La) (name : List Byte) (s : State) : Result :=
  transmit (.setOsdNameTx init dest name) s

/-- SET_SYSTEM_AUDIO_MODE_TX (R159). -/
def execSetSystemAudioModeTx (init dest : La) (mode : Byte) (s : State) : Result :=
  transmit (.setSystemAudioModeTx init dest mode) s

/-- REPORT_AUDIO_STATUS_TX (R161). -/
def execReportAudioStatusTx (init dest : La) (status : Byte) (s : State) : Result :=
  transmit (.reportAudioStatusTx init dest status) s

/-- SYSTEM_AUDIO_MODE_STATUS_TX (R160). -/
def execSystemAudioModeStatusTx (init dest : La) (status : Byte) (s : State) : Result :=
  transmit (.systemAudioModeStatusTx init dest status) s

/-- ACTIVE_SOURCE_TX (R154). -/
def execActiveSourceTx (init dest : La) (hi lo : Byte) (s : State) : Result :=
  transmit (.activeSourceTx init dest hi lo) s

/-- REPORT_PHYSICAL_ADDRESS_TX (R157): withheld, and `NO_PA` recorded, while the physical address is unknown. -/
def execReportPhysicalAddressTx (init dest : La) (hi lo dt : Byte) (s : State) : Result :=
  if s.eng.selfPa = 0#16 then .next (record .noPa s)
  else transmit (.reportPhysicalAddressTx init dest hi lo dt) s

/-- DEVICE_VENDOR_ID_TX (R158). -/
def execDeviceVendorIdTx (init dest : La) (v2 v1 v0 : Byte) (s : State) : Result :=
  transmit (.deviceVendorIdTx init dest v2 v1 v0) s

/-- MENU_STATUS_TX (R156). -/
def execMenuStatusTx (init dest : La) (state : Byte) (s : State) : Result :=
  transmit (.menuStatusTx init dest state) s

/-- REPORT_POWER_STATUS_TX (R162). -/
def execReportPowerStatusTx (init dest : La) (status : Byte) (s : State) : Result :=
  transmit (.reportPowerStatusTx init dest status) s

/-- CEC_VERSION_TX (R163). -/
def execCecVersionTx (init dest : La) (version : Byte) (s : State) : Result :=
  transmit (.cecVersionTx init dest version) s

/-- POLL_TX (R133, R137): `codec_send` of the polling frame, with no retry on arbitration loss; the verdict is the
probe's. -/
def execPollTx (c : La) (s : State) : Result := ofEngine (codecSend (encode (.pollTx c)) s)

end Sys2Proof.Machine
end

