-- ==== Sys2Proof/Machine/Engine.lean ====
section
/-! DEFINITION. The engine's actions: one step of a rule at a time, until the rule ends, blocks, has a message to send,
or comes to what a handler touches too (43_protocol_engine R147 to R152, 60_exceptions R202; log entries 9 to 11). -/

namespace Sys2Proof.Machine

/-- How an action ends: done, or stopped with actions to come first, or a model fault. -/
inductive ActOut where
  | done (s : State)
  | stop (s : State) (acts : List Act)
  | fault (f : Fault)

/-- `enqueue_key(b)`, pushed or waiting until `deadline` (R150): appended when there is room, dropped and recorded
when the time is up, blocked otherwise. -/
def keyPush (b : Byte) (deadline : Micros) (s : State) : ActOut :=
  if keyqRoom s then .done (pushKey b s)
  else if deadline ≤ s.now then .done (record (.keyqDrop b) s)
  else .stop s [.keyWait b deadline]

/-- `update_selection(before)` (R152). -/
def updateSelection (before : Bool) (s : State) : State :=
  if !before && selected s then indicate .active s
  else if before && !selected s then indicate .idle s
  else s

/-- `wait(ev_tx)` inside `send_frame`, and its return of `DRV.tx_result` (40 R105). -/
def sendWaitStep (s : State) : ActOut :=
  match waitFlag .task .tx s with
  | .error f => .fault f
  | .ok none => .stop s [.sendWait]
  | .ok (some s1) => .done (updEng (fun e => { e with ret := s1.drv.txResult }) s1)

/-- `wait(ev_rx)` inside `recv_frame`, whose loop then tests the mailbox again (40 R123). The step ends when the wait
returns: DESIGN CHOICE (log entry 25), the atomic copy-out of 60 R202 begins at the mailbox test. -/
def recvWaitStep (s : State) : ActOut :=
  match waitFlag .task .rx s with
  | .error f => .fault f
  | .ok none => .stop s [.recvWait]
  | .ok (some s1) => .done s1

/-- An operation's further actions: none, and the action is done; else it stops with them to come first. -/
def actOut : List Act × State → ActOut
  | ([], s) => .done s
  | (a :: as, s) => .stop s (a :: as)

/-- One action. -/
def runAct (a : Act) (s : State) : ActOut :=
  match a with
  | .instr i => .stop s [.instr i]
  | .send m => .stop s [.instr (buildMsg m s)]
  | .sendWait => sendWaitStep s
  | .txLoop bytes calls =>
    if txAgain bytes calls s then
      match txCall bytes (calls + 1) s with
      | .error f => .fault f
      | .ok p => actOut p
    else .done s
  | .enqueueKey b => keyPush b (s.now + keyqTimeout) s
  | .keyWait b deadline => keyPush b deadline s
  | .indicator i => .done (indicate i s)
  | .indicatorSelected => .done (indicate (if selected s then .active else .idle) s)
  | .setMenu b => .done (updEng (fun e => { e with menuActive := b }) s)
  | .resetLost => .done (updEng (fun e => { e with lostCount := 0 }) s)
  | .announceIf new =>
    if new = s.eng.selfPa then .stop s [.send .imageViewOn, .send .activeSource] else .done s
  | .updateSelection before => .done (updateSelection before s)
  | .derivePa => .done (obtainPa s)
  | .allocate => actOut (allocateBegin s)
  | .verdict c i => actOut (probeVerdict c i s)
  | .claim la => .done (publishLa la s)
  | .enterLoop => .done (enterRecv s)
  | .recvWait => recvWaitStep s
  | .received n => .stop s [.received n]
  | .enable => .done (setCtl .pa (drvEnabled s))

/-- The actions that touch what a handler touches too, the driver or the observation trace. Each begins a step of its
own, so that a handler may run between any two of them; the others touch only what no handler reads (60 R202; log
entry 10). -/
def Act.startsStep : Act → Bool
  | .instr _ | .sendWait | .txLoop _ _ | .keyWait _ _ | .allocate | .verdict _ _ | .claim _ | .enterLoop | .recvWait
  | .received _ | .enable => true
  | .send _ | .enqueueKey _ | .indicator _ | .indicatorSelected | .setMenu _ | .resetLost | .announceIf _
  | .updateSelection _ | .derivePa => false

/-- Run actions until they end, one stops, or one begins a step of its own; what is left then stands before what the
engine had left to do. -/
def runActs : List Act → State → Result
  | [], s => .next s
  | a :: as, s =>
    if a.startsStep then .next (pushActs (a :: as) s)
    else
      match runAct a s with
      | .fault f => .fault f
      | .stop s1 more => .next (pushActs (more ++ as) s1)
      | .done s1 => runActs as s1

/-- A step that begins with an action, whichever it is, and goes on with the next ones. -/
def runFrom (a : Act) (as : List Act) (s : State) : Result :=
  match runAct a s with
  | .fault f => .fault f
  | .stop s1 more => .next (pushActs (more ++ as) s1)
  | .done s1 => runActs as s1

/-- The gate of 43 R145: a row whose addressing mode does not act on the frame, or whose frame is too short, is ignored;
else its rule runs. -/
def gated (mode : GateMode) (minOperands : Nat) (init dest : La) (ops : List Byte) (s : State)
    (rule : State → Result) : Result :=
  if gateOpen mode init dest s = true ∧ minOperands ≤ ops.length then rule s else .next s

end Sys2Proof.Machine
end

