-- ==== Sys2Proof/Machine/InboundAudio.lean ====
section
/-! DEFINITION. Received messages: audio (43_protocol_engine R174 to R178). -/

namespace Sys2Proof.Machine

/-- SYSTEM_AUDIO_MODE_REQUEST (R174). -/
def execSystemAudioModeRequest (init dest : La) (ops : List Byte) (s : State) : Result :=
  gated .direct 0 init dest ops s fun s => runActs [.send (.setSystemAudioMode init)] s

/-- GIVE_AUDIO_STATUS (R175). -/
def execGiveAudioStatus (init dest : La) (ops : List Byte) (s : State) : Result :=
  gated .direct 0 init dest ops s fun s => runActs [.send (.reportAudioStatus init)] s

/-- SET_SYSTEM_AUDIO_MODE (R176): on for operand 1, off for every other value; no reply. -/
def execSetSystemAudioMode (init dest : La) (ops : List Byte) (s : State) : Result :=
  gated .directB 1 init dest ops s fun s =>
    match operandByte ops 0 with
    | none => .next s
    | some m => .next (updEng (fun e => { e with audioMode := decide (m = audioModeOn) }) s)

/-- GIVE_SYSTEM_AUDIO_MODE_STATUS (R177). -/
def execGiveSystemAudioModeStatus (init dest : La) (ops : List Byte) (s : State) : Result :=
  gated .direct 0 init dest ops s fun s => runActs [.send (.systemAudioModeStatus init)] s

/-- SYSTEM_AUDIO_MODE_STATUS (R178): ignored. -/
def execSystemAudioModeStatus (init dest : La) (ops : List Byte) (s : State) : Result :=
  gated .direct 0 init dest ops s fun s => .next s

end Sys2Proof.Machine
end

