-- ==== Sys2Proof/Machine/InboundControl.lean ====
section
/-! DEFINITION. Received messages: the poll, those that are ignored, Standby, Abort and the catch-all
(43_protocol_engine R166 to R170, R190, R191). -/

namespace Sys2Proof.Machine

/-- POLL (R166): nothing; the driver has acknowledged it already if it was addressed here. -/
def execPoll (_init _dest : La) (s : State) : Result := .next s

/-- FEATURE_ABORT (R167): ignored. -/
def execFeatureAbort (init dest : La) (ops : List Byte) (s : State) : Result :=
  gated .direct 0 init dest ops s fun s => .next s

/-- IMAGE_VIEW_ON (R168): ignored. -/
def execImageViewOn (init dest : La) (ops : List Byte) (s : State) : Result :=
  gated .direct 0 init dest ops s fun s => .next s

/-- TEXT_VIEW_ON (R169): ignored. -/
def execTextViewOn (init dest : La) (ops : List Byte) (s : State) : Result :=
  gated .direct 0 init dest ops s fun s => .next s

/-- STANDBY (R170). -/
def execStandby (init dest : La) (ops : List Byte) (s : State) : Result :=
  gated .directB 0 init dest ops s fun s =>
    runActs [.indicator .idle] (updEng (fun e => { e with activeSource := 0#16 }) s)

/-- ABORT (R190): Feature Abort with reason Refused. -/
def execAbort (init dest : La) (ops : List Byte) (s : State) : Result :=
  gated .direct 0 init dest ops s fun s =>
    runActs [.send (.featureAbort init opAbort reasonRefused)] (record (.refused opAbort) s)

/-- UNRECOGNIZED (R191): Feature Abort with reason Unrecognized opcode. -/
def execUnrecognized (init dest : La) (op : Byte) (ops : List Byte) (s : State) : Result :=
  gated .direct 0 init dest ops s fun s =>
    runActs [.send (.featureAbort init op reasonUnrecognized)] (record (.unrecognized op) s)

end Sys2Proof.Machine
end

