-- ==== Sys2Proof/Machine/InboundIdentity.lean ====
section
/-! DEFINITION. Received messages: the node's name, addresses, vendor, version, power and menu (43_protocol_engine R173,
R181, R182, R185 to R189). -/

namespace Sys2Proof.Machine

/-- GIVE_OSD_NAME (R173). -/
def execGiveOsdName (init dest : La) (ops : List Byte) (s : State) : Result :=
  gated .direct 0 init dest ops s fun s => runActs [.send (.setOsdName init)] s

/-- GIVE_PHYSICAL_ADDRESS (R181); the message itself is withheld while the address is unknown (R157). -/
def execGivePhysicalAddress (init dest : La) (ops : List Byte) (s : State) : Result :=
  gated .direct 0 init dest ops s fun s => runActs [.send .reportPa] s

/-- REPORT_PHYSICAL_ADDRESS from the TV (R182): both addresses are recomputed (42 R140), then the node reports its own,
and the indicator follows the selection. -/
def execReportPhysicalAddress (init dest : La) (ops : List Byte) (s : State) : Result :=
  gated .tvBcast 0 init dest ops s fun s =>
    runActs [.derivePa, .allocate, .send .reportPa, .updateSelection (selected s)] s

/-- DEVICE_VENDOR_ID from the TV (R185): mirrored. -/
def execDeviceVendorId (init dest : La) (ops : List Byte) (s : State) : Result :=
  gated .tvBcast 0 init dest ops s fun s => runActs [.send .deviceVendorId] s

/-- GIVE_DEVICE_VENDOR_ID (R186): answered by a broadcast. -/
def execGiveDeviceVendorId (init dest : La) (ops : List Byte) (s : State) : Result :=
  gated .direct 0 init dest ops s fun s => runActs [.send .deviceVendorId] s

/-- `menu_active` after a Menu Request of type `t`; Query and every other value change nothing (R187). -/
def menuAfter (t : Byte) (old : Bool) : Bool :=
  if t = menuActivate then true else if t = menuDeactivate then false else old

/-- MENU_REQUEST (R187). -/
def execMenuRequest (init dest : La) (ops : List Byte) (s : State) : Result :=
  gated .direct 1 init dest ops s fun s =>
    match operandByte ops 0 with
    | none => .next s
    | some t =>
      runActs [.send (.menuStatus init)] (updEng (fun e => { e with menuActive := menuAfter t e.menuActive }) s)

/-- GIVE_DEVICE_POWER_STATUS (R188). -/
def execGiveDevicePowerStatus (init dest : La) (ops : List Byte) (s : State) : Result :=
  gated .direct 0 init dest ops s fun s => runActs [.send (.reportPowerStatus init)] s

/-- GET_CEC_VERSION (R189). -/
def execGetCecVersion (init dest : La) (ops : List Byte) (s : State) : Result :=
  gated .direct 0 init dest ops s fun s => runActs [.send (.cecVersion init)] s

end Sys2Proof.Machine
end

