-- ==== Sys2Proof/Machine/InboundKeys.lean ====
section
/-! DEFINITION. Received messages: the remote-control keys (43_protocol_engine R171, R172). -/

namespace Sys2Proof.Machine

/-- `CFG.key_map[code]`, none for `UNMAPPED` (10_state R38, R39). -/
def keyMapAt (code : Byte) (s : State) : Option Byte := memGet s.cfg.keyMap code.toNat

/-- USER_CONTROL_PRESSED (R171): the mapped keycode is pushed and the indicator called; an unmapped code has no
effect. -/
def execUserControlPressed (init dest : La) (ops : List Byte) (s : State) : Result :=
  gated .direct 1 init dest ops s fun s =>
    match operandByte ops 0 with
    | none => .next s
    | some code =>
      match keyMapAt code s with
      | none => .next s
      | some k => runActs [.enqueueKey k, .indicator .keyPressed] s

/-- USER_CONTROL_RELEASED (R172): the "no key" byte is pushed and the indicator follows the selection. -/
def execUserControlReleased (init dest : La) (ops : List Byte) (s : State) : Result :=
  gated .direct 0 init dest ops s fun s => runActs [.enqueueKey noKey, .indicatorSelected] s

end Sys2Proof.Machine
end

