-- ==== Sys2Proof/Machine/InboundRouting.lean ====
section
/-! DEFINITION. Received messages: routing and the active source (43_protocol_engine R179, R180, R183, R184). -/

namespace Sys2Proof.Machine

/-- `announce_active()`: Image View On, then Active Source (R155). -/
def announceActive : List Act := [.send .imageViewOn, .send .activeSource]

/-- ROUTING_CHANGE (R179): the new address is adopted, both addresses are recomputed (42 R140), the node announces
itself if the new address is its own, and the indicator follows the selection. -/
def execRoutingChange (init dest : La) (ops : List Byte) (s : State) : Result :=
  gated .direct 4 init dest ops s fun s =>
    match operandPa ops 2 with
    | none => .next s
    | some new =>
      runActs [.derivePa, .allocate, .announceIf new, .updateSelection (selected s)]
        (updEng (fun e => { e with activeSource := new }) s)

/-- ACTIVE_SOURCE (R180). -/
def execActiveSource (init dest : La) (ops : List Byte) (s : State) : Result :=
  gated .direct 2 init dest ops s fun s =>
    match operandPa ops 0 with
    | none => .next s
    | some p =>
      runActs [.updateSelection (selected s)] (updEng (fun e => { e with activeSource := p, lostCount := 0 }) s)

/-- REQUEST_ACTIVE_SOURCE (R183): counted; answered when selected, or when more than two have gone unanswered. -/
def execRequestActiveSource (init dest : La) (ops : List Byte) (s : State) : Result :=
  gated .direct 0 init dest ops s fun s =>
    let s1 := updEng (fun e => { e with lostCount := e.lostCount + 1 }) s
    if s1.eng.selfPa = s1.eng.activeSource ∨ 2 < s1.eng.lostCount then
      runActs (announceActive ++ [.resetLost]) s1
    else .next s1

/-- SET_STREAM_PATH (R184): if the address is this node's own, it becomes active, announces itself, activates the menu,
reports it, and calls the indicator; else nothing changes. -/
def execSetStreamPath (init dest : La) (ops : List Byte) (s : State) : Result :=
  gated .direct 2 init dest ops s fun s =>
    match operandPa ops 0 with
    | none => .next s
    | some p =>
      if p = s.eng.selfPa then
        runActs (announceActive ++ [.setMenu true, .send (.menuStatus init), .indicator .active])
          (updEng (fun e => { e with activeSource := p }) s)
      else .next s

end Sys2Proof.Machine
end

