-- ==== Sys2Proof/Machine/Dispatch.lean ====
section
/-! DEFINITION. The dispatch of every instruction to its meaning: one arm per row of the opcode table (43_protocol_engine
R145 and section 3). -/

namespace Sys2Proof.Machine

open Sys2Proof

def exec (i : Instr) (s : State) : Host.Outcome State Fault Refusal :=
  match i with
  | .poll init dest => Sys2Proof.Machine.execPoll init dest s
  | .featureAbort init dest ops => Sys2Proof.Machine.execFeatureAbort init dest ops s
  | .imageViewOn init dest ops => Sys2Proof.Machine.execImageViewOn init dest ops s
  | .textViewOn init dest ops => Sys2Proof.Machine.execTextViewOn init dest ops s
  | .standby init dest ops => Sys2Proof.Machine.execStandby init dest ops s
  | .userControlPressed init dest ops => Sys2Proof.Machine.execUserControlPressed init dest ops s
  | .userControlReleased init dest ops => Sys2Proof.Machine.execUserControlReleased init dest ops s
  | .giveOsdName init dest ops => Sys2Proof.Machine.execGiveOsdName init dest ops s
  | .systemAudioModeRequest init dest ops => Sys2Proof.Machine.execSystemAudioModeRequest init dest ops s
  | .giveAudioStatus init dest ops => Sys2Proof.Machine.execGiveAudioStatus init dest ops s
  | .setSystemAudioMode init dest ops => Sys2Proof.Machine.execSetSystemAudioMode init dest ops s
  | .giveSystemAudioModeStatus init dest ops => Sys2Proof.Machine.execGiveSystemAudioModeStatus init dest ops s
  | .systemAudioModeStatus init dest ops => Sys2Proof.Machine.execSystemAudioModeStatus init dest ops s
  | .routingChange init dest ops => Sys2Proof.Machine.execRoutingChange init dest ops s
  | .activeSource init dest ops => Sys2Proof.Machine.execActiveSource init dest ops s
  | .givePhysicalAddress init dest ops => Sys2Proof.Machine.execGivePhysicalAddress init dest ops s
  | .reportPhysicalAddress init dest ops => Sys2Proof.Machine.execReportPhysicalAddress init dest ops s
  | .requestActiveSource init dest ops => Sys2Proof.Machine.execRequestActiveSource init dest ops s
  | .setStreamPath init dest ops => Sys2Proof.Machine.execSetStreamPath init dest ops s
  | .deviceVendorId init dest ops => Sys2Proof.Machine.execDeviceVendorId init dest ops s
  | .giveDeviceVendorId init dest ops => Sys2Proof.Machine.execGiveDeviceVendorId init dest ops s
  | .menuRequest init dest ops => Sys2Proof.Machine.execMenuRequest init dest ops s
  | .giveDevicePowerStatus init dest ops => Sys2Proof.Machine.execGiveDevicePowerStatus init dest ops s
  | .getCecVersion init dest ops => Sys2Proof.Machine.execGetCecVersion init dest ops s
  | .abort init dest ops => Sys2Proof.Machine.execAbort init dest ops s
  | .unrecognized init dest op ops => Sys2Proof.Machine.execUnrecognized init dest op ops s
  | .featureAbortTx init dest origOpcode reason => Sys2Proof.Machine.execFeatureAbortTx init dest origOpcode reason s
  | .imageViewOnTx init dest => Sys2Proof.Machine.execImageViewOnTx init dest s
  | .setOsdNameTx init dest name => Sys2Proof.Machine.execSetOsdNameTx init dest name s
  | .setSystemAudioModeTx init dest mode => Sys2Proof.Machine.execSetSystemAudioModeTx init dest mode s
  | .reportAudioStatusTx init dest status => Sys2Proof.Machine.execReportAudioStatusTx init dest status s
  | .systemAudioModeStatusTx init dest status => Sys2Proof.Machine.execSystemAudioModeStatusTx init dest status s
  | .activeSourceTx init dest paHi paLo => Sys2Proof.Machine.execActiveSourceTx init dest paHi paLo s
  | .reportPhysicalAddressTx init dest paHi paLo deviceType => Sys2Proof.Machine.execReportPhysicalAddressTx init dest paHi paLo deviceType s
  | .deviceVendorIdTx init dest vid2 vid1 vid0 => Sys2Proof.Machine.execDeviceVendorIdTx init dest vid2 vid1 vid0 s
  | .menuStatusTx init dest state => Sys2Proof.Machine.execMenuStatusTx init dest state s
  | .reportPowerStatusTx init dest status => Sys2Proof.Machine.execReportPowerStatusTx init dest status s
  | .cecVersionTx init dest version => Sys2Proof.Machine.execCecVersionTx init dest version s
  | .pollTx c => Sys2Proof.Machine.execPollTx c s

end Sys2Proof.Machine
end

