-- ==== Sys2Proof/Machine/Schedule.lean ====
section
/-! DEFINITION. The machine's agents and their order: the engine's control flow (43_protocol_engine R142 to R144), the
environment, the passage of time (60_exceptions R208), and which agent steps next (R199). -/

namespace Sys2Proof.Machine

/-! ## The engine -/

/-- The end of `E_SETTLE` (43 R143). -/
def settleDeadline (s : State) : Micros := s.eng.tLoaded + s.cfg.edidDelayMs.toNat * 1000

/-- Whether an action can go on: the two waits and the key-queue push block, the others do not (60 R207). -/
def actReady (a : Act) (s : State) : Bool :=
  match a with
  | .sendWait => s.drv.evTx
  | .recvWait => s.drv.evRx
  | .keyWait _ deadline => keyqRoom s || decide (deadline ≤ s.now)
  | .instr _ | .send _ | .txLoop _ _ | .enqueueKey _ | .indicator _ | .indicatorSelected | .setMenu _ | .resetLost
  | .announceIf _ | .updateSelection _ | .derivePa | .allocate | .verdict _ _ | .claim _ | .enterLoop | .received _
  | .enable => true

/-- Whether the engine can take a step: it is not stopped in `E_FAULT` and not blocked at a suspension point
(60 R207). -/
def engineReady (s : State) : Bool :=
  match s.eng.todo with
  | a :: _ => actReady a s
  | [] =>
    match s.eng.ctl with
    | .load => true
    | .fault => false
    | .settle => decide (settleDeadline s ≤ s.now)
    | .init => true
    | .pa => true
    | .la => true
    | .recv => true
    | .dispatch => true

/-- `E_LOAD` (43 R142). -/
def engLoad (s : State) : State :=
  match drawCfg s with
  | (none, s1) => setCtl .fault (indicate .fault (record .configFail s1))
  | (some r, s1) =>
    if maxDeviceType < r.deviceType.toNat then setCtl .fault (indicate .fault (record .configFail s1))
    else
      { s1 with cfg := { deviceType := r.deviceType, la := r.la, pa := r.pa, edidDelayMs := r.edidDelayMs,
                         keyMap := memCanon keyMapSize r.keyMap },
                eng.ctl := .settle, eng.tLoaded := s1.now }

/-- `E_LA` (43 R143): `allocate()`; when it has ended, the engine enters the loop. -/
def engAllocate (s : State) : State :=
  match allocateBegin s with
  | (acts, s1) => setTodo (acts ++ [.enterLoop]) s1

/-- `E_DISPATCH`'s beginning (43 R144, R145): the frame record is read from `ENG.fbuf`, and the instruction it decodes
to is executed. A frame the codec accepts decodes (30 R82), so the last case acts on no frame. -/
def engDispatch (s : State) : Result :=
  match frameRecord s with
  | .error f => .fault f
  | .ok f =>
    match decode f.direction f.bytes with
    | .ok i => exec i s
    | .error _ => .next s

/-- `recv_frame` inside `E_RECV` (43 R144, 40 R123): with no frame in the mailbox the engine waits for one; else it
copies the frame out, and the step ends, so that a handler may run before the frame is looked at (60 R202). DESIGN
CHOICE (log entry 25): the atomic copy-out begins here, at the mailbox test. -/
def engReceive (s : State) : Result :=
  if s.drv.mbFull then
    match copyOut s with
    | .error f => .fault f
    | .ok (bytes, s1) => .next (setTodo [.received bytes.length] s1)
  else .next (setTodo [.recvWait] s)

/-- `recv_frame` has returned `n` bytes in `ENG.fbuf` (41 R130, 43 R144): a frame that is not sane is dropped, a sane
one dispatched. -/
def engReceived (n : Nat) (s : State) : Result :=
  match bufTake s.eng.fbuf n n with
  | .error f => .fault f
  | .ok bytes => if sane bytes then engDispatch (acceptFrame n s) else .next (rejectFrame bytes s)

/-- One engine step. -/
def engineStep (s : State) : Result :=
  match s.eng.todo with
  | .instr i :: rest => exec i (setTodo rest s)
  | .received n :: rest => engReceived n (setTodo rest s)
  | a :: rest => runFrom a rest (setTodo [] s)
  | [] =>
    match s.eng.ctl with
    | .load => .next (engLoad s)
    | .fault => .next s
    | .settle => .next (setCtl .init s)
    | .init => .next (setTodo [.enable] (drvPrepare s))
    | .pa => .next (setCtl .la (obtainPa s))
    | .la => .next (engAllocate s)
    | .recv => engReceive s
    | .dispatch => .next (enterRecv s)

/-! ## The environment -/

/-- One environment event (10_state R41, R43); a removal from an empty queue does nothing (log entry 22). -/
def envEvent (e : EnvEvent) (s : State) : State :=
  match e with
  | .line low => setExtLow low s
  | .pop => { s with keyq := s.keyq.tail }

/-- The environment's step: its next input, or, with none queued, the draw of the coming ones (log entry 2). A request
for a non-goal or a write of an owned field is refused by name (00_scope R8, 20_memory R57). -/
def envStep (s : State) : Result :=
  match s.env.script with
  | [] => .next (refillScript s)
  | (_, .event e) :: rest => .next (envEvent e (updEnv (fun v => { v with script := rest }) s))
  | (_, .request g) :: _ => .refused (.nonGoal g)
  | (_, .foreignWrite o) :: _ => .refused (.notOwner o)

/-! ## Time (60_exceptions R203, R208) -/

/-- The earlier of two optional times. -/
def earlier (a b : Option Micros) : Option Micros :=
  match a, b with
  | none, b => b
  | some a, none => some a
  | some a, some b => some (min a b)

/-- An optional time, if it lies in the future. -/
def future (now : Micros) (t : Option Micros) : Option Micros :=
  match t with
  | none => none
  | some t => if now < t then some t else none

/-- The time the engine is blocked until, if it is blocked on one (60 R209). -/
def engineDeadline (s : State) : Option Micros :=
  match s.eng.todo with
  | .keyWait _ deadline :: _ => some deadline
  | _ :: _ => none
  | [] => if s.eng.ctl = .settle then some (settleDeadline s) else none

/-- The time of the next queued input. -/
def scriptTime (s : State) : Option Micros :=
  match s.env.script with
  | [] => none
  | e :: _ => some e.1

/-- When an alarm channel became pending, if it is: at its deadline, or, if that was already past, when it was armed
(R198). -/
def alarmPendingSince (deadline : Option Micros) (armed now : Micros) : List Micros :=
  match deadline with
  | none => []
  | some d => if d ≤ now then [max d armed] else []

/-- The times at which pending interrupts became pending: the oldest edge, and each channel whose deadline is past. -/
def pendingTimes (s : State) : List Micros :=
  (match s.edges with | [] => [] | e :: _ => [e.1]) ++
  alarmPendingSince s.drv.alarmTx s.armedTx s.now ++
  alarmPendingSince s.drv.alarmAck s.armedAck s.now

/-- The latest time a pending handler may still be run at (R203). -/
def latencyLimit (s : State) : Option Micros :=
  (pendingTimes s).foldr (fun t acc => earlier (some (t + s.par.isrLatencyMaxUs)) acc) none

/-- Time may pass before the pending handlers run: every one of them has latency left (R203; log entry 15). -/
def mayDelay (s : State) : Bool := (pendingTimes s).all fun t => decide (s.now < t + s.par.isrLatencyMaxUs)

/-- How far time may pass at most: to the earliest deadline or input ahead, and no further than a pending handler's
latency allows (R208). -/
def nextTime (s : State) : Option Micros :=
  earlier (earlier (future s.now s.drv.alarmTx) (future s.now s.drv.alarmAck))
    (earlier (future s.now (engineDeadline s))
      (earlier (future s.now (scriptTime s)) (future s.now (latencyLimit s))))

/-- Time passes: to the earliest time ahead, or, while handlers are pending, by a chosen part of it, so that a handler
may run at any instant of its latency (R203; log entry 15). -/
def advance (s : State) : State :=
  match nextTime s with
  | none => s
  | some t =>
    match pendingTimes s with
    | [] => { s with now := t }
    | _ :: _ =>
      let r := drawOrder s
      { r.2 with now := s.now + 1 + r.1 % (t - s.now) }

/-! ## Which agent steps next (60_exceptions R199, R200) -/

/-- The agents of 00_scope R11, and the passage of time. -/
inductive Agent where
  | engine
  | edge
  | alarmTx
  | alarmAck
  | env
  | time
  deriving DecidableEq, Repr

/-- An alarm channel is pending. -/
def alarmDue (d : Option Micros) (now : Micros) : Bool :=
  match d with
  | none => false
  | some d => decide (d ≤ now)

/-- An input is due. -/
def envReady (s : State) : Bool := alarmDue (scriptTime s) s.now

/-- The handlers that are pending (R196). -/
def pendingHandlers (s : State) : List Agent :=
  (if s.edges = [] then [] else [.edge]) ++
  (if alarmDue s.drv.alarmTx s.now then [.alarmTx] else []) ++
  (if alarmDue s.drv.alarmAck s.now then [.alarmAck] else [])

/-- Time can pass: the engine has no step to take, no input is due, and every pending handler has latency left
(R203, R208). -/
def timeReady (s : State) : Bool := !engineReady s && !envReady s && mayDelay s

/-- The agents that can step. The environment's draw of its coming inputs is a step that can come at any point where
none is queued, so an input may come at any instant (log entry 2). -/
def ready (s : State) : List Agent :=
  (if engineReady s then [.engine] else []) ++
  (if envReady s || s.env.script.isEmpty then [.env] else []) ++
  pendingHandlers s ++
  (if timeReady s then [.time] else [])

/-- The agent that steps: the only ready one, or a draw among them (R199). -/
def pick (s : State) : Agent × State :=
  match ready s with
  | [] => (.time, s)
  | [a] => (a, s)
  | a :: b :: rest =>
    let r := drawOrder s
    ((a :: b :: rest).getD (r.1 % (a :: b :: rest).length) a, r.2)

/-- One step of an agent. -/
def runAgent (a : Agent) (s : State) : Result :=
  match a with
  | .engine => engineStep s
  | .edge => ofExcept (takeInterrupt .edge s)
  | .alarmTx => ofExcept (takeInterrupt (.alarm .tx) s)
  | .alarmAck => ofExcept (takeInterrupt (.alarm .ack) s)
  | .env => envStep s
  | .time => .next (advance s)

/-! ## Placing an instruction -/

/-- Make the engine the agent that steps next: where others are ready too, the first choice in the queue is the
engine's. -/
def chooseEngine (s : State) : State :=
  match ready s with
  | _ :: _ :: _ => updEnv (fun v => { v with order := 0 :: s.env.order }) s
  | _ => s

/-- A received frame where the engine fetches it: in `ENG.fbuf`, `recv_frame` having just returned it, with the driver
enabled and idle. A frame sent direct reaches only the node that holds its address, so the node holds it (40 R100; log
entry 13). -/
def placeReceived (bytes : List Byte) (s : State) : State :=
  let dest := headerDest (bytes.headD 0#8)
  let s1 := if isBroadcast dest then s else publishLa dest s
  chooseEngine
    (updEng (fun e => { e with ctl := .recv, fbuf := memStore e.fbuf 0 bytes, todo := [.received bytes.length] })
      (updDrv (fun d => { d with enabled := true, txPhase := .idle }) s1))

/-- A transmitted message as the next thing the engine does, the driver enabled and idle (log entry 13). -/
def placeTransmitted (i : Instr) (s : State) : State :=
  chooseEngine
    (updEng (fun e => { e with ctl := .dispatch, todo := [.instr i] })
      (updDrv (fun d => { d with enabled := true, txPhase := .idle }) s))

/-- The table word `w` of `nbits` bits placed where the machine takes its next instruction from. -/
def placeTableWord (s : State) (nbits w : Nat) : State :=
  match tableDirection (tableByte nbits w 0) with
  | .rx => placeReceived (tableFrame nbits w) s
  | .tx =>
    match decodeTx (tableFrame nbits w) with
    | .ok i => placeTransmitted i s
    | .error _ => s

/-! ## The end of the time base (10_state R23, 60_exceptions R208) -/

/-- The times an engine action holds. -/
def actTimes (a : Act) : List Micros :=
  match a with
  | .keyWait _ deadline => [deadline]
  | .instr _ | .send _ | .sendWait | .txLoop _ _ | .enqueueKey _ | .indicator _ | .indicatorSelected | .setMenu _
  | .resetLost | .announceIf _ | .updateSelection _ | .derivePa | .allocate | .verdict _ _ | .claim _ | .enterLoop
  | .recvWait | .received _ | .enable => []

/-- Every timestamp and deadline the state holds, but for the trace's, which are past values of these. -/
def timestamps (s : State) : List Micros :=
  [s.now, s.armedTx, s.armedAck, s.drv.tLastEdge, s.drv.rxTFall, s.drv.txCellStart, s.drv.txWaitStart,
   s.eng.tLoaded] ++
  s.drv.alarmTx.toList ++ s.drv.alarmAck.toList ++ s.edges.map Prod.fst ++ s.eng.todo.flatMap actTimes

/-- Every timestamp fits its 64 bits. -/
def timesFit (s : State) : Bool := (timestamps s).all fun t => decide (t < timeLimit)

/-- A next state whose timestamps fit; else the run has reached the end of its time base (log entry 4). -/
def withinRun (r : Result) : Result :=
  match r with
  | .next s => if timesFit s then .next s else .refused .timeBaseEnd
  | .fault f => .fault f
  | .refused f => .refused f

/-- One step of the machine: the agent whose turn it is. -/
def stepOnce (s : State) : Result :=
  let p := pick s
  withinRun (runAgent p.1 p.2)

end Sys2Proof.Machine
end

