-- ==== Sys2Proof/Machine/Step.lean ====
section
/-! DEFINITION. The machine's one step, and the placing of an instruction where the step takes its next one from. -/

namespace Sys2Proof.Machine

/-- One step: the agent whose turn it is (00_scope R11, 60_exceptions R199) takes it, within the run's time base
(60_exceptions R208). -/
def step (s : State) : Host.Outcome State Fault Refusal := stepOnce s

/-- `s` with the instruction of the opcode table's word `w` placed where the very next step executes it (log
entry 13). -/
def State.withFetchWord (s : State) (nbits w : Nat) : State := placeTableWord s nbits w

end Sys2Proof.Machine
end

