-- ==== Sys2Proof/Safety.lean ====
section
/-! DEFINITION. What counts as a safe state: the canonical memories, the bounds of the driver's and the engine's
registers, and the relations between the agents that the spec's rules keep. -/

namespace Sys2Proof.Machine

/-- Every byte below `n` is listed. -/
def memFilled (m : Memory) (n : Nat) : Prop := ∀ i < n, ∃ b, memGet m i = some b

/-- The five memories are in canonical form: four frame buffers of 16 bytes and the key map of 256 entries
(20_memory R46). -/
structure MemInv (s : State) : Prop where
  rxBuf : Memory.wf maxFrame s.drv.rxBuf = true
  mbBuf : Memory.wf maxFrame s.drv.mbBuf = true
  txBuf : Memory.wf maxFrame s.drv.txBuf = true
  fbuf : Memory.wf maxFrame s.eng.fbuf = true
  keyMap : Memory.wf keyMapSize s.cfg.keyMap = true

/-- The receive path's registers stay in their ranges (10_state R28, R29), and the bytes the rules read are there. -/
structure RxInv (d : Drv) : Prop where
  bit : d.rxBit ≤ 9
  len : d.rxLen ≤ maxFrame
  filled : memFilled d.rxBuf d.rxLen
  lowData : d.rxState = .bitLow → d.rxBit ≤ 7 → d.rxLen < maxFrame
  lowTail : d.rxState = .bitLow → 8 ≤ d.rxBit → 1 ≤ d.rxLen
  highData : d.rxState = .bitHigh → d.rxBit ≤ 6 → d.rxLen < maxFrame
  highTail : d.rxState = .bitHigh → 7 ≤ d.rxBit → 1 ≤ d.rxLen
  mailbox : d.mbFull = true → 1 ≤ d.mbLen ∧ d.mbLen ≤ maxFrame ∧ memFilled d.mbBuf d.mbLen
  /-- A driven ACK has its release armed (40 R98, R99). -/
  acking : d.rxAcking = true → d.enabled = true ∧ ∃ t, d.alarmAck = some t

/-- The transmit path's registers stay in their ranges while a send is in progress (10_state R31), and a send in
progress has its next alarm armed (40 R108 to R118). -/
structure TxInv (d : Drv) : Prop where
  busy : d.txPhase ≠ .idle →
    d.enabled = true ∧ 1 ≤ d.txLen ∧ d.txLen ≤ maxFrame ∧ memFilled d.txBuf d.txLen ∧
    1 ≤ d.txAttempt ∧ d.txAttempt ≤ maxAttempts ∧ ∃ t, d.alarmTx = some t
  cell : onLine d.txPhase = true → d.txByte < d.txLen ∧ d.txBit ≤ 9

/-- The engine is inside `wait(ev_tx)`. -/
def waitsForSend (s : State) : Prop := ∃ rest, s.eng.todo = .sendWait :: rest

/-- An action that can stand behind another one: neither a wait for a send, nor the frame just received, nor the end of
the driver's enable. -/
def Act.inRule : Act → Bool
  | .sendWait | .received _ | .enable => false
  | .instr _ | .send _ | .txLoop _ _ | .enqueueKey _ | .keyWait _ _ | .indicator _ | .indicatorSelected | .setMenu _
  | .resetLost | .announceIf _ | .updateSelection _ | .derivePa | .allocate | .verdict _ _ | .claim _ | .enterLoop
  | .recvWait => true

/-- The engine's registers and its relation to the driver: it blocks in `send_frame` while a send is in progress (40
R105), a frame it has just received stands in `ENG.fbuf` (40 R123), the address it publishes is the driver's (42 R139),
the lost count stays within 2 but inside R183 (10_state R35), and the key queue within its capacity (R41). -/
structure EngInv (s : State) : Prop where
  sending : s.drv.txPhase ≠ .idle → waitsForSend s
  woken : s.drv.evTx = true → s.drv.txPhase = .idle ∧ waitsForSend s
  inRule : ∀ a ∈ s.eng.todo.tail, a.inRule = true
  fetched : ∀ n rest, s.eng.todo = .received n :: rest → rest = [] ∧ 1 ≤ n ∧ memFilled s.eng.fbuf n
  sendsOnly : ∀ i, Act.instr i ∈ s.eng.todo → i.direction = .tx
  running : s.eng.todo ≠ [] → (∀ rest, s.eng.todo ≠ .enable :: rest) → s.drv.enabled = true
  started : (s.eng.ctl = .pa ∨ s.eng.ctl = .la ∨ s.eng.ctl = .recv ∨ s.eng.ctl = .dispatch) → s.drv.enabled = true
  published : s.drv.selfLa = s.eng.selfLa
  lost : s.eng.lostCount ≤ 2 ∨ (s.eng.lostCount = 3 ∧ Act.resetLost ∈ s.eng.todo)
  keyq : s.keyq.length ≤ s.par.keyqDepth

/-- The invariant of the machine's registers and memories. -/
structure RegInv (s : State) : Prop where
  mem : MemInv s
  rx : RxInv s.drv
  tx : TxInv s.drv
  eng : EngInv s

/-- The invariant of the machine: that of its registers, and every timestamp fits its 64 bits (10_state R23, 20_memory
R53). -/
structure Inv (s : State) : Prop extends RegInv s where
  times : timesFit s = true

/-- A row's gate and operand count (43 R145), with the header and operands it is tested on; none for the poll and for
the transmitted rows, which have no gate. -/
def rxGate : Instr → Option (GateMode × Nat × La × La × List Byte)
  | .featureAbort i d ops => some (.direct, 0, i, d, ops)
  | .imageViewOn i d ops => some (.direct, 0, i, d, ops)
  | .textViewOn i d ops => some (.direct, 0, i, d, ops)
  | .standby i d ops => some (.directB, 0, i, d, ops)
  | .userControlPressed i d ops => some (.direct, 1, i, d, ops)
  | .userControlReleased i d ops => some (.direct, 0, i, d, ops)
  | .giveOsdName i d ops => some (.direct, 0, i, d, ops)
  | .systemAudioModeRequest i d ops => some (.direct, 0, i, d, ops)
  | .giveAudioStatus i d ops => some (.direct, 0, i, d, ops)
  | .setSystemAudioMode i d ops => some (.directB, 1, i, d, ops)
  | .giveSystemAudioModeStatus i d ops => some (.direct, 0, i, d, ops)
  | .systemAudioModeStatus i d ops => some (.direct, 0, i, d, ops)
  | .routingChange i d ops => some (.direct, 4, i, d, ops)
  | .activeSource i d ops => some (.direct, 2, i, d, ops)
  | .givePhysicalAddress i d ops => some (.direct, 0, i, d, ops)
  | .reportPhysicalAddress i d ops => some (.tvBcast, 0, i, d, ops)
  | .requestActiveSource i d ops => some (.direct, 0, i, d, ops)
  | .setStreamPath i d ops => some (.direct, 2, i, d, ops)
  | .deviceVendorId i d ops => some (.tvBcast, 0, i, d, ops)
  | .giveDeviceVendorId i d ops => some (.direct, 0, i, d, ops)
  | .menuRequest i d ops => some (.direct, 1, i, d, ops)
  | .giveDevicePowerStatus i d ops => some (.direct, 0, i, d, ops)
  | .getCecVersion i d ops => some (.direct, 0, i, d, ops)
  | .abort i d ops => some (.direct, 0, i, d, ops)
  | .unrecognized i d _ ops => some (.direct, 0, i, d, ops)
  | .poll _ _ => none
  | .featureAbortTx .. | .imageViewOnTx .. | .setOsdNameTx .. | .setSystemAudioModeTx .. | .reportAudioStatusTx ..
  | .systemAudioModeStatusTx .. | .activeSourceTx .. | .reportPhysicalAddressTx .. | .deviceVendorIdTx ..
  | .menuStatusTx .. | .reportPowerStatusTx .. | .cecVersionTx .. | .pollTx .. => none

/-! ## Addressing, literally as the spec has it -/

/-- `direct_to_self(f)` (41_frame_codec R132). -/
def toSelf (dest : La) (s : State) : Prop := dest = s.eng.selfLa ∧ s.eng.selfLa ≠ 15#4

/-- `act` of 43 R145, by mode. -/
def Acts (mode : GateMode) (init dest : La) (s : State) : Prop :=
  match mode with
  | .direct => toSelf dest s
  | .directB => toSelf dest s ∨ dest = 15#4
  | .tvBcast => dest = 15#4 ∧ init = 0#4

/-! ## What each instruction may write -/

/-- The rows that recompute the node's addresses (42 R141). -/
def recomputes : Instr → Bool
  | .routingChange .. | .reportPhysicalAddress .. => true
  | _ => false

/-- The rows whose rule lists `active_source` among its writes (43 R170, R179, R180, R184). -/
def writesActiveSource : Instr → Bool
  | .standby .. | .routingChange .. | .activeSource .. | .setStreamPath .. => true
  | _ => false

/-- The row whose rule lists `audio_mode` (43 R176). -/
def writesAudioMode : Instr → Bool
  | .setSystemAudioMode .. => true
  | _ => false

/-- The row that writes `menu_active` at once (43 R187); Set Stream Path writes it after its two messages (R184). -/
def writesMenu : Instr → Bool
  | .menuRequest .. => true
  | _ => false

/-- The rows that write `lost_count` (43 R180, R183). -/
def writesLostCount : Instr → Bool
  | .activeSource .. | .requestActiveSource .. => true
  | _ => false

/-- The rows that append to the key queue (43 R171, R172). -/
def writesKeyq : Instr → Bool
  | .userControlPressed .. | .userControlReleased .. => true
  | _ => false

/-- The rows that may call the indicator before any message is sent (43 R170 to R172, R179, R180). -/
def writesInd : Instr → Bool
  | .standby .. | .userControlPressed .. | .userControlReleased .. | .routingChange .. | .activeSource .. => true
  | _ => false

/-- The rows that record an error of their own (43 R190, R191). -/
def writesErr : Instr → Bool
  | .abort .. | .unrecognized .. => true
  | _ => false

/-- Every byte of the five memories reads as before. -/
structure BytesSame (s t : State) : Prop where
  rxBuf : ∀ a, memGet t.drv.rxBuf a = memGet s.drv.rxBuf a
  mbBuf : ∀ a, memGet t.drv.mbBuf a = memGet s.drv.mbBuf a
  txBuf : ∀ a, memGet t.drv.txBuf a = memGet s.drv.txBuf a
  fbuf : ∀ a, memGet t.eng.fbuf a = memGet s.eng.fbuf a
  keyMap : ∀ a, memGet t.cfg.keyMap a = memGet s.cfg.keyMap a

/-- The frame of a received row: what `exec` leaves alone, but for what the row's rule lists among its writes. What the
engine has left to do (`todo`) is the row's position and may change. -/
structure RxRowFrame (i : Instr) (s t : State) : Prop where
  now : t.now = s.now
  edges : t.edges = s.edges
  armed : t.armedTx = s.armedTx ∧ t.armedAck = s.armedAck
  cfg : t.cfg = s.cfg
  par : t.par = s.par
  /-- Of the driver only the published address may change. -/
  drv : t.drv = { s.drv with selfLa := t.drv.selfLa }
  bytes : BytesSame s t
  ctl : t.eng.ctl = s.eng.ctl
  flen : t.eng.flen = s.eng.flen
  fackbits : t.eng.fackbits = s.eng.fackbits
  tLoaded : t.eng.tLoaded = s.eng.tLoaded
  ret : t.eng.ret = s.eng.ret
  /-- Of the environment only the EDID answers may be drawn from. -/
  env : t.env = { s.env with edid := t.env.edid, draws := t.env.draws }
  addresses : recomputes i = false →
    t.eng.selfLa = s.eng.selfLa ∧ t.eng.selfPa = s.eng.selfPa ∧ t.drv.selfLa = s.drv.selfLa ∧ t.env = s.env
  activeSource : writesActiveSource i = false → t.eng.activeSource = s.eng.activeSource
  audioMode : writesAudioMode i = false → t.eng.audioMode = s.eng.audioMode
  menuActive : writesMenu i = false → t.eng.menuActive = s.eng.menuActive
  lostCount : writesLostCount i = false → t.eng.lostCount = s.eng.lostCount
  keyq : writesKeyq i = false → t.keyq = s.keyq
  ind : writesInd i = false → t.ind = s.ind
  err : writesErr i = false → t.err = s.err

/-- Report Physical Address is withheld: the physical address is unknown (43 R157). -/
def withheld (i : Instr) (s : State) : Prop :=
  match i with
  | .reportPhysicalAddressTx .. => s.eng.selfPa = 0#16
  | _ => False

/-- The frame of a transmitted row: `exec` writes the transmit request (40 R105, R108), the observation trace (R129,
R157), and the engine's position, and nothing else. -/
structure TxRowFrame (i : Instr) (s t : State) : Prop where
  now : t.now = s.now
  edges : t.edges = s.edges
  armedAck : t.armedAck = s.armedAck
  /-- The wait's alarm may be armed. -/
  armedTx : t.armedTx = s.armedTx ∨ t.armedTx = s.now
  cfg : t.cfg = s.cfg
  par : t.par = s.par
  env : t.env = s.env
  keyq : t.keyq = s.keyq
  ind : t.ind = s.ind
  err : sane (encode i) = true → ¬withheld i s → t.err = s.err
  eng : t.eng = { s.eng with todo := t.eng.todo, ret := t.eng.ret }
  /-- Of the driver only the registers of the request and its wait may change (10_state R31). -/
  drv : t.drv = { s.drv with
    txBuf := t.drv.txBuf, txLen := t.drv.txLen, txResult := t.drv.txResult, txUsedBus := t.drv.txUsedBus,
    txAttempt := t.drv.txAttempt, txFreeReq := t.drv.txFreeReq, txWaitStart := t.drv.txWaitStart,
    txPhase := t.drv.txPhase, alarmTx := t.drv.alarmTx }
  /-- A refused or withheld frame leaves the whole driver alone (41 R129, 43 R157). -/
  refused : sane (encode i) = false ∨ withheld i s → t.drv = s.drv ∧ t.armedTx = s.armedTx
  rxBuf : ∀ a, memGet t.drv.rxBuf a = memGet s.drv.rxBuf a
  mbBuf : ∀ a, memGet t.drv.mbBuf a = memGet s.drv.mbBuf a
  fbuf : ∀ a, memGet t.eng.fbuf a = memGet s.eng.fbuf a
  keyMap : ∀ a, memGet t.cfg.keyMap a = memGet s.cfg.keyMap a
  /-- The bytes stored are the frame, from index 0 on. -/
  stored : sane (encode i) = true → ¬withheld i s → ∀ a,
    memGet t.drv.txBuf a = if a < (encode i).length then (encode i)[a]? else memGet s.drv.txBuf a

/-! ## The line's protocol, literally as the spec has it -/

/-- An edge that 40_bit_timing_driver calls malformed: a low time or a period outside its window (R93 to R95, R98), or
a polarity the receive state does not expect (R104). -/
def malformedEdge (t : Micros) (lvl : Level) (d : Drv) : Prop :=
  let time := t - d.rxTFall
  match d.rxState, lvl with
  | .idle, _ => False
  | .startLow, .high => ¬(3300 ≤ time ∧ time ≤ 4100)
  | .startHigh, .low => ¬(4100 ≤ time ∧ time ≤ 4900)
  | .bitLow, .high => classifyLow time = .bad
  | .bitHigh, .low => ¬(2000 ≤ time ∧ time ≤ 2800)
  | .startLow, .low | .startHigh, .high | .bitLow, .low | .bitHigh, .high => True

/-- `bit_value(k, j)` (40 R114) of a frame of `len` bytes, whose byte `k` is `byte`. -/
def bitValue (byte : Byte) (len k j : Nat) : Bool :=
  if j ≤ 7 then byte.getLsbD (7 - j) else if j = 8 then decide (k = len - 1) else true

/-- The driver after `begin_cell(now)` at byte `k` and bit `j` (40 R114). -/
def cellBegun (byte : Byte) (k j : Nat) (now : Micros) (d : Drv) : Drv :=
  let v := bitValue byte d.txLen k j
  { d with
    txByte := k, txBit := j, txCellStart := now, txValue := v, drive := .low, txPhase := .bitLow,
    alarmTx := some (now + if v then 600 else 1500) }

/-! ## Contexts (60_exceptions R205) -/

/-- The engine task's own fields replaced: what a handler neither reads nor writes. -/
def withTask (e : Eng) (c : Cfg) (k : List Byte) (n : List Indicator) (s : State) : State :=
  { s with eng := e, cfg := c, keyq := k, ind := n }

/-- The engine is where its addresses may change (42 R141): in the startup steps that obtain them, at the receipt of a
Routing Change or Report Physical Address frame, or in the middle of a recompute. -/
def readdressing (s : State) : Prop :=
  (s.eng.todo = [] ∧ (s.eng.ctl = .pa ∨ s.eng.ctl = .la)) ∨
  (∃ n, s.eng.todo = [.received n] ∧ 2 ≤ n ∧
    (memGet s.eng.fbuf 1 = some 0x80#8 ∨ memGet s.eng.fbuf 1 = some 0x84#8)) ∨
  (Act.derivePa ∈ s.eng.todo ∨ Act.allocate ∈ s.eng.todo ∨ (∃ c i, Act.verdict c i ∈ s.eng.todo) ∨
    ∃ la, Act.claim la ∈ s.eng.todo)

end Sys2Proof.Machine
end

