-- ==== Sys2Proof/Certificates/Slice0/Obligations.lean ====
section
/-! DEFINITION. The statements for the provers, from the spec's numbered rules. -/

open Sys2Proof Sys2Proof.Machine

/-! ## Encoding -/

/-- R126, R127: the header byte's value, and both nibbles recovered from it; R133: the polling frame is the one byte
with the candidate in both, it passes the sanity limits, and it is read back as the poll of that candidate. The
direction as an argument of the decoder is DEDUCED (log entry 12). -/
def Obligations.HeaderAndPollFrame : Prop :=
  (∀ i d : La, (header i d).toNat = i.toNat * 16 + d.toNat ∧ headerInit (header i d) = i ∧
    headerDest (header i d) = d) ∧
  (∀ b : Byte, (headerInit b).toNat = b.toNat / 16 ∧ (headerDest b).toNat = b.toNat % 16) ∧
  (∀ c : La, encode (.pollTx c) = [header c c] ∧ sane [header c c] = true ∧
    decode .tx [header c c] = .ok (.pollTx c))

/-- Decoding the encoding of any well-formed instruction gives the instruction back. The direction as an argument of
the decoder is DEDUCED (log entry 12); four transmitted opcodes are general knowledge (log entry 17); the limits are
the spec's decision D20. -/
def Obligations.DecodeEncode : Prop :=
  ∀ i : Instr, i.wellFormed = true → decode i.direction (encode i) = .ok i

/-- Whatever a frame decodes to encodes to that frame, in the same direction; no two frames are read alike. The
direction as an argument of the decoder is DEDUCED (log entry 12). -/
def Obligations.EncodeDecode : Prop :=
  ∀ (dir : Direction) (bytes : List Byte) (i : Instr), decode dir bytes = .ok i →
    i.direction = dir ∧ encode i = bytes ∧ (dir = .rx → i.wellFormed = true)

/-- R128: what a sane frame is, and that a received frame is an instruction exactly when it is sane. That received
frames are checked too is the spec's decision D20. -/
def Obligations.SaneFramesDecode : Prop :=
  ∀ bytes : List Byte,
    (sane bytes = true ↔ ∃ b rest, bytes = b :: rest ∧ bytes.length ≤ 16 ∧
      (headerInit b ≠ headerDest b ∨ rest = [])) ∧
    (sane bytes = true ↔ ∃ i, decode .rx bytes = .ok i)

/-- Frames written out from the spec's encodings (opcode_table.json, 95_test_vectors) decode to their instructions.
The direction as an argument of the decoder is DEDUCED (log entry 12). -/
def Obligations.DecodeWords : Prop :=
  decode .rx [0x04#8] = .ok (.poll 0#4 4#4) ∧
  decode .rx [0x0F#8, 0x36#8] = .ok (.standby 0#4 15#4 []) ∧
  decode .rx [0x04#8, 0x44#8, 0x01#8] = .ok (.userControlPressed 0#4 4#4 [0x01#8]) ∧
  decode .rx [0x04#8, 0x70#8] = .ok (.systemAudioModeRequest 0#4 4#4 []) ∧
  decode .rx [0x04#8, 0x80#8, 0x20#8, 0x00#8, 0x10#8, 0x00#8] =
    .ok (.routingChange 0#4 4#4 [0x20#8, 0x00#8, 0x10#8, 0x00#8]) ∧
  decode .rx [0x04#8, 0x9F#8] = .ok (.getCecVersion 0#4 4#4 []) ∧
  decode .rx [0x04#8, 0xC0#8, 0xAA#8] = .ok (.unrecognized 0#4 4#4 0xC0#8 [0xAA#8]) ∧
  decode .rx [0x44#8, 0x36#8] = .error .selfAddressed ∧
  decode .tx [0x4F#8, 0x82#8, 0x10#8, 0x00#8] = .ok (.activeSourceTx 4#4 15#4 0x10#8 0x00#8) ∧
  decode .tx [0x40#8, 0x04#8] = .ok (.imageViewOnTx 4#4 0#4) ∧
  decode .tx [0xBB#8] = .ok (.pollTx 11#4)

/-! ## The step -/

/-- When it is the engine's turn and a frame it has received stands in `ENG.fbuf` and decodes, the step is `exec` of
the decoded instruction, with the frame's length written and the engine in E_DISPATCH; when a message stands next in a
rule, the step is `exec` of that message with the rest still to do. What a step answers is answered as it is, but for
a next state with a timestamp that does not fit its 64 bits, where the run has ended. That a step runs one
instruction, and that a message is an instruction of its own, are the model's choices (log entries 1, 9 and 11); so
are the copy-out's own step (log entries 10 and 25) and the end of the run (log entry 4). -/
def Obligations.StepRunsInstruction : Prop :=
  (∀ (s : State) (i : Instr), (pick s).1 = .engine →
    (∀ n rest bytes, s.eng.todo = .received n :: rest → bufTake s.eng.fbuf n n = .ok bytes →
      decode .rx bytes = .ok i →
      step s = withinRun (exec i
        { (pick s).2 with eng := { s.eng with flen := n, ctl := .dispatch, todo := rest } })) ∧
    (∀ rest, s.eng.todo = .instr i :: rest →
      step s = withinRun (exec i { (pick s).2 with eng := { s.eng with todo := rest } }))) ∧
  (∀ t, withinRun (.next t) = if (timestamps t).all (· < 2 ^ 64) then .next t else .refused .timeBaseEnd) ∧
  (∀ f, withinRun (.fault f) = .fault f) ∧ ∀ r, withinRun (.refused r) = .refused r

/-- R199, R200, R196, R208: whose turn it is. The agent that steps is one that can, and every one that can is the
choice of some draw: an order of simultaneous events is never fixed. The engine can step while it is not blocked; a
handler while its event is pending; the environment while its next input is due, or none is queued; time passes only
where none of the others must come first. A choice changes nothing but what is left of the draws. The step is then
that agent's: the handler of the pending event, an engine step, an input, or the passage of time. Handlers between
engine steps are the spec's decision D2; one agent's turn as a step is log entry 1, the draw of the coming inputs log
entry 2, the end of the run log entry 4, a handler's delay log entry 15. -/
def Obligations.AgentTurns : Prop :=
  ∀ s : State,
    (pick s).1 ∈ ready s ∧
    (∀ a ∈ ready s, ∃ k, (pick { s with env := { s.env with order := k :: s.env.order } }).1 = a) ∧
    ((.engine ∈ ready s ↔ engineReady s = true) ∧ (.edge ∈ ready s ↔ s.edges ≠ []) ∧
      (.alarmTx ∈ ready s ↔ ∃ d, s.drv.alarmTx = some d ∧ d ≤ s.now) ∧
      (.alarmAck ∈ ready s ↔ ∃ d, s.drv.alarmAck = some d ∧ d ≤ s.now) ∧
      (.env ∈ ready s ↔ s.env.script = [] ∨ ∃ τ i rest, s.env.script = (τ, i) :: rest ∧ τ ≤ s.now) ∧
      (.time ∈ ready s ↔ engineReady s = false ∧ envReady s = false ∧ mayDelay s = true)) ∧
    (∃ order draws, (pick s).2 = { s with env := { s.env with order := order, draws := draws } }) ∧
    ((pick s).1 = .engine → step s = withinRun (engineStep (pick s).2)) ∧
    ((pick s).1 = .edge → step s = withinRun (ofExcept (takeInterrupt .edge (pick s).2))) ∧
    ((pick s).1 = .alarmTx → step s = withinRun (ofExcept (takeInterrupt (.alarm .tx) (pick s).2))) ∧
    ((pick s).1 = .alarmAck → step s = withinRun (ofExcept (takeInterrupt (.alarm .ack) (pick s).2))) ∧
    ((pick s).1 = .env → step s = withinRun (envStep (pick s).2)) ∧
    ((pick s).1 = .time → step s = withinRun (.next (advance (pick s).2))) ∧
    (∀ t, ofExcept (.ok t) = .next t) ∧ ∀ f, ofExcept (.error f) = .fault f

/-- R123, R144, R206, R202: with a frame in the mailbox it is copied out, with its ACK bits, the mailbox is empty
again, and the step ends; with none, the engine waits on `ev_rx`: blocked while the flag is not set, and once it is
set it is cleared and the mailbox is tested again. R130: a received frame that is not sane is dropped and recorded,
and the engine waits for the next. R131: the frame record of the dispatched frame. A dispatch with nothing left to do
goes back to the loop, with the frame discarded and the driver's address written. The drop is the spec's decision D20;
what a discard leaves is log entry 20, the copy-out as a step of its own log entries 10 and 25, the place of the ACK
bits log entry 26, the engine's position log entry 9. -/
def Obligations.ReceiveLoop : Prop :=
  ∀ (s : State) (rest : List Act) (b : Byte) (bytes : List Byte),
    (s.eng.todo = [] → s.eng.ctl = .recv ∨ s.eng.ctl = .dispatch → engineReady s = true) ∧
    (s.eng.todo = [] → s.eng.ctl = .recv → s.drv.mbFull = true →
      bufTake s.drv.mbBuf s.drv.mbLen s.drv.mbLen = .ok bytes →
      engineStep s = .next { s with
        drv := { s.drv with mbFull := false }
        eng := { s.eng with
          fbuf := memStore s.eng.fbuf 0 bytes, fackbits := s.drv.mbAckbit, todo := [.received bytes.length] } }) ∧
    (∀ n, s.eng.todo = .received n :: rest →
      engineReady s = true ∧
      (bufTake s.eng.fbuf n n = .ok bytes → sane bytes = false →
        engineStep s = .next { s with
          drv := { s.drv with selfLa := s.eng.selfLa }
          eng := { s.eng with ctl := .recv, fbuf := [], flen := 0, todo := rest }
          err := s.err ++ [(s.now, .codecReject bytes)] })) ∧
    (s.eng.todo = [] → s.eng.ctl = .recv → s.drv.mbFull = false →
      engineStep s = .next { s with eng := { s.eng with todo := [.recvWait] } }) ∧
    (s.eng.todo = .recvWait :: rest → s.drv.evRx = false → engineReady s = false) ∧
    (s.eng.todo = .recvWait :: rest → s.drv.evRx = true →
      engineReady s = true ∧
      engineStep s = runActs rest
        { s with drv := { s.drv with evRx := false }, eng := { s.eng with todo := [] } }) ∧
    (bufTake s.eng.fbuf s.eng.flen s.eng.flen = .ok (b :: bytes) →
      frameRecord s = .ok
        { len := s.eng.flen, init := headerInit b, dest := headerDest b, isPoll := decide (s.eng.flen = 1),
          bytes := b :: bytes, operands := bytes.drop 1, ackbits := s.eng.fackbits, direction := .rx }) ∧
    (s.eng.todo = [] → s.eng.ctl = .dispatch →
      engineStep s = .next { s with
        drv := { s.drv with selfLa := s.eng.selfLa }, eng := { s.eng with ctl := .recv, fbuf := [], flen := 0 } })

/-- R140, R143, R147, R150 to R152, R155, R172, R179, R183, R184: what each action left of a rule does when it comes
first; only the waits can block. A message is built from the state of that instant and is the next instruction; the
others are done and the rest goes on in the same step, unless they have something to send or to wait for. The last
clauses say how the rest goes on: it ends, or an action that a handler could see (R202: it touches the driver or the
trace) is left for a step of its own, or it is what an engine step does with it. The indicator follows the spec's
decision D33, the key wait D35, the orders D25 and D54; the list of actions, where a step ends and the message as an
instruction are the model's form (log entries 9, 10 and 11). -/
def Obligations.EngineActionsRun : Prop :=
  (∀ (rest : List Act) (s : State),
    let s0 : State := { s with eng := { s.eng with todo := [] } }
    let sel := s.eng.activeSource = s.eng.selfPa
    let configured := 1 ≤ s.cfg.la.toNat ∧ s.cfg.la.toNat ≤ 14
    let first := candidate s.cfg.deviceType 0
    let at15 (acts : List Act) : State :=
      { s with eng := { s.eng with selfLa := 15#4, todo := acts }, drv := { s.drv with selfLa := 15#4 } }
    (∀ m, s.eng.todo = .send m :: rest →
      engineStep s = .next { s with eng := { s.eng with todo := .instr (buildMsg m s) :: rest } }) ∧
    (∀ b, s.eng.todo = .setMenu b :: rest →
      engineStep s = runActs rest { s0 with eng := { s0.eng with menuActive := b } }) ∧
    (s.eng.todo = .resetLost :: rest →
      engineStep s = runActs rest { s0 with eng := { s0.eng with lostCount := 0 } }) ∧
    (∀ i, s.eng.todo = .indicator i :: rest → engineStep s = runActs rest { s0 with ind := s.ind ++ [i] }) ∧
    (s.eng.todo = .indicatorSelected :: rest →
      engineStep s = runActs rest { s0 with ind := s.ind ++ [if sel then .active else .idle] }) ∧
    (∀ pa, s.eng.todo = .announceIf pa :: rest →
      engineStep s =
        if pa = s.eng.selfPa then
          .next { s with eng := { s.eng with todo := .send .imageViewOn :: .send .activeSource :: rest } }
        else runActs rest s0) ∧
    (∀ before, s.eng.todo = .updateSelection before :: rest →
      engineStep s = runActs rest { s0 with
        ind := s.ind ++
          (if before = false ∧ sel then [.active] else if before = true ∧ ¬sel then [.idle] else []) }) ∧
    (s.eng.todo = .derivePa :: rest → engineStep s = runActs rest (obtainPa s0)) ∧
    (s.eng.todo = .allocate :: rest →
      engineStep s =
        if configured then .next (at15 (.claim (BitVec.ofNat 4 s.cfg.la.toNat) :: rest))
        else if first = 15#4 then runActs rest (at15 [])
        else .next (at15 (.instr (.pollTx first) :: .verdict first 0 :: rest))) ∧
    (s.eng.todo = .enterLoop :: rest →
      engineStep s = runActs rest { s0 with
        drv := { s.drv with selfLa := s.eng.selfLa }, eng := { s0.eng with ctl := .recv, fbuf := [], flen := 0 } }) ∧
    (∀ b, s.eng.todo = .enqueueKey b :: rest →
      engineStep s =
        if s.keyq.length < s.par.keyqDepth then runActs rest { s0 with keyq := s.keyq ++ [b] }
        else .next { s with eng := { s.eng with todo := .keyWait b (s.now + 10000) :: rest } }) ∧
    (∀ a, s.eng.todo = a :: rest → a ≠ .sendWait → a ≠ .recvWait → (∀ b d, a ≠ .keyWait b d) →
      engineReady s = true)) ∧
  (∀ s : State, runActs [] s = .next s) ∧
  (∀ a : Act, a.startsStep = true ↔
    (∃ i, a = .instr i) ∨ a = .sendWait ∨ (∃ bytes n, a = .txLoop bytes n) ∨ (∃ b d, a = .keyWait b d) ∨
    a = .allocate ∨ (∃ c i, a = .verdict c i) ∨ (∃ la, a = .claim la) ∨ a = .enterLoop ∨ a = .recvWait ∨
    (∃ n, a = .received n) ∨ a = .enable) ∧
  (∀ (a : Act) (as : List Act) (s : State), a.startsStep = true →
    runActs (a :: as) s = .next { s with eng := { s.eng with todo := a :: as ++ s.eng.todo } }) ∧
  (∀ (a : Act) (as : List Act) (s : State), s.eng.todo = [] → a.startsStep = false →
    runActs (a :: as) s = engineStep { s with eng := { s.eng with todo := a :: as } })

/-! ## Reset -/

/-- The reset values of R217, field by field (`KEYQ`, `IND`, `ERR` empty). Fields that R217 gives no value are not
named here. Some of these values are the spec's decision D36; that the pending alarms and wake flags are plain fields
is R32 and R33. -/
def Obligations.ResetValues : Prop :=
  State.reset.now = 0 ∧ State.reset.drv.enabled = false ∧ State.reset.drv.drive = .released ∧
  State.reset.drv.tLastEdge = 0 ∧ State.reset.drv.selfLa = 15#4 ∧ State.reset.drv.rxState = .idle ∧
  State.reset.drv.rxTFall = 0 ∧ State.reset.drv.rxBit = 0 ∧ State.reset.drv.rxShift = 0#8 ∧
  State.reset.drv.rxLen = 0 ∧ State.reset.drv.rxEom = false ∧ State.reset.drv.rxAckOwed = false ∧
  State.reset.drv.rxAcking = false ∧ State.reset.drv.mbFull = false ∧ State.reset.drv.txPhase = .idle ∧
  State.reset.drv.txByte = 0 ∧ State.reset.drv.txBit = 0 ∧ State.reset.drv.txValue = false ∧
  State.reset.drv.txCellStart = 0 ∧ State.reset.drv.txWaitStart = 0 ∧ State.reset.drv.txBlockOk = false ∧
  State.reset.drv.txUsedBus = false ∧ State.reset.drv.justTransmitted = false ∧
  State.reset.drv.txResult = ⟨false, false, false⟩ ∧ State.reset.drv.alarmTx = none ∧
  State.reset.drv.alarmAck = none ∧ State.reset.drv.evRx = false ∧ State.reset.drv.evTx = false ∧
  State.reset.eng.ctl = .load ∧ State.reset.eng.selfLa = 15#4 ∧ State.reset.eng.selfPa = 0#16 ∧
  State.reset.eng.activeSource = 0#16 ∧ State.reset.eng.audioMode = false ∧ State.reset.eng.menuActive = false ∧
  State.reset.eng.lostCount = 0 ∧ State.reset.keyq = [] ∧ State.reset.ind = [] ∧ State.reset.err = []

/-- The invariant holds at reset. Registers without a reset value in R217 hold the model's values (log entries 6 to
9). -/
def Obligations.InvAtReset : Prop := Inv State.reset

/-- Every step keeps the invariant: canonical memories, register ranges, filled buffers, an armed alarm for a send in
progress, the engine inside its wait, the published address, the lost count, the key queue's capacity, every timestamp
below 2 to the 64. The form of the state (canonical memories, the engine's position) is the model's choice (log
entries 7 and 9), and so is the end of a run whose timestamps no longer fit (log entry 4). -/
def Obligations.InvEveryStep : Prop := ∀ s t : State, Inv s → step s = .next t → Inv t

/-- R192: no model fault (`TX_BUSY`, `ISR_BLOCK`, `BUF_RANGE`) is reached from a state that meets the invariant. The
names of the faults are the spec's decision D50. -/
def Obligations.StepNeverFaults : Prop := ∀ (s : State) (f : Fault), Inv s → step s ≠ .fault f

/-! ## Received messages -/

/-- R166 to R169, R178: the poll, Feature Abort, Image View On, Text View On and System Audio Mode Status change
nothing, and a frame of length 1 is read as a poll, never as an opcode. -/
def Obligations.IgnoredRows : Prop :=
  (∀ (init dest : La) (ops : List Byte) (s : State),
    exec (.poll init dest) s = .next s ∧ exec (.featureAbort init dest ops) s = .next s ∧
    exec (.imageViewOn init dest ops) s = .next s ∧ exec (.textViewOn init dest ops) s = .next s ∧
    exec (.systemAudioModeStatus init dest ops) s = .next s) ∧
  (∀ b : Byte, decode .rx [b] = .ok (.poll (headerInit b) (headerDest b)))

/-- R145: a row whose addressing mode does not act on the frame, or whose operands are missing, changes nothing.
Ignoring such frames is the spec's decisions D28, D30 and D43. -/
def Obligations.ClosedGateChangesNothing : Prop :=
  ∀ (i : Instr) (mode : GateMode) (k : Nat) (init dest : La) (ops : List Byte) (s : State),
    rxGate i = some (mode, k, init, dest, ops) → ¬(Acts mode init dest s ∧ k ≤ ops.length) → exec i s = .next s

/-- R170: Standby, direct or broadcast, clears the active source and calls the indicator idle. The indicator call
stands on the spec's decision D33, and D45 on literal selection. -/
def Obligations.StandbyEffect : Prop :=
  ∀ (init dest : La) (ops : List Byte) (s : State), Acts .directB init dest s →
    exec (.standby init dest ops) s =
      .next { s with eng := { s.eng with activeSource := 0#16 }, ind := s.ind ++ [.idle] }

/-- R171, R172, R150: a mapped key pressed is appended and the indicator called, and an unmapped code changes nothing;
a key released appends the "no key" byte and the indicator shows the selection. With the queue full the engine waits
up to 10 ms. An unmapped code, the full queue and the indicator follow the spec's decisions D33 to D35; the suspended
wait is the model's form (log entry 9). -/
def Obligations.KeyRowsEffect : Prop :=
  ∀ (init dest : La) (code : Byte) (ops : List Byte) (s : State), toSelf dest s →
    (memGet s.cfg.keyMap code.toNat = none → exec (.userControlPressed init dest (code :: ops)) s = .next s) ∧
    (∀ k, memGet s.cfg.keyMap code.toNat = some k →
      exec (.userControlPressed init dest (code :: ops)) s =
        if s.keyq.length < s.par.keyqDepth then
          .next { s with keyq := s.keyq ++ [k], ind := s.ind ++ [.keyPressed] }
        else
          .next { s with eng := { s.eng with
            todo := .keyWait k (s.now + 10000) :: .indicator .keyPressed :: s.eng.todo } }) ∧
    (exec (.userControlReleased init dest ops) s =
      if s.keyq.length < s.par.keyqDepth then
        .next { s with
          keyq := s.keyq ++ [0x00#8]
          ind := s.ind ++ [if s.eng.activeSource = s.eng.selfPa then .active else .idle] }
      else
        .next { s with eng := { s.eng with
          todo := .keyWait 0x00#8 (s.now + 10000) :: .indicatorSelected :: s.eng.todo } })

/-- R150: the wait for space in the key queue ends with the byte appended when there is room, with the byte dropped
and recorded when the time is up, and goes on otherwise: the engine can step exactly when the wait is over. The wait
is the spec's decision D35; its place in the engine's position is the model's form (log entry 9). -/
def Obligations.KeyWaitEnds : Prop :=
  ∀ (b : Byte) (deadline : Micros) (rest : List Act) (s : State), s.eng.todo = .keyWait b deadline :: rest →
    (s.keyq.length < s.par.keyqDepth →
      engineReady s = true ∧
      engineStep s = runActs rest { s with eng := { s.eng with todo := [] }, keyq := s.keyq ++ [b] }) ∧
    (¬s.keyq.length < s.par.keyqDepth → deadline ≤ s.now →
      engineReady s = true ∧ engineStep s = runActs rest
        { s with eng := { s.eng with todo := [] }, err := s.err ++ [(s.now, .keyqDrop b)] }) ∧
    (¬s.keyq.length < s.par.keyqDepth → s.now < deadline → engineReady s = false)

/-- R173 to R175, R177, R181, R188, R189, with the message of R157, R159 to R164: each of these direct messages makes
one message the engine's next instruction, with these bytes, and changes nothing else. The four reply opcodes that are
general knowledge (GK1) and the layout of Report Physical Address (GK3) are PRESUMED (log entry 17); with the physical
address unknown, Report Physical Address is withheld when it comes to be sent (`Obligations.UnsentMessages`). That a
reply becomes the next instruction is the model's choice (log entry 11). -/
def Obligations.RepliesIssueOneMessage : Prop :=
  ∀ (init dest : La) (ops : List Byte) (s : State), toSelf dest s →
    let me := s.eng.selfLa
    let issues (i : Instr) (bytes : List Byte) : Prop :=
      ∃ m, m.direction = .tx ∧ encode m = bytes ∧
        exec i s = .next { s with eng := { s.eng with todo := .instr m :: s.eng.todo } }
    issues (.giveOsdName init dest ops)
      [header me init, opSetOsdName, 0x50#8, 0x69#8, 0x63#8, 0x6F#8, 0x2D#8, 0x43#8, 0x45#8, 0x43#8] ∧
    issues (.systemAudioModeRequest init dest ops)
      [header me init, 0x72#8, if s.eng.audioMode then 0x01#8 else 0x00#8] ∧
    issues (.giveAudioStatus init dest ops) [header me init, opReportAudioStatus, 0x32#8] ∧
    issues (.giveSystemAudioModeStatus init dest ops)
      [header me init, 0x7E#8, if s.eng.audioMode then 0x01#8 else 0x00#8] ∧
    issues (.givePhysicalAddress init dest ops)
      [header me 15#4, 0x84#8, s.eng.selfPa.extractLsb' 8 8, s.eng.selfPa.extractLsb' 0 8, s.cfg.deviceType] ∧
    issues (.giveDevicePowerStatus init dest ops)
      [header me init, opReportPowerStatus, if s.eng.activeSource = s.eng.selfPa then 0x00#8 else 0x01#8] ∧
    issues (.getCecVersion init dest ops) [header me init, opCecVersion, 0x04#8]

/-- R186, R158: Give Device Vendor ID makes the broadcast of vendor id 0x0010FA the engine's next instruction. R185: a
Device Vendor ID broadcast by the TV is mirrored in the same way; one from any other node, or sent direct, is ignored.
The TV's condition is the spec's decision D26; that the broadcast becomes the next instruction is the model's choice
(log entry 11). -/
def Obligations.VendorIdBroadcasts : Prop :=
  ∀ (init dest : La) (ops : List Byte) (s : State),
    let broadcasts (i : Instr) : Prop :=
      ∃ m, m.direction = .tx ∧ encode m = [header s.eng.selfLa 15#4, 0x87#8, 0x00#8, 0x10#8, 0xFA#8] ∧
        exec i s = .next { s with eng := { s.eng with todo := .instr m :: s.eng.todo } }
    (toSelf dest s → broadcasts (.giveDeviceVendorId init dest ops)) ∧
    (init = 0#4 ∧ dest = 15#4 → broadcasts (.deviceVendorId init dest ops)) ∧
    (¬(init = 0#4 ∧ dest = 15#4) → exec (.deviceVendorId init dest ops) s = .next s)

/-- R176: Set System Audio Mode, direct or broadcast: on for operand 1, off for every other value, no reply; to
another node it is ignored. -/
def Obligations.SetSystemAudioModeEffect : Prop :=
  ∀ (init dest : La) (m : Byte) (ops : List Byte) (s : State),
    (toSelf dest s ∨ dest = 15#4 →
      exec (.setSystemAudioMode init dest (m :: ops)) s =
        .next { s with eng := { s.eng with audioMode := decide (m = 0x01#8) } }) ∧
    (¬(toSelf dest s ∨ dest = 15#4) → exec (.setSystemAudioMode init dest (m :: ops)) s = .next s)

/-- R180, R152: Active Source takes over the address, resets the lost count, and the indicator follows a change of
selection. The indicator follows the spec's decision D33, the gate D28. -/
def Obligations.ActiveSourceReceived : Prop :=
  ∀ (init dest : La) (hi lo : Byte) (ops : List Byte) (s : State), toSelf dest s →
    exec (.activeSource init dest (hi :: lo :: ops)) s =
      .next { s with
        eng := { s.eng with activeSource := hi ++ lo, lostCount := 0 }
        ind := s.ind ++
          (if s.eng.activeSource ≠ s.eng.selfPa ∧ hi ++ lo = s.eng.selfPa then [.active]
           else if s.eng.activeSource = s.eng.selfPa ∧ hi ++ lo ≠ s.eng.selfPa then [.idle]
           else []) }

/-- R183, R155: the request is counted; a selected node, or one asked for the third time, sends Image View On, then
Active Source, then resets the count; else nothing more happens. That the messages become the next instructions is the
model's choice (log entry 11). -/
def Obligations.RequestActiveSourceEffect : Prop :=
  ∀ (init dest : La) (ops : List Byte) (s : State), toSelf dest s →
    exec (.requestActiveSource init dest ops) s =
      if s.eng.selfPa = s.eng.activeSource ∨ 2 < s.eng.lostCount + 1 then
        .next { s with eng := { s.eng with
          lostCount := s.eng.lostCount + 1
          todo := .instr (.imageViewOnTx s.eng.selfLa 0#4) :: .send .activeSource :: .resetLost :: s.eng.todo } }
      else .next { s with eng := { s.eng with lostCount := s.eng.lostCount + 1 } }

/-- R184: Set Stream Path to this node's address makes it active and starts Image View On, Active Source, the menu's
activation, Menu Status and the indicator, in that order; to another address it changes nothing. The order is the
spec's decision D54; that the messages become the next instructions is the model's choice (log entry 11). -/
def Obligations.SetStreamPathEffect : Prop :=
  ∀ (init dest : La) (hi lo : Byte) (ops : List Byte) (s : State), toSelf dest s →
    exec (.setStreamPath init dest (hi :: lo :: ops)) s =
      if hi ++ lo = s.eng.selfPa then
        .next { s with eng := { s.eng with
          activeSource := hi ++ lo
          todo := .instr (.imageViewOnTx s.eng.selfLa 0#4) :: .send .activeSource :: .setMenu true ::
            .send (.menuStatus init) :: .indicator .active :: s.eng.todo } }
      else .next s

/-- R187, R156: Menu Request activates, deactivates or queries, and Menu Status is always the next instruction. The
operand values stand by name: they are general knowledge (GK2), PRESUMED (log entry 17). Other operand values read as
Query by the spec's decision D31; that the reply becomes the next instruction is log entry 11. -/
def Obligations.MenuRequestEffect : Prop :=
  ∀ (init dest : La) (t : Byte) (ops : List Byte) (s : State), toSelf dest s →
    let active := if t = menuActivate then true else if t = menuDeactivate then false else s.eng.menuActive
    ∃ m, m.direction = .tx ∧ encode m = [header s.eng.selfLa init, 0x8E#8, menuStatusByte active] ∧
      exec (.menuRequest init dest (t :: ops)) s =
        .next { s with eng := { s.eng with menuActive := active, todo := .instr m :: s.eng.todo } }

/-- R190, R191, R165: Abort and every opcode without a row of its own are recorded and answered with Feature Abort,
with the opcode and reason 4 or 0. A Feature Abort to initiator 15 is the spec's decision D40; what a record holds is
log entry 18; the next instruction is log entry 11. -/
def Obligations.AbortAndUnrecognizedEffect : Prop :=
  ∀ (init dest : La) (op : Byte) (ops : List Byte) (s : State), toSelf dest s →
    (∃ m, m.direction = .tx ∧ encode m = [header s.eng.selfLa init, 0x00#8, 0xFF#8, 4#8] ∧
      exec (.abort init dest ops) s =
        .next { s with
          eng := { s.eng with todo := .instr m :: s.eng.todo }
          err := s.err ++ [(s.now, .refused 0xFF#8)] }) ∧
    (∃ m, m.direction = .tx ∧ encode m = [header s.eng.selfLa init, 0x00#8, op, 0#8] ∧
      exec (.unrecognized init dest op ops) s =
        .next { s with
          eng := { s.eng with todo := .instr m :: s.eng.todo }
          err := s.err ++ [(s.now, .unrecognized op)] })

/-- R179, R140, R138: Routing Change adopts the new address and obtains the physical address; the next engine step
gives the logical address up. A configured logical address is then claimed; with no candidate to probe the node stays
unregistered and, if the new address is its own, announces itself; else it polls the first candidate before going on.
The operand layout is general knowledge (GK4, log entry 17), the recompute the spec's decision D25; the suspended rule
and its steps are the model's form (log entries 9, 10 and 11). -/
def Obligations.RoutingChangeEffect : Prop :=
  ∀ (init dest : La) (o1 o2 hi lo : Byte) (ops : List Byte) (s : State), toSelf dest s →
    let before := decide (s.eng.activeSource = s.eng.selfPa)
    let configured := 1 ≤ s.cfg.la.toNat ∧ s.cfg.la.toNat ≤ 14
    let first := candidate s.cfg.deviceType 0
    let s1 := obtainPa { s with eng := { s.eng with activeSource := hi ++ lo } }
    let s2 := publishLa 15#4 s1
    let rest := [.announceIf (hi ++ lo), .updateSelection before]
    exec (.routingChange init dest (o1 :: o2 :: hi :: lo :: ops)) s = .next (pushActs (.allocate :: rest) s1) ∧
    (s.eng.todo = [] → engineStep (pushActs (.allocate :: rest) s1) =
      if configured then .next (pushActs (.claim (BitVec.ofNat 4 s.cfg.la.toNat) :: rest) s2)
      else if first = 15#4 then
        if hi ++ lo = s2.eng.selfPa then
          .next (pushActs [.send .imageViewOn, .send .activeSource, .updateSelection before] s2)
        else .next (updateSelection before s2)
      else .next (pushActs (.instr (.pollTx first) :: .verdict first 0 :: rest) s2))

/-- R182, R140: Report Physical Address broadcast by the TV obtains the physical address; the next engine step gives
the logical one up, and claims or probes for it as Routing Change does; then the node reports its own physical
address. From any other initiator, or sent direct, it is ignored. The condition and the order are the spec's decisions
D25 and D27; the suspended rule and its steps are the model's form (log entries 9, 10 and 11). -/
def Obligations.ReportPhysicalAddressMirrored : Prop :=
  ∀ (init dest : La) (ops : List Byte) (s : State),
    let before := decide (s.eng.activeSource = s.eng.selfPa)
    let configured := 1 ≤ s.cfg.la.toNat ∧ s.cfg.la.toNat ≤ 14
    let first := candidate s.cfg.deviceType 0
    let s1 := obtainPa s
    let s2 := publishLa 15#4 s1
    let rest := [.send .reportPa, .updateSelection before]
    (¬(init = 0#4 ∧ dest = 15#4) → exec (.reportPhysicalAddress init dest ops) s = .next s) ∧
    (init = 0#4 ∧ dest = 15#4 →
      exec (.reportPhysicalAddress init dest ops) s = .next (pushActs (.allocate :: rest) s1) ∧
      (s.eng.todo = [] → engineStep (pushActs (.allocate :: rest) s1) =
        if configured then .next (pushActs (.claim (BitVec.ofNat 4 s.cfg.la.toNat) :: rest) s2)
        else if first = 15#4 then
          .next (pushActs
            [.instr (.reportPhysicalAddressTx 15#4 15#4 (s2.eng.selfPa.extractLsb' 8 8)
               (s2.eng.selfPa.extractLsb' 0 8) s.cfg.deviceType),
             .updateSelection before] s2)
        else .next (pushActs (.instr (.pollTx first) :: .verdict first 0 :: rest) s2)))

/-- The frame of every received row: all but what its rule lists among its writes is unchanged, every byte of memory
included. The engine's position, which may change, is the model's own (log entry 9). -/
def Obligations.ReceivedRowFrames : Prop :=
  ∀ (i : Instr) (s t : State), i.direction = .rx → exec i s = .next t → RxRowFrame i s t

/-! ## Addressing -/

/-- R135: the candidate table, each device type's four candidates in order; 15 is "give up". -/
def Obligations.CandidateTable : Prop :=
  let row (deviceType : Byte) : List La := (List.range 4).map (candidate deviceType)
  row 0#8 = [0#4, 0#4, 0#4, 0#4] ∧ row 1#8 = [1#4, 2#4, 9#4, 15#4] ∧ row 2#8 = [15#4, 15#4, 15#4, 15#4] ∧
  row 3#8 = [3#4, 6#4, 7#4, 15#4] ∧ row 4#8 = [4#4, 8#4, 11#4, 15#4] ∧ row 5#8 = [5#4, 5#4, 5#4, 5#4]

/-- R136: the configured physical address without a draw, else the EDID reader's next answer: the first one queued,
or, with none queued, a free value, a new one at each call. Free EDID answers are the spec's decision D47, held as a
queue of answers and then as free values (log entry 2). -/
def Obligations.PhysicalAddressDerived : Prop :=
  ∀ s : State,
    (s.cfg.pa ≠ 0#16 → obtainPa s = { s with eng := { s.eng with selfPa := s.cfg.pa } }) ∧
    (∀ pa rest, s.cfg.pa = 0#16 → s.env.edid = pa :: rest →
      obtainPa s = { s with eng := { s.eng with selfPa := pa }, env := { s.env with edid := rest } }) ∧
    (s.cfg.pa = 0#16 → s.env.edid = [] →
      obtainPa s = { s with
        eng := { s.eng with selfPa := Config.edidDraw s.env.draws }, env := { s.env with draws := s.env.draws + 1 } })

/-- R137, R138: a configured address is claimed for the engine and the driver. An acknowledged probe, or one whose
freedom was not observed, goes on to the next candidate, and past the last the node stays at 15; a probe every attempt
of which was refused claims the candidate, for the engine and the driver. Taken on a lost arbitration or a timeout is
the spec's decision D23; the place of the verdict in the engine's position is log entry 9. -/
def Obligations.ProbeVerdict : Prop :=
  (∀ (c : La) (rest : List Act) (s : State), s.eng.todo = .claim c :: rest →
    engineStep s = runActs rest
      { s with eng := { s.eng with selfLa := c, todo := [] }, drv := { s.drv with selfLa := c } }) ∧
  ∀ (c : La) (i : Nat) (rest : List Act) (s : State), s.eng.todo = .verdict c i :: rest →
    let taken := s.eng.ret.acked = true ∨ s.eng.ret.arbitrationLost = true ∨ s.eng.ret.timeout = true
    let next := candidate s.cfg.deviceType (i + 1)
    let at' (la : La) : State :=
      { s with eng := { s.eng with selfLa := la, todo := [] }, drv := { s.drv with selfLa := la } }
    (¬taken → engineStep s = runActs rest (at' c)) ∧
    (taken → next = 15#4 → engineStep s = runActs rest (at' 15#4)) ∧
    (taken → next ≠ 15#4 → engineStep s =
      .next { s with eng := { s.eng with todo := .instr (.pollTx next) :: .verdict next (i + 1) :: rest } })

/-- R141: the addresses change only in the startup steps that obtain them, at the receipt of a Routing Change or
Report Physical Address frame, and in the middle of a recompute. R141 is the spec's own inference ("derived: from
rules R138, R140 and the dispatch rules"); the engine's position is log entry 9. -/
def Obligations.AddressesStable : Prop :=
  ∀ s t : State, Inv s → step s = .next t → (t.eng.selfLa ≠ s.eng.selfLa ∨ t.eng.selfPa ≠ s.eng.selfPa) → readdressing s

/-! ## Transmitted messages -/

/-- R153 to R165: the bytes of every message the engine builds, from its state at that instant. Four opcodes and the
menu status stand by name (GK1, GK2), and Report Physical Address has the layout of GK3: PRESUMED (log entry 17).
Destinations and layouts are the spec's decisions D29 and D38. -/
def Obligations.MessageBytes : Prop :=
  ∀ (dst : La) (op reason : Byte) (s : State),
    let me := s.eng.selfLa
    let hi := s.eng.selfPa.extractLsb' 8 8
    let lo := s.eng.selfPa.extractLsb' 0 8
    let audio : Byte := if s.eng.audioMode then 0x01#8 else 0x00#8
    encode (buildMsg .imageViewOn s) = [header me 0#4, 0x04#8] ∧
    encode (buildMsg .activeSource s) = [header me 15#4, 0x82#8, hi, lo] ∧
    encode (buildMsg (.menuStatus dst) s) = [header me dst, 0x8E#8, menuStatusByte s.eng.menuActive] ∧
    encode (buildMsg .reportPa s) = [header me 15#4, 0x84#8, hi, lo, s.cfg.deviceType] ∧
    encode (buildMsg .deviceVendorId s) = [header me 15#4, 0x87#8, 0x00#8, 0x10#8, 0xFA#8] ∧
    encode (buildMsg (.setSystemAudioMode dst) s) = [header me dst, 0x72#8, audio] ∧
    encode (buildMsg (.systemAudioModeStatus dst) s) = [header me dst, 0x7E#8, audio] ∧
    encode (buildMsg (.reportAudioStatus dst) s) = [header me dst, opReportAudioStatus, 0x32#8] ∧
    encode (buildMsg (.reportPowerStatus dst) s) =
      [header me dst, opReportPowerStatus, if s.eng.activeSource = s.eng.selfPa then 0x00#8 else 0x01#8] ∧
    encode (buildMsg (.cecVersion dst) s) = [header me dst, opCecVersion, 0x04#8] ∧
    encode (buildMsg (.setOsdName dst) s) =
      [header me dst, opSetOsdName, 0x50#8, 0x69#8, 0x63#8, 0x6F#8, 0x2D#8, 0x43#8, 0x45#8, 0x43#8] ∧
    encode (buildMsg (.featureAbort dst op reason) s) = [header me dst, 0x00#8, op, reason]

/-- R147, R129, R105, R106, R108: every transmitted row (all thirteen) whose frame is sane, with the driver enabled
and no send in progress, sets the request up and begins the wait for a free bus; the engine waits for its end, and a
message, unlike a poll, then meets the loop test of `tx`. The measure of free time and the timeout are the spec's
decisions D10, D11 and D15; the row as an instruction of its own is log entries 11 and 14. -/
def Obligations.TransmitBeginsSend : Prop :=
  ∀ (i : Instr) (s : State), i.direction = .tx → ¬withheld i s → sane (encode i) = true →
    s.drv.enabled = true → s.drv.txPhase = .idle →
    ∃ t, exec i s = .next t ∧
      t.drv.txPhase = .wait ∧ t.drv.txLen = (encode i).length ∧ t.drv.txAttempt = 1 ∧
      t.drv.txResult = ⟨false, false, false⟩ ∧ t.drv.txUsedBus = false ∧ t.drv.txWaitStart = s.now ∧
      t.drv.txFreeReq = (if s.drv.justTransmitted then .afterTx else .first) ∧
      t.drv.alarmTx = some
        (if s.drv.lineLevel = .high then
          min (s.drv.tLastEdge + if s.drv.justTransmitted then 7200 else 16800) (s.now + s.par.sendIdleTimeoutUs)
         else s.now + s.par.sendIdleTimeoutUs) ∧
      (∀ a, memGet t.drv.txBuf a = if a < (encode i).length then (encode i)[a]? else memGet s.drv.txBuf a) ∧
      t.eng.todo =
        (match i with
         | .pollTx _ => .sendWait :: s.eng.todo
         | _ => .sendWait :: .txLoop (encode i) 1 :: s.eng.todo)

/-- R129: a transmitted row whose frame is not sane is refused: recorded, its result all false, the driver untouched;
a message, unlike a poll, then meets the loop test of `tx`. R157: with the physical address unknown, Report Physical
Address sends nothing and records `NO_PA`. Refusing is the spec's decision D16; what the record holds is log entry 18,
the result and what is left to do log entry 9. -/
def Obligations.UnsentMessages : Prop :=
  (∀ (i : Instr) (s : State), i.direction = .tx → ¬withheld i s → sane (encode i) = false →
    exec i s = .next { s with
      err := s.err ++ [(s.now, .codecReject (encode i))]
      eng := { s.eng with
        ret := ⟨false, false, false⟩
        todo :=
          match i with
          | .pollTx _ => s.eng.todo
          | _ => .txLoop (encode i) 1 :: s.eng.todo } }) ∧
  (∀ (init dest : La) (hi lo dt : Byte) (s : State), s.eng.selfPa = 0#16 →
    exec (.reportPhysicalAddressTx init dest hi lo dt) s = .next { s with err := s.err ++ [(s.now, .noPa)] })

/-- R105: a sane frame sent before the driver is enabled or while a send is in progress is the fault `TX_BUSY`, and
nothing else is. The fault's name is the spec's decision D50. -/
def Obligations.BusySendFaults : Prop :=
  ∀ (i : Instr) (s : State) (f : Fault), i.direction = .tx →
    (exec i s = .fault f ↔
      f = .txBusy ∧ ¬withheld i s ∧ sane (encode i) = true ∧ ¬(s.drv.enabled = true ∧ s.drv.txPhase = .idle))

/-- The frame of every transmitted row: only the transmit request, the observation trace and the engine's position may
change, and of the transmit buffer only the bytes of the frame. The engine's position and the returned result are the
model's own (log entry 9). -/
def Obligations.TransmittedRowFrames : Prop :=
  ∀ (i : Instr) (s t : State), i.direction = .tx → exec i s = .next t → TxRowFrame i s t

/-- R105, R206: the wait for a send blocks until the wake flag is set, then clears it and returns the driver's result.
R147: `tx` then sends the same bytes again only after arbitration loss, for a direct frame, up to five calls;
otherwise it is done, whatever the driver's state. The retry is the spec's decision D17; the suspended wait is the
model's form (log entry 9). -/
def Obligations.SendEndsAndRetries : Prop :=
  (∀ (rest : List Act) (s : State), s.eng.todo = .sendWait :: rest →
    (s.drv.evTx = false → engineReady s = false) ∧
    (s.drv.evTx = true → engineReady s = true ∧ engineStep s = runActs rest
      { s with drv := { s.drv with evTx := false }, eng := { s.eng with ret := s.drv.txResult, todo := [] } })) ∧
  ∀ (bytes : List Byte) (calls : Nat) (rest : List Act) (s : State), s.eng.todo = .txLoop bytes calls :: rest →
    let again := s.eng.ret.arbitrationLost = true ∧ (∃ b bs, bytes = b :: bs ∧ headerDest b ≠ 15#4) ∧ calls < 5
    engineReady s = true ∧
    (¬again → engineStep s = runActs rest { s with eng := { s.eng with todo := [] } }) ∧
    (again → sane bytes = true → s.drv.enabled = true → s.drv.txPhase = .idle →
      ∃ t, engineStep s = .next t ∧ t.eng.todo = .sendWait :: .txLoop bytes (calls + 1) :: rest ∧
        t.drv.txPhase = .wait ∧ t.drv.txAttempt = 1 ∧ t.drv.txLen = bytes.length ∧
        ∀ a < bytes.length, memGet t.drv.txBuf a = bytes[a]?)

/-! ## Startup -/

/-- R142: the configuration store's answer is loaded, the first one queued or, with none queued, a free one, with
every key-map entry below 256; a failure, or a device type above 5, is recorded, calls the indicator fault, and stops
the engine: it can take no step in E_FAULT, and no step of the machine changes it again. A device type above 5 is a
failure by the spec's decision D22; answers are a queue and then free values (log entry 2), the key map is kept in
canonical form (log entry 23). -/
def Obligations.ConfigurationLoaded : Prop :=
  (∀ (answer : Option CfgAnswer) (s : State), s.eng.todo = [] → s.eng.ctl = .load →
    ((∃ rest, s.env.cfg = answer :: rest) ∨ (s.env.cfg = [] ∧ answer = Config.cfgDraw s.env.draws)) →
    engineReady s = true ∧
    (∀ r, answer = some r → r.deviceType.toNat ≤ 5 →
      ∃ t, engineStep s = .next t ∧ t.eng = { s.eng with ctl := .settle, tLoaded := s.now } ∧
        t.cfg.deviceType = r.deviceType ∧ t.cfg.la = r.la ∧ t.cfg.pa = r.pa ∧ t.cfg.edidDelayMs = r.edidDelayMs ∧
        (∀ a, memGet t.cfg.keyMap a = if a < 256 then memGet r.keyMap a else none) ∧ t.err = s.err ∧ t.ind = s.ind) ∧
    ((∀ r, answer = some r → 5 < r.deviceType.toNat) →
      ∃ t, engineStep s = .next t ∧ t.eng = { s.eng with ctl := .fault } ∧ t.ind = s.ind ++ [.fault] ∧
        t.err = s.err ++ [(s.now, .configFail)] ∧ t.cfg = s.cfg ∧ t.drv = s.drv)) ∧
  ∀ s : State, s.eng.todo = [] → s.eng.ctl = .fault →
    engineReady s = false ∧ ∀ t, step s = .next t → t.eng = s.eng

/-- R143, R89, R136, R138: the engine can step once the settle time is over, and at each of the startup's points after
it. The driver is prepared, then enabled, then the physical address obtained, the configured one or the EDID reader's
answer; then the logical address is given up, and a configured one is claimed next; else (0x00, 0x0F and above) the
first candidate is polled, if there is one. The timing is the spec's decision D52, free EDID answers D47 (a queue: log
entry 2); one engine step per state, the enable's two, and what is left to do are log entries 10 and 9. -/
def Obligations.StartupSequence : Prop :=
  ∀ s : State, s.eng.todo = [] →
    (s.eng.ctl = .settle → s.now < s.eng.tLoaded + s.cfg.edidDelayMs.toNat * 1000 → engineReady s = false) ∧
    (s.eng.ctl = .settle → s.eng.tLoaded + s.cfg.edidDelayMs.toNat * 1000 ≤ s.now → engineReady s = true) ∧
    (s.eng.ctl = .settle → engineStep s = .next { s with eng := { s.eng with ctl := .init } }) ∧
    (s.eng.ctl = .init ∨ s.eng.ctl = .pa ∨ s.eng.ctl = .la → engineReady s = true) ∧
    (s.eng.ctl = .init → ∃ t, engineStep s = .next t ∧ t.eng = { s.eng with todo := [.enable] } ∧
      t.drv = { s.drv with
        drive := .released, lineLevel := (if s.env.extLow then .low else .high), tLastEdge := s.now,
        rxState := .idle, rxLen := 0, rxAcking := false, txPhase := .idle, mbFull := false, evRx := false,
        evTx := false, justTransmitted := false, alarmTx := none, alarmAck := none }) ∧
    engineStep { s with eng := { s.eng with todo := [.enable] } } =
      .next { s with eng := { s.eng with ctl := .pa, todo := [] }, drv := { s.drv with enabled := true } } ∧
    (s.eng.ctl = .pa → ∃ t, engineStep s = .next t ∧
      t = { obtainPa s with eng := { (obtainPa s).eng with ctl := .la } } ∧
      (s.cfg.pa ≠ 0#16 → t = { s with eng := { s.eng with ctl := .la, selfPa := s.cfg.pa } }) ∧
      (∀ pa rest, s.cfg.pa = 0#16 → s.env.edid = pa :: rest →
        t = { s with eng := { s.eng with ctl := .la, selfPa := pa }, env := { s.env with edid := rest } })) ∧
    (s.eng.ctl = .la →
      let configured := 1 ≤ s.cfg.la.toNat ∧ s.cfg.la.toNat ≤ 14
      let first := candidate s.cfg.deviceType 0
      engineStep s = .next { s with
        drv := { s.drv with selfLa := 15#4 }
        eng := { s.eng with
          selfLa := 15#4
          todo :=
            if configured then [.claim (BitVec.ofNat 4 s.cfg.la.toNat), .enterLoop]
            else if first = 15#4 then [.enterLoop]
            else [.instr (.pollTx first), .verdict first 0, .enterLoop] } })

/-! ## Interrupt handlers -/

/-- R90, R121, R197, R200: the oldest pending edge is taken with its own time and level. Before the driver is enabled
its handler changes nothing; during an attempt an edge updates only the line's level and the time of its last edge. A
due alarm is disarmed, and its handler does no more than that before the driver is enabled, in TX_IDLE for the channel
TX, and with no ACK driven for the channel ACK; an alarm that is not due does nothing. The handlers' order is the
spec's decisions D2 and D4; a list of pending edges is the model's form (log entry 1). -/
def Obligations.HandlerEntry : Prop :=
  ∀ s : State,
    (∀ t lvl es, s.edges = (t, lvl) :: es →
      (takeInterrupt .edge s = edgeIsr t lvl { s with edges := es }) ∧
      (s.drv.enabled = false → takeInterrupt .edge s = .ok { s with edges := es }) ∧
      (s.drv.enabled = true → s.drv.txPhase ≠ .idle → s.drv.txPhase ≠ .wait →
        takeInterrupt .edge s =
          .ok { s with edges := es, drv := { s.drv with lineLevel := lvl, tLastEdge := t } })) ∧
    (∀ d, s.drv.alarmTx = some d →
      (d ≤ s.now → s.drv.enabled = false ∨ s.drv.txPhase = .idle →
        takeInterrupt (.alarm .tx) s = .ok { s with drv := { s.drv with alarmTx := none } }) ∧
      (s.now < d → takeInterrupt (.alarm .tx) s = .ok s)) ∧
    (∀ d, s.drv.alarmAck = some d →
      (d ≤ s.now → s.drv.enabled = false ∨ s.drv.rxAcking = false →
        takeInterrupt (.alarm .ack) s = .ok { s with drv := { s.drv with alarmAck := none } }) ∧
      (s.now < d → takeInterrupt (.alarm .ack) s = .ok s))

/-- R90, R109: while a send waits for the bus an edge does to the receiver what it does with no send, and the wait's
alarm is armed again for the new deadline. The measure of free time is the spec's decision D10; the time of arming is
log entry 15. -/
def Obligations.EdgeWhileWaiting : Prop :=
  ∀ (t : Micros) (lvl : Level) (s : State), s.drv.enabled = true → s.drv.txPhase = .wait →
    let need := match s.drv.txFreeReq with | .first => 16800 | .retry => 12000 | .afterTx => 7200
    let late := s.drv.txWaitStart + s.par.sendIdleTimeoutUs
    edgeIsr t lvl s =
      (edgeIsr t lvl { s with drv := { s.drv with txPhase := .idle } }).map fun u =>
        { u with
          armedTx := s.now
          drv := { u.drv with
            txPhase := .wait, alarmTx := some (if lvl = .high then min (t + need) late else late) } }

/-- R93, R94, R102: the start bit's low time is accepted from 3300 to 4100 and its period from 4100 to 4900, and the
first data bit then begins; outside the windows the frame is discarded and recorded, and a falling edge opens a new
start bit. R95: the low time of a cell reads as 1 from 200 to 1000, as 0 from 1100 to 1900, as a new start bit from
3300 to 4100, and as malformed otherwise; a new start bit inside a frame abandons it. R92: a rising edge while idle is
ignored. R91, in the entry of R90: a falling edge while idle opens a possible start bit. R104: an edge of a polarity
the state does not expect is malformed. The windows are the spec's decision D5 and the resynchronisation D6, that a
falling edge clears "just transmitted" D11; the time in the record is log entry 18. -/
def Obligations.ReceiveWindows : Prop :=
  (∀ d : Micros, classifyLow d =
    if 200 ≤ d ∧ d ≤ 1000 then .bit true
    else if 1100 ≤ d ∧ d ≤ 1900 then .bit false
    else if 3300 ≤ d ∧ d ≤ 4100 then .start
    else .bad) ∧
  (∀ (t : Micros) (s : State), s.drv.enabled = true → s.drv.txPhase = .idle → s.drv.rxState = .idle →
    edgeIsr t .low s = .ok { s with drv := { s.drv with
      rxTFall := t, rxLen := 0, rxState := .startLow, lineLevel := .low, tLastEdge := t, justTransmitted := false } }) ∧
  ∀ (t : Micros) (s : State), s.drv.enabled = true → s.drv.txPhase = .idle → s.drv.rxAcking = false →
    s.drv.rxTFall ≤ t →
    let d := t - s.drv.rxTFall
    let rise : Drv := { s.drv with lineLevel := .high, tLastEdge := t }
    let fall : Drv := { s.drv with lineLevel := .low, tLastEdge := t, justTransmitted := false }
    let bad := s.err ++ [(s.now, .malformed t)]
    (s.drv.rxState = .startLow →
      edgeIsr t .high s =
        if 3300 ≤ d ∧ d ≤ 4100 then .ok { s with drv := { rise with rxState := .startHigh } }
        else .ok { s with drv := { rise with rxLen := 0, rxState := .idle }, err := bad }) ∧
    (s.drv.rxState = .startHigh →
      edgeIsr t .low s =
        if 4100 ≤ d ∧ d ≤ 4900 then
          .ok { s with drv := { fall with
            rxTFall := t, rxLen := 0, rxBit := 0, rxShift := 0#8, rxEom := false, rxAckOwed := false,
            rxState := .bitLow } }
        else .ok { s with drv := { fall with rxLen := 0, rxTFall := t, rxState := .startLow }, err := bad }) ∧
    (s.drv.rxState = .bitLow → classifyLow d = .start →
      edgeIsr t .high s = .ok { s with drv := { rise with rxLen := 0, rxState := .startHigh } }) ∧
    (s.drv.rxState = .idle → edgeIsr t .high s = .ok { s with drv := rise }) ∧
    (malformedEdge t .high s.drv →
      edgeIsr t .high s = .ok { s with drv := { rise with rxLen := 0, rxState := .idle }, err := bad }) ∧
    (malformedEdge t .low s.drv →
      edgeIsr t .low s = .ok { s with drv := { fall with rxLen := 0, rxTFall := t, rxState := .startLow }, err := bad })

/-- R95 to R97: a data bit is shifted in at the low end; the eighth stores the byte at the frame's length, which
grows, and the first byte decides whether an ACK is owed; the ninth bit is EOM; the tenth is the ACK bit of the byte
just stored, and the block is not the last while EOM is 0. R95 marks a part of its text as its own inference
("derived: from rule R96"). -/
def Obligations.DataBitsAssembleBytes : Prop :=
  ∀ (t : Micros) (b : Bool) (s : State), s.drv.enabled = true → s.drv.txPhase = .idle → s.drv.rxState = .bitLow →
    classifyLow (t - s.drv.rxTFall) = .bit b →
    let d1 : Drv := { s.drv with lineLevel := .high, tLastEdge := t, rxState := .bitHigh }
    let byte : Byte := (s.drv.rxShift <<< 1) ||| (if b then 1#8 else 0#8)
    (s.drv.rxBit < 7 → edgeIsr t .high s = .ok { s with drv := { d1 with rxShift := byte } }) ∧
    (s.drv.rxBit = 7 → s.drv.rxLen < 16 → ∃ u, edgeIsr t .high s = .ok u ∧
      u.drv = { d1 with
        rxShift := byte, rxLen := s.drv.rxLen + 1, rxBuf := u.drv.rxBuf, rxAckOwed := u.drv.rxAckOwed } ∧
      (∀ a, memGet u.drv.rxBuf a = if a = s.drv.rxLen then some byte else memGet s.drv.rxBuf a) ∧
      u.drv.rxAckOwed =
        (if s.drv.rxLen = 0 then decide (headerDest byte = s.drv.selfLa ∧ s.drv.selfLa ≠ 15#4)
         else s.drv.rxAckOwed)) ∧
    (s.drv.rxBit = 8 → edgeIsr t .high s = .ok { s with drv := { d1 with rxEom := b } }) ∧
    (s.drv.rxBit = 9 → s.drv.rxEom = false → 1 ≤ s.drv.rxLen → s.drv.rxLen ≤ 16 → ∃ u, edgeIsr t .high s = .ok u ∧
      u = { s with drv := { d1 with rxAckbit := u.drv.rxAckbit } } ∧
      ∀ a < 16, u.drv.rxAckbit.getLsbD a = if a = s.drv.rxLen - 1 then b else s.drv.rxAckbit.getLsbD a)

/-- R98, R103: the falling edge that ends a cell begins the next; the ACK cell of a frame for this node is driven LOW
until 1500 later; a 17th block discards the frame; a period outside 2000 to 2800 is malformed. The ACK's timing is the
spec's decision D7, resynchronisation D6, the 17th block D9; the time in the record is log entry 18. -/
def Obligations.NextCellBegins : Prop :=
  ∀ (t : Micros) (s : State), s.drv.enabled = true → s.drv.txPhase = .idle → s.drv.rxState = .bitHigh →
    s.drv.rxAcking = false → s.drv.rxTFall ≤ t →
    let d := t - s.drv.rxTFall
    let d1 : Drv := { s.drv with lineLevel := .low, tLastEdge := t, justTransmitted := false }
    let cell : Drv := { d1 with rxTFall := t, rxState := .bitLow }
    (2000 ≤ d ∧ d ≤ 2800 →
      (s.drv.rxBit < 8 ∨ (s.drv.rxBit = 8 ∧ s.drv.rxAckOwed = false) →
        edgeIsr t .low s = .ok { s with drv := { cell with rxBit := s.drv.rxBit + 1 } }) ∧
      (s.drv.rxBit = 8 → s.drv.rxAckOwed = true → ∃ u, edgeIsr t .low s = .ok u ∧
        u.drv = { cell with rxBit := 9, drive := .low, rxAcking := true, alarmAck := some (t + 1500) }) ∧
      (s.drv.rxBit = 9 → s.drv.rxLen < 16 →
        edgeIsr t .low s = .ok { s with drv := { cell with rxBit := 0, rxShift := 0#8, rxEom := false } }) ∧
      (s.drv.rxBit = 9 → s.drv.rxLen = 16 →
        edgeIsr t .low s = .ok { s with
          drv := { d1 with rxLen := 0, rxState := .idle }, err := s.err ++ [(s.now, .malformed t)] })) ∧
    (¬(2000 ≤ d ∧ d ≤ 2800) →
      edgeIsr t .low s = .ok { s with
        drv := { d1 with rxLen := 0, rxTFall := t, rxState := .startLow }, err := s.err ++ [(s.now, .malformed t)] })

/-- R99, R102: a driven ACK is released by its alarm, and by a malformed edge in any receive state, which also disarms
the alarm. The timing is the spec's decision D7, resynchronisation D6; the time in the record is log entry 18. -/
def Obligations.DrivenAckReleased : Prop :=
  ∀ (s : State), s.drv.enabled = true → s.drv.rxAcking = true →
    (∀ d, s.drv.alarmAck = some d → d ≤ s.now → ∃ u, takeInterrupt (.alarm .ack) s = .ok u ∧
      u.drv = { s.drv with drive := .released, rxAcking := false, alarmAck := none }) ∧
    (∀ t lvl, s.drv.txPhase = .idle → malformedEdge t lvl s.drv → ∃ u, edgeIsr t lvl s = .ok u ∧
      u.err = s.err ++ [(s.now, .malformed t)] ∧
      let released : Drv := { s.drv with
        lineLevel := lvl, tLastEdge := t, rxLen := 0, drive := .released, rxAcking := false, alarmAck := none }
      u.drv =
        (match lvl with
         | .low => { released with justTransmitted := false, rxTFall := t, rxState := .startLow }
         | .high => { released with rxState := .idle }))

/-- R100, R101: at the ACK bit of the last block the receiver is idle again; a frame for which an ACK is owed, or a
broadcast, goes to the empty mailbox and wakes the engine; one that finds it full is lost, and one for another node is
dropped. When a frame completes, which are delivered and the mailbox's depth are the spec's decisions D8, D19 and D18;
the ACK bits above the length are log entry 19. -/
def Obligations.FrameDelivered : Prop :=
  ∀ (t : Micros) (b : Bool) (hdr : Byte) (s : State), s.drv.enabled = true → s.drv.txPhase = .idle →
    s.drv.rxState = .bitLow → s.drv.rxBit = 9 → s.drv.rxEom = true → classifyLow (t - s.drv.rxTFall) = .bit b →
    1 ≤ s.drv.rxLen → s.drv.rxLen ≤ 16 → memFilled s.drv.rxBuf s.drv.rxLen → memGet s.drv.rxBuf 0 = some hdr →
    ∃ u, edgeIsr t .high s = .ok u ∧ u.drv.rxState = .idle ∧ u.drv.rxLen = 0 ∧
      ((s.drv.rxAckOwed = true ∨ headerDest hdr = 15#4) ∧ s.drv.mbFull = false →
        u.drv.mbFull = true ∧ u.drv.mbLen = s.drv.rxLen ∧ u.drv.evRx = true ∧
        (∀ a, memGet u.drv.mbBuf a = if a < s.drv.rxLen then memGet s.drv.rxBuf a else memGet s.drv.mbBuf a) ∧
        u.drv.mbAckbit.getLsbD (s.drv.rxLen - 1) = b ∧
        (∀ a < s.drv.rxLen - 1, u.drv.mbAckbit.getLsbD a = s.drv.rxAckbit.getLsbD a)) ∧
      (¬((s.drv.rxAckOwed = true ∨ headerDest hdr = 15#4) ∧ s.drv.mbFull = false) →
        u.drv.mbFull = s.drv.mbFull ∧ u.drv.mbLen = s.drv.mbLen ∧ u.drv.mbBuf = s.drv.mbBuf ∧
        u.drv.mbAckbit = s.drv.mbAckbit ∧ u.drv.evRx = s.drv.evRx)

/-- R107, R110, R111, R120: the alarm of the bus wait begins the attempt if the bus has been free long enough, gives
up at the idle timeout, and is armed again otherwise. The measure of free time and the timeout are the spec's
decisions D10 and D15; subtraction, the record and the time of arming are log entries 24, 18 and 15. -/
def Obligations.BusWaitAlarm : Prop :=
  ∀ (d : Micros) (s : State), s.drv.enabled = true → s.drv.txPhase = .wait → s.drv.alarmTx = some d → d ≤ s.now →
    let need := match s.drv.txFreeReq with | .first => 16800 | .retry => 12000 | .afterTx => 7200
    let free := s.drv.lineLevel = .high ∧ need ≤ s.now - s.drv.tLastEdge
    let late := s.par.sendIdleTimeoutUs ≤ s.now - s.drv.txWaitStart
    (free → ∃ u, takeInterrupt (.alarm .tx) s = .ok u ∧
      u.drv = { s.drv with
        rxState := .idle, rxLen := 0, txUsedBus := true, txByte := 0, txBit := 0, txCellStart := s.now,
        drive := .low, txPhase := .startLow, alarmTx := some (s.now + 3700) }) ∧
    (¬free → late → ∃ u, takeInterrupt (.alarm .tx) s = .ok u ∧ u.err = s.err ++ [(s.now, .timeout s.drv.txWaitStart)] ∧
      u.drv = { s.drv with
        txResult := { s.drv.txResult with timeout := true }, drive := .released, alarmTx := none, txPhase := .idle,
        rxState := .idle, rxLen := 0, justTransmitted := s.drv.justTransmitted || s.drv.txUsedBus, evTx := true }) ∧
    (¬free → ¬late → takeInterrupt (.alarm .tx) s = .ok { s with
      armedTx := s.now
      drv := { s.drv with
        alarmTx := some
          (if s.drv.lineLevel = .high then
            min (s.drv.tLastEdge + need) (s.drv.txWaitStart + s.par.sendIdleTimeoutUs)
           else s.drv.txWaitStart + s.par.sendIdleTimeoutUs) } })

/-- R112: the alarm at the end of the start bit's low time releases the line and is armed for the end of the start
bit. -/
def Obligations.StartBitReleased : Prop :=
  ∀ (d : Micros) (s : State), s.drv.enabled = true → s.drv.txPhase = .startLow → s.drv.alarmTx = some d → d ≤ s.now →
    ∃ u, takeInterrupt (.alarm .tx) s = .ok u ∧
      u.drv = { s.drv with
        drive := .released, txPhase := .startHigh, alarmTx := some (s.drv.txCellStart + 4500) }

/-- R113, R114: at the end of the start bit the first cell is driven: data bits MSB first, EOM 1 on the last byte
only, the ACK cell as 1; LOW for 600 for a 1 and 1500 for a 0. The bit's place is stated for any position. R115: at
the end of a cell's low time the line is released; a 1 is sampled at 1050, a 0 waits for the cell's end at 2400. The
schedule and the ACK cell sent as 1 are the spec's decision D12. -/
def Obligations.CellDrivenAndReleased : Prop :=
  ∀ (d : Micros) (byte : Byte) (s : State), s.drv.enabled = true → s.drv.alarmTx = some d → d ≤ s.now →
    (s.drv.txPhase = .startHigh → s.drv.txByte < s.drv.txLen → memGet s.drv.txBuf s.drv.txByte = some byte →
      ∃ u, takeInterrupt (.alarm .tx) s = .ok u ∧
        u.drv = cellBegun byte s.drv.txByte s.drv.txBit s.now s.drv) ∧
    (s.drv.txPhase = .bitLow → ∃ u, takeInterrupt (.alarm .tx) s = .ok u ∧
      u.drv = { s.drv with
        drive := .released
        txPhase := if s.drv.txValue then .bitPresample else .bitHigh
        alarmTx := some (s.drv.txCellStart + if s.drv.txValue then 1050 else 2400) })

/-- R116: at the sample point of the ACK cell LOW acknowledges a direct frame and rejects a broadcast; in any other
cell HIGH goes on to the cell's end, and LOW ends the send with arbitration lost. The schedule is the spec's decision
D12, the hand-off D14; the time of arming and the record are log entries 15 and 18. -/
def Obligations.SamplePoint : Prop :=
  ∀ (d : Micros) (hdr : Byte) (s : State), s.drv.enabled = true → s.drv.txPhase = .bitPresample →
    s.drv.alarmTx = some d → d ≤ s.now → s.drv.txByte < s.drv.txLen → memFilled s.drv.txBuf s.drv.txLen →
    memGet s.drv.txBuf 0 = some hdr →
    let low := s.drv.drive = .low ∨ s.env.extLow = true
    let on : Drv := { s.drv with txPhase := .bitHigh, alarmTx := some (s.drv.txCellStart + 2400) }
    (s.drv.txBit = 9 → takeInterrupt (.alarm .tx) s =
      .ok { s with
        armedTx := s.now
        drv := { on with txBlockOk := if headerDest hdr = 15#4 then decide ¬low else decide low } }) ∧
    (s.drv.txBit ≠ 9 → ¬low → takeInterrupt (.alarm .tx) s = .ok { s with armedTx := s.now, drv := on }) ∧
    (s.drv.txBit ≠ 9 → low → ∃ u, takeInterrupt (.alarm .tx) s = .ok u ∧ u.drv.txPhase = .idle ∧
      u.drv.txResult = { s.drv.txResult with arbitrationLost := true } ∧ u.drv.evTx = true ∧
      u.err = s.err ++ [(s.now, .arbLost s.drv.txByte s.drv.txBit)])

/-- R119: on arbitration loss the bits already sent are the first bits of the frame being received: the complete
bytes, the bits of the byte in progress, the position, and the ACK owed if the header is known and names this node.
The hand-off is the spec's decision D14; the ACK bits above the length are log entry 19. -/
def Obligations.ArbitrationHandOff : Prop :=
  ∀ (d : Micros) (hdr cur : Byte) (s : State), s.drv.enabled = true → s.drv.txPhase = .bitPresample →
    s.drv.alarmTx = some d → d ≤ s.now → s.drv.txByte < s.drv.txLen → memFilled s.drv.txBuf s.drv.txLen →
    s.drv.txLen ≤ 16 → memGet s.drv.txBuf 0 = some hdr → memGet s.drv.txBuf s.drv.txByte = some cur →
    s.drv.txBit ≤ 8 → s.drv.drive = .low ∨ s.env.extLow = true →
    let n := if s.drv.txBit ≤ 7 then s.drv.txByte else s.drv.txByte + 1
    ∃ u, takeInterrupt (.alarm .tx) s = .ok u ∧ u.drv.rxState = .bitLow ∧ u.drv.rxBit = s.drv.txBit ∧
      u.drv.rxLen = n ∧ u.drv.rxEom = false ∧ u.drv.rxTFall = s.drv.txCellStart ∧ u.drv.rxAcking = false ∧
      u.drv.justTransmitted = false ∧ u.drv.alarmTx = none ∧
      (∀ a < n, memGet u.drv.rxBuf a = memGet s.drv.txBuf a) ∧
      (∀ a < s.drv.txByte, u.drv.rxAckbit.getLsbD a = decide (headerDest hdr = 15#4)) ∧
      (s.drv.txBit ≤ 7 → u.drv.rxShift = cur >>> (8 - s.drv.txBit)) ∧
      u.drv.rxAckOwed = decide (1 ≤ n ∧ headerDest hdr = s.drv.selfLa ∧ s.drv.selfLa ≠ 15#4)

/-- R117, R114, R118, R120: at the end of a cell the next bit, or the first bit of the next byte, is driven, with its
value and its low time; an unacknowledged block ends the attempt, which is made again up to five times with a
signal-free time of 12000; the last block acknowledged ends the send. Retries are the spec's decision D13 and "just
transmitted" D11. -/
def Obligations.CellEnd : Prop :=
  ∀ (d : Micros) (byte : Byte) (s : State), s.drv.enabled = true → s.drv.txPhase = .bitHigh →
    s.drv.alarmTx = some d → d ≤ s.now → s.drv.txByte < s.drv.txLen → memFilled s.drv.txBuf s.drv.txLen →
    let ended (d' : Drv) : Drv := { d' with
      drive := .released, alarmTx := none, txPhase := .idle, rxState := .idle, rxLen := 0,
      justTransmitted := s.drv.justTransmitted || s.drv.txUsedBus, evTx := true }
    let late := s.now + s.par.sendIdleTimeoutUs
    (s.drv.txBit < 9 → memGet s.drv.txBuf s.drv.txByte = some byte →
      ∃ u, takeInterrupt (.alarm .tx) s = .ok u ∧
        u.drv = cellBegun byte s.drv.txByte (s.drv.txBit + 1) s.now s.drv) ∧
    (s.drv.txBit = 9 → s.drv.txBlockOk = true → s.drv.txByte + 1 < s.drv.txLen →
      memGet s.drv.txBuf (s.drv.txByte + 1) = some byte →
      ∃ u, takeInterrupt (.alarm .tx) s = .ok u ∧
        u.drv = cellBegun byte (s.drv.txByte + 1) 0 s.now s.drv) ∧
    (s.drv.txBit = 9 → s.drv.txBlockOk = true → s.drv.txByte + 1 = s.drv.txLen →
      ∃ u, takeInterrupt (.alarm .tx) s = .ok u ∧
        u.drv = ended { s.drv with txResult := { s.drv.txResult with acked := true } }) ∧
    (s.drv.txBit = 9 → s.drv.txBlockOk = false → s.drv.txAttempt < 5 →
      ∃ u, takeInterrupt (.alarm .tx) s = .ok u ∧ u.err = s.err ++ [(s.now, .nack s.drv.txAttempt)] ∧
        u.drv = { s.drv with
          txAttempt := s.drv.txAttempt + 1, txFreeReq := .retry, txPhase := .wait, txWaitStart := s.now,
          alarmTx := some (if s.drv.lineLevel = .high then min (s.drv.tLastEdge + 12000) late else late) }) ∧
    (s.drv.txBit = 9 → s.drv.txBlockOk = false → 5 ≤ s.drv.txAttempt →
      ∃ u, takeInterrupt (.alarm .tx) s = .ok u ∧ u.err = s.err ++ [(s.now, .nack s.drv.txAttempt)] ∧
        u.drv = ended s.drv)

/-- R205: a handler writes the driver, the observation trace and the line's pending edges only (and, of the model's
own, the times of arming), and leaves the published address and the request's bytes alone; it does not read the
engine, the configuration, the key queue or the indicator: with any other values in them it does the same to
everything else, and leaves those values. An engine step never drives the line LOW. The split of the contexts is the
spec's decision D41; the times of arming are log entry 15. -/
def Obligations.HandlersKeepToTheDriver : Prop :=
  (∀ (src : Source) (s t : State), takeInterrupt src s = .ok t →
    t.eng = s.eng ∧ t.cfg = s.cfg ∧ t.keyq = s.keyq ∧ t.ind = s.ind ∧ t.now = s.now ∧ t.env = s.env ∧ t.par = s.par ∧
    t.drv.enabled = s.drv.enabled ∧ t.drv.selfLa = s.drv.selfLa ∧ t.drv.txBuf = s.drv.txBuf ∧
    t.drv.txLen = s.drv.txLen) ∧
  (∀ (src : Source) (e : Eng) (c : Cfg) (k : List Byte) (n : List Indicator) (s : State),
    takeInterrupt src (withTask e c k n s) = (takeInterrupt src s).map (withTask e c k n)) ∧
  (∀ s t : State, engineStep s = .next t → t.drv.drive = s.drv.drive ∨ t.drv.drive = .released)

/-! ## The line and the environment -/

/-- R87, R88, R196: the line is LOW when this node or another drives it; a change of this node's drive, or of the
others', makes an edge pending, with this instant and the new level, exactly when the line's level changes. In every
step of the machine the pending edges lose the one that is taken, if an edge is, and gain one at the end exactly when
the line changes. Queued edges are the spec's decision D2; a list of them in the state is the model's form (log entry
1). -/
def Obligations.LineChangesMakeEdges : Prop :=
  (∀ s : State, lineNow s = if s.drv.drive = .low ∨ s.env.extLow = true then .low else .high) ∧
  (∀ (drive : Drive) (s : State),
    let u := setDrive drive s
    u = { s with drv := { s.drv with drive := drive }, edges := u.edges } ∧
    u.edges = s.edges ++ (if lineNow u = lineNow s then [] else [(s.now, lineNow u)])) ∧
  (∀ (low : Bool) (s : State),
    let u := setExtLow low s
    u = { s with env := { s.env with extLow := low }, edges := u.edges } ∧
    u.edges = s.edges ++ (if lineNow u = lineNow s then [] else [(s.now, lineNow u)])) ∧
  ∀ s t : State, step s = .next t →
    t.edges = (if (pick s).1 = .edge then s.edges.tail else s.edges) ++
      (if lineNow t = lineNow s then [] else [(s.now, lineNow t)])

/-- R8, R41, R43, R57, R62: the environment's step takes its next input. A change of the others' drive changes the
line only, a removal takes the head of the key queue only, a request for a non-goal and a write of an owned field are
refused by name; with no input queued the coming ones are drawn. It takes an input only when its time has come. In
every step of the machine the key queue loses its head or gains bytes at the end. The removal at an instant of the
consumer's choice is the spec's decision D35; the queue of inputs and its draws are log entries 1 and 2, the refusals
log entries 16 and 22. -/
def Obligations.EnvironmentStep : Prop :=
  (∀ (τ : Micros) (rest : List (Micros × EnvInput)) (s : State),
    let s1 : State := { s with env := { s.env with script := rest } }
    (∀ low, s.env.script = (τ, .event (.line low)) :: rest → envStep s = .next (setExtLow low s1)) ∧
    (s.env.script = (τ, .event .pop) :: rest → envStep s = .next { s1 with keyq := s.keyq.tail }) ∧
    (∀ g, s.env.script = (τ, .request g) :: rest → envStep s = .refused (.nonGoal g)) ∧
    (∀ o, s.env.script = (τ, .foreignWrite o) :: rest → envStep s = .refused (.notOwner o)) ∧
    (s.env.script = [] → envStep s = .next { s with env := { s.env with
      script := (Config.envDraw s.env.draws).map fun e => (e.1, .event e.2), draws := s.env.draws + 1 } }) ∧
    ((pick s).1 = .env → step s = withinRun (envStep (pick s).2) ∧
      ∀ i, s.env.script = (τ, i) :: rest → τ ≤ s.now)) ∧
  ∀ s t : State, step s = .next t → t.keyq = s.keyq.tail ∨ ∃ bytes, t.keyq = s.keyq ++ bytes

/-! ## The whole machine -/

/-- R38, R40, R205: only the loading of the configuration writes it, and no step writes the parameters. That the OPEN
parameters are fields of the state is the model's form (log entry 3). -/
def Obligations.ConfigurationStable : Prop :=
  ∀ s t : State, step s = .next t →
    t.par = s.par ∧ (t.cfg ≠ s.cfg → s.eng.todo = [] ∧ s.eng.ctl = .load)

/-- R151, R193: the indicator's calls and the observation trace only grow, at the end. The trace is the spec's
decision D50. -/
def Obligations.OutputsOnlyGrow : Prop :=
  ∀ s t : State, step s = .next t → (∃ n, t.ind = s.ind ++ n) ∧ (∃ e, t.err = s.err ++ e)

/-- R208, R203: time never goes back. It passes only while the engine has no step to take, no input is due, and no
handler is pending or every pending one has latency left; then never past a pending handler's latency, an alarm's
deadline, the time the engine waits for, or the next queued input that lies ahead. When its turn comes it does pass:
with no handler pending, to the earliest of these deadlines, and not at all with none ahead; with one pending, by at
least one microsecond. R23: it stays below 2 to the 64. The time base is the spec's decision D1; the scheduler, the
queue of inputs, the end of a run and the latency are the model's form (log entries 1, 2, 4 and 15). -/
def Obligations.TimePassesToDeadlines : Prop :=
  (∀ s t : State, step s = .next t →
    s.now ≤ t.now ∧ t.now < 2 ^ 64 ∧
    (s.now < t.now →
      engineReady s = false ∧ envReady s = false ∧ (pendingHandlers s = [] ∨ mayDelay s = true) ∧
      (∀ e es, s.edges = e :: es → t.now ≤ e.1 + s.par.isrLatencyMaxUs) ∧
      (∀ d, s.drv.alarmTx = some d → d ≤ s.now → t.now ≤ max d s.armedTx + s.par.isrLatencyMaxUs) ∧
      (∀ d, s.drv.alarmAck = some d → d ≤ s.now → t.now ≤ max d s.armedAck + s.par.isrLatencyMaxUs)) ∧
    (∀ d, s.drv.alarmTx = some d → s.now < d → t.now ≤ d) ∧
    (∀ d, s.drv.alarmAck = some d → s.now < d → t.now ≤ d) ∧
    (∀ b d rest, s.eng.todo = .keyWait b d :: rest → s.now < d → t.now ≤ d) ∧
    (s.eng.todo = [] → s.eng.ctl = .settle → s.now < s.eng.tLoaded + s.cfg.edidDelayMs.toNat * 1000 →
      t.now ≤ s.eng.tLoaded + s.cfg.edidDelayMs.toNat * 1000) ∧
    (∀ τ i rest, s.env.script = (τ, i) :: rest → s.now < τ → t.now ≤ τ)) ∧
  ∀ s : State, (pick s).1 = .time →
    let ahead (τ : Micros) : Prop := s.now < τ ∧
      (s.drv.alarmTx = some τ ∨ s.drv.alarmAck = some τ ∨
       (∃ b rest, s.eng.todo = .keyWait b τ :: rest) ∨
       (s.eng.todo = [] ∧ s.eng.ctl = .settle ∧ τ = s.eng.tLoaded + s.cfg.edidDelayMs.toNat * 1000) ∨
       ∃ i rest, s.env.script = (τ, i) :: rest)
    (∀ τ, pendingHandlers s = [] → ahead τ → (∀ x, ahead x → τ ≤ x) →
      step s = withinRun (.next { (pick s).2 with now := τ })) ∧
    (pendingHandlers s = [] → (∀ τ, ¬ahead τ) → step s = withinRun (.next (pick s).2)) ∧
    (∀ t, pendingHandlers s ≠ [] → step s = .next t → s.now < t.now)
end

