-- ==== Sys2Proof/Laws/Decode.lean ====
section
/-! SUPPORT. Laws of the header byte, of the sanity limits, and of the decoder's row choice. -/

namespace Sys2Proof

open Machine

theorem header_laws : ∀ i d : La, headerInit (header i d) = i ∧ headerDest (header i d) = d := by decide

/-- The initiator comes back from a header byte (41_frame_codec R126, R127). -/
@[simp] theorem headerInit_header (i d : La) : headerInit (header i d) = i := (header_laws i d).1

/-- The destination comes back from a header byte (41_frame_codec R126, R127). -/
@[simp] theorem headerDest_header (i d : La) : headerDest (header i d) = d := (header_laws i d).2

/-- A header byte is the one of its own nibbles. -/
theorem header_headerInit_headerDest : ∀ b : Byte, header (headerInit b) (headerDest b) = b := by decide

/-- A property of the row an opcode selects, from the property of each row with its opcode. -/
theorem rxRow_direction (i d : La) (op : Byte) (ops : List Byte) : (rxRow i d op ops).direction = .rx := by
  unfold rxRow
  repeat' refine iteInduction (motive := fun x => Instr.direction x = .rx) (fun _ => ?_) (fun _ => ?_)
  all_goals rfl

/-- An opcode that no row has is the catch-all's (30_encoding R82). -/
theorem rxRow_unrecognized (i d : La) {op : Byte} (ops : List Byte) (h : op ∉ rxOpcodes) :
    rxRow i d op ops = .unrecognized i d op ops := by
  simp only [rxOpcodes, List.mem_append, List.mem_cons, not_or, List.not_mem_nil] at h
  obtain ⟨⟨a1, a2, a3, a4, a5, a6, a7, a8, a9, a10, a11, a12, -⟩, b1, b2, b3, b4, b5, b6, b7, b8, b9, b10, b11, b12, -⟩ :=
    h
  rw [rxRow, if_neg a1, if_neg a2, if_neg a3, if_neg a4, if_neg a5, if_neg a6, if_neg a7, if_neg a8, if_neg a9,
    if_neg a10, if_neg a11, if_neg a12, if_neg b1, if_neg b2, if_neg b3, if_neg b4, if_neg b5, if_neg b6, if_neg b7,
    if_neg b8, if_neg b9, if_neg b10, if_neg b11, if_neg b12]

/-- A frame of length 2 to 16 with distinct nibbles is sane (41_frame_codec R128). -/
theorem sane_message {i d : La} (op : Byte) {ops : List Byte} (h : i ≠ d) (hl : ops.length + 2 ≤ maxFrame) :
    sane (message i d op ops) = true := by
  simp [sane, message, h, hl]

/-- The decoder's two length and header checks, passed by a message of distinct nibbles. -/
theorem decodeRx_message {i d : La} (op : Byte) {ops : List Byte} (h : i ≠ d) (hl : ops.length + 2 ≤ maxFrame) :
    decodeRx (message i d op ops) = .ok (rxRow i d op ops) := by
  simp [decodeRx, message, h, Nat.not_lt.2 hl]

/-- The same for a transmitted message. -/
theorem decodeTx_message {i d : La} (op : Byte) {ops : List Byte} (h : i ≠ d) (hl : ops.length + 2 ≤ maxFrame) :
    decodeTx (message i d op ops) = txRow i d op ops := by
  simp [decodeTx, message, h, Nat.not_lt.2 hl]

/-- What the decoder of received frames answers is a received message. -/
theorem decode_rx_direction {bs : List Byte} {i : Instr} (h : decode .rx bs = .ok i) : i.direction = .rx := by
  match bs with
  | [] => cases h
  | [b] => cases h; rfl
  | b :: op :: ops =>
    simp only [decode, decodeRx] at h
    split at h
    · cases h
    · split at h
      · cases h
      · cases h
        exact rxRow_direction _ _ _ _

end Sys2Proof
end

