-- ==== Sys2Proof/Laws/Memory.lean ====
section
/-! SUPPORT. Laws of the storage spaces: read after write, the canonical form, and what the buffer operations answer. -/

namespace Sys2Proof.Machine

@[simp] theorem memGet_nil (i : Nat) : memGet [] i = none := rfl

theorem memGet_memSet_same (m : Memory) (i : Nat) (b : Byte) : memGet (memSet m i b) i = some b := by
  induction m with
  | nil => simp [memSet, memGet]
  | cons c m ih =>
    simp only [memSet]
    split
    · simp [memGet]
    · split
      · simp [memGet]
      · rename_i h1 h2
        simp [memGet, ih, Ne.symm h2]

theorem memGet_memSet_other (m : Memory) {i j : Nat} (b : Byte) (h : j ≠ i) :
    memGet (memSet m i b) j = memGet m j := by
  induction m with
  | nil => simp [memSet, memGet, Ne.symm h]
  | cons c m ih =>
    simp only [memSet]
    split
    · simp [memGet, Ne.symm h]
    · split
      · rename_i h2
        subst h2
        simp [memGet, Ne.symm h]
      · simp [memGet, ih]

theorem wfFrom_mono {size lo lo' : Nat} {m : Memory} (h : lo' ≤ lo) (hm : Memory.wfFrom size lo m = true) :
    Memory.wfFrom size lo' m = true := by
  cases m with
  | nil => rfl
  | cons c m =>
    simp only [Memory.wfFrom, Bool.and_eq_true, decide_eq_true_eq] at hm ⊢
    exact ⟨⟨by omega, hm.1.2⟩, hm.2⟩

theorem wfFrom_memSet {size lo : Nat} {m : Memory} {i : Nat} (b : Byte) (hlo : lo ≤ i) (hi : i < size)
    (hm : Memory.wfFrom size lo m = true) : Memory.wfFrom size lo (memSet m i b) = true := by
  induction m generalizing lo with
  | nil => simp [memSet, Memory.wfFrom, hlo, hi]
  | cons c m ih =>
    simp only [Memory.wfFrom, Bool.and_eq_true, decide_eq_true_eq] at hm
    obtain ⟨⟨h1, h2⟩, h3⟩ := hm
    simp only [memSet]
    split
    · rename_i h
      simp only [Memory.wfFrom, Bool.and_eq_true, decide_eq_true_eq]
      exact ⟨⟨hlo, hi⟩, ⟨by omega, h2⟩, h3⟩
    · split
      · rename_i h
        subst h
        simp only [Memory.wfFrom, Bool.and_eq_true, decide_eq_true_eq]
        exact ⟨⟨hlo, hi⟩, h3⟩
      · simp only [Memory.wfFrom, Bool.and_eq_true, decide_eq_true_eq]
        exact ⟨⟨h1, h2⟩, ih (by omega) h3⟩

/-- Writing a byte keeps the canonical form. -/
theorem wf_memSet {size : Nat} {m : Memory} {i : Nat} (b : Byte) (hi : i < size) (hm : Memory.wf size m = true) :
    Memory.wf size (memSet m i b) = true := wfFrom_memSet b (Nat.zero_le i) hi hm

/-- Storing bytes below `size` keeps the canonical form. -/
theorem wf_memStore {size : Nat} (bs : List Byte) {m : Memory} {lo : Nat} (h : lo + bs.length ≤ size)
    (hm : Memory.wf size m = true) : Memory.wf size (memStore m lo bs) = true := by
  induction bs generalizing m lo with
  | nil => exact hm
  | cons b bs ih =>
    simp only [List.length_cons] at h
    exact ih (by omega) (wf_memSet b (by omega) hm)

theorem wf_memCanon (size : Nat) (m : Memory) : Memory.wf size (memCanon size m) = true := by
  induction m with
  | nil => rfl
  | cons c m ih =>
    simp only [memCanon, List.foldr_cons] at ih ⊢
    split
    · rename_i h
      exact wf_memSet c.2 h ih
    · exact ih

/-- Below the stored bytes nothing changes. -/
theorem memGet_memStore_below (bs : List Byte) (m : Memory) {lo i : Nat} (h : i < lo) :
    memGet (memStore m lo bs) i = memGet m i := by
  induction bs generalizing m lo with
  | nil => rfl
  | cons b bs ih => rw [memStore, ih _ (by omega), memGet_memSet_other m b (by omega)]

/-- What a buffer holds after a store at index 0: the bytes stored, and above them what it held. -/
theorem memGet_memStore (bs : List Byte) (m : Memory) (lo i : Nat) :
    memGet (memStore m lo bs) (lo + i) = if i < bs.length then bs[i]? else memGet m (lo + i) := by
  induction bs generalizing m lo i with
  | nil => simp [memStore]
  | cons b bs ih =>
    cases i with
    | zero => simp [memStore, memGet_memStore_below bs _ (Nat.lt_succ_self lo), memGet_memSet_same]
    | succ i =>
      have h : lo + (i + 1) = lo + 1 + i := by omega
      rw [memStore, h, ih, memGet_memSet_other m b (by omega)]
      simp

theorem memGet_memStore_zero (bs : List Byte) (m : Memory) (i : Nat) :
    memGet (memStore m 0 bs) i = if i < bs.length then bs[i]? else memGet m i := by
  have h := memGet_memStore bs m 0 i
  simpa using h

theorem memFilled_zero (m : Memory) : memFilled m 0 := fun i h => absurd h (Nat.not_lt_zero i)

theorem memFilled_memStore (m : Memory) (bs : List Byte) : memFilled (memStore m 0 bs) bs.length := by
  intro i h
  exact ⟨bs[i], by simp [memGet_memStore_zero, h]⟩

/-- Filling one more byte at the end. -/
theorem memFilled_memSet {m : Memory} {n : Nat} (b : Byte) (h : memFilled m n) : memFilled (memSet m n b) (n + 1) := by
  intro i hi
  by_cases hin : i = n
  · exact ⟨b, hin ▸ memGet_memSet_same m n b⟩
  · obtain ⟨b', hb'⟩ := h i (by omega)
    exact ⟨b', by rw [memGet_memSet_other m b hin, hb']⟩

/-- A read below the valid length of a filled buffer answers. -/
theorem bufRead_ok {m : Memory} {len i : Nat} (hf : memFilled m len) (hi : i < len) :
    ∃ b, bufRead m len i = .ok b ∧ memGet m i = some b := by
  obtain ⟨b, hb⟩ := hf i hi
  exact ⟨b, by simp [bufRead, hi, hb], hb⟩

theorem bufRead_eq_ok {m : Memory} {len i : Nat} {b : Byte} (h : bufRead m len i = .ok b) :
    i < len ∧ memGet m i = some b := by
  unfold bufRead at h
  split at h
  · rename_i hi
    split at h
    · rename_i b' hb
      cases h
      exact ⟨hi, hb⟩
    · cases h
  · cases h

theorem bufReadFrom_ok {m : Memory} {len : Nat} (hf : memFilled m len) (n i : Nat) (h : i + n ≤ len) :
    ∃ bs, bufReadFrom m len i n = .ok bs ∧ bs.length = n := by
  induction n generalizing i with
  | zero => exact ⟨[], rfl, rfl⟩
  | succ n ih =>
    obtain ⟨b, hb, -⟩ := bufRead_ok hf (i := i) (by omega)
    obtain ⟨bs, hbs, hl⟩ := ih (i + 1) (by omega)
    exact ⟨b :: bs, by simp [bufReadFrom, hb, hbs], by simp [hl]⟩

/-- Taking the first `n` bytes of a filled buffer answers `n` bytes. -/
theorem bufTake_ok {m : Memory} {len n : Nat} (hf : memFilled m len) (h : n ≤ len) :
    ∃ bs, bufTake m len n = .ok bs ∧ bs.length = n := bufReadFrom_ok hf n 0 (by omega)

theorem bufReadFrom_eq_ok {m : Memory} {len : Nat} (n i : Nat) {bs : List Byte}
    (h : bufReadFrom m len i n = .ok bs) : bs.length = n ∧ ∀ k < n, memGet m (i + k) = bs[k]? := by
  induction n generalizing i bs with
  | zero => cases h; exact ⟨rfl, fun k hk => absurd hk (Nat.not_lt_zero k)⟩
  | succ n ih =>
    simp only [bufReadFrom] at h
    split at h
    · cases h
    · rename_i b hb
      split at h
      · cases h
      · rename_i bs' hbs
        cases h
        obtain ⟨hl, hg⟩ := ih (i + 1) hbs
        refine ⟨by simp [hl], fun k hk => ?_⟩
        cases k with
        | zero => simpa using (bufRead_eq_ok hb).2
        | succ k =>
          have := hg k (by omega)
          rw [show i + (k + 1) = i + 1 + k by omega, this]
          simp

/-- What `bufTake` answers: `n` bytes, each the byte the buffer holds. -/
theorem bufTake_eq_ok {m : Memory} {len n : Nat} {bs : List Byte} (h : bufTake m len n = .ok bs) :
    bs.length = n ∧ ∀ k < n, memGet m k = bs[k]? := by
  simpa using bufReadFrom_eq_ok n 0 h

/-- A buffer answers the bytes stored in it. -/
theorem bufTake_memStore (m : Memory) (bs : List Byte) : bufTake (memStore m 0 bs) bs.length bs.length = .ok bs := by
  obtain ⟨bs', h, -⟩ := bufTake_ok (memFilled_memStore m bs) (Nat.le_refl bs.length)
  obtain ⟨hl, hg⟩ := bufTake_eq_ok h
  rw [h]
  congr 1
  apply List.ext_getElem?
  intro k
  by_cases hk : k < bs.length
  · rw [← hg k hk, memGet_memStore_zero, if_pos hk]
  · rw [List.getElem?_eq_none (by omega), List.getElem?_eq_none (by omega)]

/-- What `bufWrite` answers. -/
theorem bufWrite_eq_ok {m m' : Memory} {i : Nat} {b : Byte} (h : bufWrite m i b = .ok m') :
    i < maxFrame ∧ m' = memSet m i b := by
  unfold bufWrite at h
  split at h
  · rename_i hi
    cases h
    exact ⟨hi, rfl⟩
  · cases h

end Sys2Proof.Machine
end

