-- ==== Sys2Proof/Laws/State.lean ====
section
/-! SUPPORT. What each update of the state leaves in each field, so that no later proof unfolds an update. -/

namespace Sys2Proof.Machine

variable (s : State)

/-! ### `updDrv` -/

@[simp] theorem updDrv_now (f : Drv → Drv) : (updDrv f s).now = s.now := rfl
@[simp] theorem updDrv_drv (f : Drv → Drv) : (updDrv f s).drv = f s.drv := rfl
@[simp] theorem updDrv_eng (f : Drv → Drv) : (updDrv f s).eng = s.eng := rfl
@[simp] theorem updDrv_cfg (f : Drv → Drv) : (updDrv f s).cfg = s.cfg := rfl
@[simp] theorem updDrv_keyq (f : Drv → Drv) : (updDrv f s).keyq = s.keyq := rfl
@[simp] theorem updDrv_ind (f : Drv → Drv) : (updDrv f s).ind = s.ind := rfl
@[simp] theorem updDrv_err (f : Drv → Drv) : (updDrv f s).err = s.err := rfl
@[simp] theorem updDrv_edges (f : Drv → Drv) : (updDrv f s).edges = s.edges := rfl
@[simp] theorem updDrv_env (f : Drv → Drv) : (updDrv f s).env = s.env := rfl
@[simp] theorem updDrv_par (f : Drv → Drv) : (updDrv f s).par = s.par := rfl
@[simp] theorem updDrv_armedTx (f : Drv → Drv) : (updDrv f s).armedTx = s.armedTx := rfl
@[simp] theorem updDrv_armedAck (f : Drv → Drv) : (updDrv f s).armedAck = s.armedAck := rfl

/-! ### `updEng` -/

@[simp] theorem updEng_now (f : Eng → Eng) : (updEng f s).now = s.now := rfl
@[simp] theorem updEng_drv (f : Eng → Eng) : (updEng f s).drv = s.drv := rfl
@[simp] theorem updEng_eng (f : Eng → Eng) : (updEng f s).eng = f s.eng := rfl
@[simp] theorem updEng_cfg (f : Eng → Eng) : (updEng f s).cfg = s.cfg := rfl
@[simp] theorem updEng_keyq (f : Eng → Eng) : (updEng f s).keyq = s.keyq := rfl
@[simp] theorem updEng_ind (f : Eng → Eng) : (updEng f s).ind = s.ind := rfl
@[simp] theorem updEng_err (f : Eng → Eng) : (updEng f s).err = s.err := rfl
@[simp] theorem updEng_edges (f : Eng → Eng) : (updEng f s).edges = s.edges := rfl
@[simp] theorem updEng_env (f : Eng → Eng) : (updEng f s).env = s.env := rfl
@[simp] theorem updEng_par (f : Eng → Eng) : (updEng f s).par = s.par := rfl
@[simp] theorem updEng_armedTx (f : Eng → Eng) : (updEng f s).armedTx = s.armedTx := rfl
@[simp] theorem updEng_armedAck (f : Eng → Eng) : (updEng f s).armedAck = s.armedAck := rfl

/-! ### `updEnv` -/

@[simp] theorem updEnv_now (f : Env → Env) : (updEnv f s).now = s.now := rfl
@[simp] theorem updEnv_drv (f : Env → Env) : (updEnv f s).drv = s.drv := rfl
@[simp] theorem updEnv_eng (f : Env → Env) : (updEnv f s).eng = s.eng := rfl
@[simp] theorem updEnv_cfg (f : Env → Env) : (updEnv f s).cfg = s.cfg := rfl
@[simp] theorem updEnv_keyq (f : Env → Env) : (updEnv f s).keyq = s.keyq := rfl
@[simp] theorem updEnv_ind (f : Env → Env) : (updEnv f s).ind = s.ind := rfl
@[simp] theorem updEnv_err (f : Env → Env) : (updEnv f s).err = s.err := rfl
@[simp] theorem updEnv_edges (f : Env → Env) : (updEnv f s).edges = s.edges := rfl
@[simp] theorem updEnv_env (f : Env → Env) : (updEnv f s).env = f s.env := rfl
@[simp] theorem updEnv_par (f : Env → Env) : (updEnv f s).par = s.par := rfl
@[simp] theorem updEnv_armedTx (f : Env → Env) : (updEnv f s).armedTx = s.armedTx := rfl
@[simp] theorem updEnv_armedAck (f : Env → Env) : (updEnv f s).armedAck = s.armedAck := rfl

/-! ### `noteEdge` -/

@[simp] theorem noteEdge_now (l : Level) : (noteEdge l s).now = s.now := by
 unfold noteEdge; split <;> rfl
@[simp] theorem noteEdge_drv (l : Level) : (noteEdge l s).drv = s.drv := by
 unfold noteEdge; split <;> rfl
@[simp] theorem noteEdge_eng (l : Level) : (noteEdge l s).eng = s.eng := by
 unfold noteEdge; split <;> rfl
@[simp] theorem noteEdge_cfg (l : Level) : (noteEdge l s).cfg = s.cfg := by
 unfold noteEdge; split <;> rfl
@[simp] theorem noteEdge_keyq (l : Level) : (noteEdge l s).keyq = s.keyq := by
 unfold noteEdge; split <;> rfl
@[simp] theorem noteEdge_ind (l : Level) : (noteEdge l s).ind = s.ind := by
 unfold noteEdge; split <;> rfl
@[simp] theorem noteEdge_err (l : Level) : (noteEdge l s).err = s.err := by
 unfold noteEdge; split <;> rfl
@[simp] theorem noteEdge_env (l : Level) : (noteEdge l s).env = s.env := by
 unfold noteEdge; split <;> rfl
@[simp] theorem noteEdge_par (l : Level) : (noteEdge l s).par = s.par := by
 unfold noteEdge; split <;> rfl
@[simp] theorem noteEdge_armedTx (l : Level) : (noteEdge l s).armedTx = s.armedTx := by
 unfold noteEdge; split <;> rfl
@[simp] theorem noteEdge_armedAck (l : Level) : (noteEdge l s).armedAck = s.armedAck := by
 unfold noteEdge; split <;> rfl
theorem noteEdge_edges (l : Level) :
    (noteEdge l s).edges = if lineNow s = l then s.edges else s.edges ++ [(s.now, lineNow s)] := by
  unfold noteEdge; split <;> rfl

/-! ### `setDrive`, `driveLow`, `release` -/

@[simp] theorem setDrive_now (d : Drive) : (setDrive d s).now = s.now := by simp [setDrive]
@[simp] theorem setDrive_drv (d : Drive) : (setDrive d s).drv = { s.drv with drive := d } := by simp [setDrive]
@[simp] theorem setDrive_eng (d : Drive) : (setDrive d s).eng = s.eng := by simp [setDrive]
@[simp] theorem setDrive_cfg (d : Drive) : (setDrive d s).cfg = s.cfg := by simp [setDrive]
@[simp] theorem setDrive_keyq (d : Drive) : (setDrive d s).keyq = s.keyq := by simp [setDrive]
@[simp] theorem setDrive_ind (d : Drive) : (setDrive d s).ind = s.ind := by simp [setDrive]
@[simp] theorem setDrive_err (d : Drive) : (setDrive d s).err = s.err := by simp [setDrive]
@[simp] theorem setDrive_env (d : Drive) : (setDrive d s).env = s.env := by simp [setDrive]
@[simp] theorem setDrive_par (d : Drive) : (setDrive d s).par = s.par := by simp [setDrive]
@[simp] theorem setDrive_armedTx (d : Drive) : (setDrive d s).armedTx = s.armedTx := by simp [setDrive]
@[simp] theorem setDrive_armedAck (d : Drive) : (setDrive d s).armedAck = s.armedAck := by simp [setDrive]
@[simp] theorem driveLow_eq : driveLow s = setDrive .low s := rfl
@[simp] theorem release_eq : release s = setDrive .released s := rfl

/-- The edge a change of the drive causes. -/
theorem setDrive_edges (d : Drive) :
    (setDrive d s).edges =
      if lineLevel d s.env.extLow = lineNow s then s.edges else s.edges ++ [(s.now, lineLevel d s.env.extLow)] := by
  simp only [setDrive, noteEdge_edges]
  rfl

/-! ### `setExtLow` -/

@[simp] theorem setExtLow_now (b : Bool) : (setExtLow b s).now = s.now := by simp [setExtLow]
@[simp] theorem setExtLow_drv (b : Bool) : (setExtLow b s).drv = s.drv := by simp [setExtLow]
@[simp] theorem setExtLow_eng (b : Bool) : (setExtLow b s).eng = s.eng := by simp [setExtLow]
@[simp] theorem setExtLow_cfg (b : Bool) : (setExtLow b s).cfg = s.cfg := by simp [setExtLow]
@[simp] theorem setExtLow_keyq (b : Bool) : (setExtLow b s).keyq = s.keyq := by simp [setExtLow]
@[simp] theorem setExtLow_ind (b : Bool) : (setExtLow b s).ind = s.ind := by simp [setExtLow]
@[simp] theorem setExtLow_err (b : Bool) : (setExtLow b s).err = s.err := by simp [setExtLow]
@[simp] theorem setExtLow_env (b : Bool) : (setExtLow b s).env = { s.env with extLow := b } := by simp [setExtLow]
@[simp] theorem setExtLow_par (b : Bool) : (setExtLow b s).par = s.par := by simp [setExtLow]
@[simp] theorem setExtLow_armedTx (b : Bool) : (setExtLow b s).armedTx = s.armedTx := by simp [setExtLow]
@[simp] theorem setExtLow_armedAck (b : Bool) : (setExtLow b s).armedAck = s.armedAck := by simp [setExtLow]

/-! ### `arm .tx` -/

@[simp] theorem armTx_now (t : Micros) : (arm .tx t s).now = s.now := rfl
@[simp] theorem armTx_drv (t : Micros) : (arm .tx t s).drv = { s.drv with alarmTx := some t } := rfl
@[simp] theorem armTx_eng (t : Micros) : (arm .tx t s).eng = s.eng := rfl
@[simp] theorem armTx_cfg (t : Micros) : (arm .tx t s).cfg = s.cfg := rfl
@[simp] theorem armTx_keyq (t : Micros) : (arm .tx t s).keyq = s.keyq := rfl
@[simp] theorem armTx_ind (t : Micros) : (arm .tx t s).ind = s.ind := rfl
@[simp] theorem armTx_err (t : Micros) : (arm .tx t s).err = s.err := rfl
@[simp] theorem armTx_edges (t : Micros) : (arm .tx t s).edges = s.edges := rfl
@[simp] theorem armTx_env (t : Micros) : (arm .tx t s).env = s.env := rfl
@[simp] theorem armTx_par (t : Micros) : (arm .tx t s).par = s.par := rfl
@[simp] theorem armTx_armedTx (t : Micros) : (arm .tx t s).armedTx = s.now := rfl
@[simp] theorem armTx_armedAck (t : Micros) : (arm .tx t s).armedAck = s.armedAck := rfl

/-! ### `cancel .tx` -/

@[simp] theorem cancelTx_now : (cancel .tx s).now = s.now := rfl
@[simp] theorem cancelTx_drv : (cancel .tx s).drv = { s.drv with alarmTx := none } := rfl
@[simp] theorem cancelTx_eng : (cancel .tx s).eng = s.eng := rfl
@[simp] theorem cancelTx_cfg : (cancel .tx s).cfg = s.cfg := rfl
@[simp] theorem cancelTx_keyq : (cancel .tx s).keyq = s.keyq := rfl
@[simp] theorem cancelTx_ind : (cancel .tx s).ind = s.ind := rfl
@[simp] theorem cancelTx_err : (cancel .tx s).err = s.err := rfl
@[simp] theorem cancelTx_edges : (cancel .tx s).edges = s.edges := rfl
@[simp] theorem cancelTx_env : (cancel .tx s).env = s.env := rfl
@[simp] theorem cancelTx_par : (cancel .tx s).par = s.par := rfl
@[simp] theorem cancelTx_armedTx : (cancel .tx s).armedTx = s.armedTx := rfl
@[simp] theorem cancelTx_armedAck : (cancel .tx s).armedAck = s.armedAck := rfl

/-! ### `arm .ack` -/

@[simp] theorem armAck_now (t : Micros) : (arm .ack t s).now = s.now := rfl
@[simp] theorem armAck_drv (t : Micros) : (arm .ack t s).drv = { s.drv with alarmAck := some t } := rfl
@[simp] theorem armAck_eng (t : Micros) : (arm .ack t s).eng = s.eng := rfl
@[simp] theorem armAck_cfg (t : Micros) : (arm .ack t s).cfg = s.cfg := rfl
@[simp] theorem armAck_keyq (t : Micros) : (arm .ack t s).keyq = s.keyq := rfl
@[simp] theorem armAck_ind (t : Micros) : (arm .ack t s).ind = s.ind := rfl
@[simp] theorem armAck_err (t : Micros) : (arm .ack t s).err = s.err := rfl
@[simp] theorem armAck_edges (t : Micros) : (arm .ack t s).edges = s.edges := rfl
@[simp] theorem armAck_env (t : Micros) : (arm .ack t s).env = s.env := rfl
@[simp] theorem armAck_par (t : Micros) : (arm .ack t s).par = s.par := rfl
@[simp] theorem armAck_armedTx (t : Micros) : (arm .ack t s).armedTx = s.armedTx := rfl
@[simp] theorem armAck_armedAck (t : Micros) : (arm .ack t s).armedAck = s.now := rfl

/-! ### `cancel .ack` -/

@[simp] theorem cancelAck_now : (cancel .ack s).now = s.now := rfl
@[simp] theorem cancelAck_drv : (cancel .ack s).drv = { s.drv with alarmAck := none } := rfl
@[simp] theorem cancelAck_eng : (cancel .ack s).eng = s.eng := rfl
@[simp] theorem cancelAck_cfg : (cancel .ack s).cfg = s.cfg := rfl
@[simp] theorem cancelAck_keyq : (cancel .ack s).keyq = s.keyq := rfl
@[simp] theorem cancelAck_ind : (cancel .ack s).ind = s.ind := rfl
@[simp] theorem cancelAck_err : (cancel .ack s).err = s.err := rfl
@[simp] theorem cancelAck_edges : (cancel .ack s).edges = s.edges := rfl
@[simp] theorem cancelAck_env : (cancel .ack s).env = s.env := rfl
@[simp] theorem cancelAck_par : (cancel .ack s).par = s.par := rfl
@[simp] theorem cancelAck_armedTx : (cancel .ack s).armedTx = s.armedTx := rfl
@[simp] theorem cancelAck_armedAck : (cancel .ack s).armedAck = s.armedAck := rfl

/-! ### `signal .rx` -/

@[simp] theorem signalRx_now : (signal .rx s).now = s.now := rfl
@[simp] theorem signalRx_drv : (signal .rx s).drv = { s.drv with evRx := true } := rfl
@[simp] theorem signalRx_eng : (signal .rx s).eng = s.eng := rfl
@[simp] theorem signalRx_cfg : (signal .rx s).cfg = s.cfg := rfl
@[simp] theorem signalRx_keyq : (signal .rx s).keyq = s.keyq := rfl
@[simp] theorem signalRx_ind : (signal .rx s).ind = s.ind := rfl
@[simp] theorem signalRx_err : (signal .rx s).err = s.err := rfl
@[simp] theorem signalRx_edges : (signal .rx s).edges = s.edges := rfl
@[simp] theorem signalRx_env : (signal .rx s).env = s.env := rfl
@[simp] theorem signalRx_par : (signal .rx s).par = s.par := rfl
@[simp] theorem signalRx_armedTx : (signal .rx s).armedTx = s.armedTx := rfl
@[simp] theorem signalRx_armedAck : (signal .rx s).armedAck = s.armedAck := rfl

/-! ### `signal .tx` -/

@[simp] theorem signalTx_now : (signal .tx s).now = s.now := rfl
@[simp] theorem signalTx_drv : (signal .tx s).drv = { s.drv with evTx := true } := rfl
@[simp] theorem signalTx_eng : (signal .tx s).eng = s.eng := rfl
@[simp] theorem signalTx_cfg : (signal .tx s).cfg = s.cfg := rfl
@[simp] theorem signalTx_keyq : (signal .tx s).keyq = s.keyq := rfl
@[simp] theorem signalTx_ind : (signal .tx s).ind = s.ind := rfl
@[simp] theorem signalTx_err : (signal .tx s).err = s.err := rfl
@[simp] theorem signalTx_edges : (signal .tx s).edges = s.edges := rfl
@[simp] theorem signalTx_env : (signal .tx s).env = s.env := rfl
@[simp] theorem signalTx_par : (signal .tx s).par = s.par := rfl
@[simp] theorem signalTx_armedTx : (signal .tx s).armedTx = s.armedTx := rfl
@[simp] theorem signalTx_armedAck : (signal .tx s).armedAck = s.armedAck := rfl

/-! ### `record` -/

@[simp] theorem record_now (e : Err) : (record e s).now = s.now := rfl
@[simp] theorem record_drv (e : Err) : (record e s).drv = s.drv := rfl
@[simp] theorem record_eng (e : Err) : (record e s).eng = s.eng := rfl
@[simp] theorem record_cfg (e : Err) : (record e s).cfg = s.cfg := rfl
@[simp] theorem record_keyq (e : Err) : (record e s).keyq = s.keyq := rfl
@[simp] theorem record_ind (e : Err) : (record e s).ind = s.ind := rfl
@[simp] theorem record_err (e : Err) : (record e s).err = s.err ++ [(s.now, e)] := rfl
@[simp] theorem record_edges (e : Err) : (record e s).edges = s.edges := rfl
@[simp] theorem record_env (e : Err) : (record e s).env = s.env := rfl
@[simp] theorem record_par (e : Err) : (record e s).par = s.par := rfl
@[simp] theorem record_armedTx (e : Err) : (record e s).armedTx = s.armedTx := rfl
@[simp] theorem record_armedAck (e : Err) : (record e s).armedAck = s.armedAck := rfl

/-! ### `indicate` -/

@[simp] theorem indicate_now (i : Indicator) : (indicate i s).now = s.now := rfl
@[simp] theorem indicate_drv (i : Indicator) : (indicate i s).drv = s.drv := rfl
@[simp] theorem indicate_eng (i : Indicator) : (indicate i s).eng = s.eng := rfl
@[simp] theorem indicate_cfg (i : Indicator) : (indicate i s).cfg = s.cfg := rfl
@[simp] theorem indicate_keyq (i : Indicator) : (indicate i s).keyq = s.keyq := rfl
@[simp] theorem indicate_ind (i : Indicator) : (indicate i s).ind = s.ind ++ [i] := rfl
@[simp] theorem indicate_err (i : Indicator) : (indicate i s).err = s.err := rfl
@[simp] theorem indicate_edges (i : Indicator) : (indicate i s).edges = s.edges := rfl
@[simp] theorem indicate_env (i : Indicator) : (indicate i s).env = s.env := rfl
@[simp] theorem indicate_par (i : Indicator) : (indicate i s).par = s.par := rfl
@[simp] theorem indicate_armedTx (i : Indicator) : (indicate i s).armedTx = s.armedTx := rfl
@[simp] theorem indicate_armedAck (i : Indicator) : (indicate i s).armedAck = s.armedAck := rfl

/-! ### `pushKey` -/

@[simp] theorem pushKey_now (b : Byte) : (pushKey b s).now = s.now := rfl
@[simp] theorem pushKey_drv (b : Byte) : (pushKey b s).drv = s.drv := rfl
@[simp] theorem pushKey_eng (b : Byte) : (pushKey b s).eng = s.eng := rfl
@[simp] theorem pushKey_cfg (b : Byte) : (pushKey b s).cfg = s.cfg := rfl
@[simp] theorem pushKey_keyq (b : Byte) : (pushKey b s).keyq = s.keyq ++ [b] := rfl
@[simp] theorem pushKey_ind (b : Byte) : (pushKey b s).ind = s.ind := rfl
@[simp] theorem pushKey_err (b : Byte) : (pushKey b s).err = s.err := rfl
@[simp] theorem pushKey_edges (b : Byte) : (pushKey b s).edges = s.edges := rfl
@[simp] theorem pushKey_env (b : Byte) : (pushKey b s).env = s.env := rfl
@[simp] theorem pushKey_par (b : Byte) : (pushKey b s).par = s.par := rfl
@[simp] theorem pushKey_armedTx (b : Byte) : (pushKey b s).armedTx = s.armedTx := rfl
@[simp] theorem pushKey_armedAck (b : Byte) : (pushKey b s).armedAck = s.armedAck := rfl

/-! ### `pushActs` -/

@[simp] theorem pushActs_now (a : List Act) : (pushActs a s).now = s.now := rfl
@[simp] theorem pushActs_drv (a : List Act) : (pushActs a s).drv = s.drv := rfl
@[simp] theorem pushActs_eng (a : List Act) : (pushActs a s).eng = { s.eng with todo := a ++ s.eng.todo } := rfl
@[simp] theorem pushActs_cfg (a : List Act) : (pushActs a s).cfg = s.cfg := rfl
@[simp] theorem pushActs_keyq (a : List Act) : (pushActs a s).keyq = s.keyq := rfl
@[simp] theorem pushActs_ind (a : List Act) : (pushActs a s).ind = s.ind := rfl
@[simp] theorem pushActs_err (a : List Act) : (pushActs a s).err = s.err := rfl
@[simp] theorem pushActs_edges (a : List Act) : (pushActs a s).edges = s.edges := rfl
@[simp] theorem pushActs_env (a : List Act) : (pushActs a s).env = s.env := rfl
@[simp] theorem pushActs_par (a : List Act) : (pushActs a s).par = s.par := rfl
@[simp] theorem pushActs_armedTx (a : List Act) : (pushActs a s).armedTx = s.armedTx := rfl
@[simp] theorem pushActs_armedAck (a : List Act) : (pushActs a s).armedAck = s.armedAck := rfl

/-! ### `setTodo` -/

@[simp] theorem setTodo_now (a : List Act) : (setTodo a s).now = s.now := rfl
@[simp] theorem setTodo_drv (a : List Act) : (setTodo a s).drv = s.drv := rfl
@[simp] theorem setTodo_eng (a : List Act) : (setTodo a s).eng = { s.eng with todo := a } := rfl
@[simp] theorem setTodo_cfg (a : List Act) : (setTodo a s).cfg = s.cfg := rfl
@[simp] theorem setTodo_keyq (a : List Act) : (setTodo a s).keyq = s.keyq := rfl
@[simp] theorem setTodo_ind (a : List Act) : (setTodo a s).ind = s.ind := rfl
@[simp] theorem setTodo_err (a : List Act) : (setTodo a s).err = s.err := rfl
@[simp] theorem setTodo_edges (a : List Act) : (setTodo a s).edges = s.edges := rfl
@[simp] theorem setTodo_env (a : List Act) : (setTodo a s).env = s.env := rfl
@[simp] theorem setTodo_par (a : List Act) : (setTodo a s).par = s.par := rfl
@[simp] theorem setTodo_armedTx (a : List Act) : (setTodo a s).armedTx = s.armedTx := rfl
@[simp] theorem setTodo_armedAck (a : List Act) : (setTodo a s).armedAck = s.armedAck := rfl

/-! ### `setCtl` -/

@[simp] theorem setCtl_now (c : Ctl) : (setCtl c s).now = s.now := rfl
@[simp] theorem setCtl_drv (c : Ctl) : (setCtl c s).drv = s.drv := rfl
@[simp] theorem setCtl_eng (c : Ctl) : (setCtl c s).eng = { s.eng with ctl := c } := rfl
@[simp] theorem setCtl_cfg (c : Ctl) : (setCtl c s).cfg = s.cfg := rfl
@[simp] theorem setCtl_keyq (c : Ctl) : (setCtl c s).keyq = s.keyq := rfl
@[simp] theorem setCtl_ind (c : Ctl) : (setCtl c s).ind = s.ind := rfl
@[simp] theorem setCtl_err (c : Ctl) : (setCtl c s).err = s.err := rfl
@[simp] theorem setCtl_edges (c : Ctl) : (setCtl c s).edges = s.edges := rfl
@[simp] theorem setCtl_env (c : Ctl) : (setCtl c s).env = s.env := rfl
@[simp] theorem setCtl_par (c : Ctl) : (setCtl c s).par = s.par := rfl
@[simp] theorem setCtl_armedTx (c : Ctl) : (setCtl c s).armedTx = s.armedTx := rfl
@[simp] theorem setCtl_armedAck (c : Ctl) : (setCtl c s).armedAck = s.armedAck := rfl

/-! ### `publishLa` -/

@[simp] theorem publishLa_now (la : La) : (publishLa la s).now = s.now := rfl
@[simp] theorem publishLa_drv (la : La) : (publishLa la s).drv = { s.drv with selfLa := la } := rfl
@[simp] theorem publishLa_eng (la : La) : (publishLa la s).eng = { s.eng with selfLa := la } := rfl
@[simp] theorem publishLa_cfg (la : La) : (publishLa la s).cfg = s.cfg := rfl
@[simp] theorem publishLa_keyq (la : La) : (publishLa la s).keyq = s.keyq := rfl
@[simp] theorem publishLa_ind (la : La) : (publishLa la s).ind = s.ind := rfl
@[simp] theorem publishLa_err (la : La) : (publishLa la s).err = s.err := rfl
@[simp] theorem publishLa_edges (la : La) : (publishLa la s).edges = s.edges := rfl
@[simp] theorem publishLa_env (la : La) : (publishLa la s).env = s.env := rfl
@[simp] theorem publishLa_par (la : La) : (publishLa la s).par = s.par := rfl
@[simp] theorem publishLa_armedTx (la : La) : (publishLa la s).armedTx = s.armedTx := rfl
@[simp] theorem publishLa_armedAck (la : La) : (publishLa la s).armedAck = s.armedAck := rfl

/-! ### `countDraw` -/

@[simp] theorem countDraw_now : (countDraw s).now = s.now := rfl
@[simp] theorem countDraw_drv : (countDraw s).drv = s.drv := rfl
@[simp] theorem countDraw_eng : (countDraw s).eng = s.eng := rfl
@[simp] theorem countDraw_cfg : (countDraw s).cfg = s.cfg := rfl
@[simp] theorem countDraw_keyq : (countDraw s).keyq = s.keyq := rfl
@[simp] theorem countDraw_ind : (countDraw s).ind = s.ind := rfl
@[simp] theorem countDraw_err : (countDraw s).err = s.err := rfl
@[simp] theorem countDraw_edges : (countDraw s).edges = s.edges := rfl
@[simp] theorem countDraw_env : (countDraw s).env = { s.env with draws := s.env.draws + 1 } := rfl
@[simp] theorem countDraw_par : (countDraw s).par = s.par := rfl
@[simp] theorem countDraw_armedTx : (countDraw s).armedTx = s.armedTx := rfl
@[simp] theorem countDraw_armedAck : (countDraw s).armedAck = s.armedAck := rfl

/-! ### `drawEdid` -/

@[simp] theorem drawEdid_now : ((drawEdid s).2).now = s.now := by
 unfold drawEdid; split <;> rfl
@[simp] theorem drawEdid_drv : ((drawEdid s).2).drv = s.drv := by
 unfold drawEdid; split <;> rfl
@[simp] theorem drawEdid_eng : ((drawEdid s).2).eng = s.eng := by
 unfold drawEdid; split <;> rfl
@[simp] theorem drawEdid_cfg : ((drawEdid s).2).cfg = s.cfg := by
 unfold drawEdid; split <;> rfl
@[simp] theorem drawEdid_keyq : ((drawEdid s).2).keyq = s.keyq := by
 unfold drawEdid; split <;> rfl
@[simp] theorem drawEdid_ind : ((drawEdid s).2).ind = s.ind := by
 unfold drawEdid; split <;> rfl
@[simp] theorem drawEdid_err : ((drawEdid s).2).err = s.err := by
 unfold drawEdid; split <;> rfl
@[simp] theorem drawEdid_edges : ((drawEdid s).2).edges = s.edges := by
 unfold drawEdid; split <;> rfl
@[simp] theorem drawEdid_par : ((drawEdid s).2).par = s.par := by
 unfold drawEdid; split <;> rfl
@[simp] theorem drawEdid_armedTx : ((drawEdid s).2).armedTx = s.armedTx := by
 unfold drawEdid; split <;> rfl
@[simp] theorem drawEdid_armedAck : ((drawEdid s).2).armedAck = s.armedAck := by
 unfold drawEdid; split <;> rfl

/-! ### `drawCfg` -/

@[simp] theorem drawCfg_now : ((drawCfg s).2).now = s.now := by
 unfold drawCfg; split <;> rfl
@[simp] theorem drawCfg_drv : ((drawCfg s).2).drv = s.drv := by
 unfold drawCfg; split <;> rfl
@[simp] theorem drawCfg_eng : ((drawCfg s).2).eng = s.eng := by
 unfold drawCfg; split <;> rfl
@[simp] theorem drawCfg_cfg : ((drawCfg s).2).cfg = s.cfg := by
 unfold drawCfg; split <;> rfl
@[simp] theorem drawCfg_keyq : ((drawCfg s).2).keyq = s.keyq := by
 unfold drawCfg; split <;> rfl
@[simp] theorem drawCfg_ind : ((drawCfg s).2).ind = s.ind := by
 unfold drawCfg; split <;> rfl
@[simp] theorem drawCfg_err : ((drawCfg s).2).err = s.err := by
 unfold drawCfg; split <;> rfl
@[simp] theorem drawCfg_edges : ((drawCfg s).2).edges = s.edges := by
 unfold drawCfg; split <;> rfl
@[simp] theorem drawCfg_par : ((drawCfg s).2).par = s.par := by
 unfold drawCfg; split <;> rfl
@[simp] theorem drawCfg_armedTx : ((drawCfg s).2).armedTx = s.armedTx := by
 unfold drawCfg; split <;> rfl
@[simp] theorem drawCfg_armedAck : ((drawCfg s).2).armedAck = s.armedAck := by
 unfold drawCfg; split <;> rfl

/-! ### `drawOrder` -/

@[simp] theorem drawOrder_now : ((drawOrder s).2).now = s.now := by
 unfold drawOrder; split <;> rfl
@[simp] theorem drawOrder_drv : ((drawOrder s).2).drv = s.drv := by
 unfold drawOrder; split <;> rfl
@[simp] theorem drawOrder_eng : ((drawOrder s).2).eng = s.eng := by
 unfold drawOrder; split <;> rfl
@[simp] theorem drawOrder_cfg : ((drawOrder s).2).cfg = s.cfg := by
 unfold drawOrder; split <;> rfl
@[simp] theorem drawOrder_keyq : ((drawOrder s).2).keyq = s.keyq := by
 unfold drawOrder; split <;> rfl
@[simp] theorem drawOrder_ind : ((drawOrder s).2).ind = s.ind := by
 unfold drawOrder; split <;> rfl
@[simp] theorem drawOrder_err : ((drawOrder s).2).err = s.err := by
 unfold drawOrder; split <;> rfl
@[simp] theorem drawOrder_edges : ((drawOrder s).2).edges = s.edges := by
 unfold drawOrder; split <;> rfl
@[simp] theorem drawOrder_par : ((drawOrder s).2).par = s.par := by
 unfold drawOrder; split <;> rfl
@[simp] theorem drawOrder_armedTx : ((drawOrder s).2).armedTx = s.armedTx := by
 unfold drawOrder; split <;> rfl
@[simp] theorem drawOrder_armedAck : ((drawOrder s).2).armedAck = s.armedAck := by
 unfold drawOrder; split <;> rfl

/-! ### `refillScript` -/

@[simp] theorem refillScript_now : (refillScript s).now = s.now := by
 unfold refillScript; split <;> rfl
@[simp] theorem refillScript_drv : (refillScript s).drv = s.drv := by
 unfold refillScript; split <;> rfl
@[simp] theorem refillScript_eng : (refillScript s).eng = s.eng := by
 unfold refillScript; split <;> rfl
@[simp] theorem refillScript_cfg : (refillScript s).cfg = s.cfg := by
 unfold refillScript; split <;> rfl
@[simp] theorem refillScript_keyq : (refillScript s).keyq = s.keyq := by
 unfold refillScript; split <;> rfl
@[simp] theorem refillScript_ind : (refillScript s).ind = s.ind := by
 unfold refillScript; split <;> rfl
@[simp] theorem refillScript_err : (refillScript s).err = s.err := by
 unfold refillScript; split <;> rfl
@[simp] theorem refillScript_edges : (refillScript s).edges = s.edges := by
 unfold refillScript; split <;> rfl
@[simp] theorem refillScript_par : (refillScript s).par = s.par := by
 unfold refillScript; split <;> rfl
@[simp] theorem refillScript_armedTx : (refillScript s).armedTx = s.armedTx := by
 unfold refillScript; split <;> rfl
@[simp] theorem refillScript_armedAck : (refillScript s).armedAck = s.armedAck := by
 unfold refillScript; split <;> rfl

/-! ### `enterRecv` -/

@[simp] theorem enterRecv_now : (enterRecv s).now = s.now := rfl
@[simp] theorem enterRecv_drv : (enterRecv s).drv = { s.drv with selfLa := s.eng.selfLa } := rfl
@[simp] theorem enterRecv_eng : (enterRecv s).eng = { s.eng with ctl := .recv, fbuf := [], flen := 0 } := rfl
@[simp] theorem enterRecv_cfg : (enterRecv s).cfg = s.cfg := rfl
@[simp] theorem enterRecv_keyq : (enterRecv s).keyq = s.keyq := rfl
@[simp] theorem enterRecv_ind : (enterRecv s).ind = s.ind := rfl
@[simp] theorem enterRecv_err : (enterRecv s).err = s.err := rfl
@[simp] theorem enterRecv_edges : (enterRecv s).edges = s.edges := rfl
@[simp] theorem enterRecv_env : (enterRecv s).env = s.env := rfl
@[simp] theorem enterRecv_par : (enterRecv s).par = s.par := rfl
@[simp] theorem enterRecv_armedTx : (enterRecv s).armedTx = s.armedTx := rfl
@[simp] theorem enterRecv_armedAck : (enterRecv s).armedAck = s.armedAck := rfl

/-! ### `acceptFrame` -/

@[simp] theorem acceptFrame_now (n : Nat) : (acceptFrame n s).now = s.now := rfl
@[simp] theorem acceptFrame_drv (n : Nat) : (acceptFrame n s).drv = s.drv := rfl
@[simp] theorem acceptFrame_eng (n : Nat) : (acceptFrame n s).eng = { s.eng with flen := n, ctl := .dispatch } := rfl
@[simp] theorem acceptFrame_cfg (n : Nat) : (acceptFrame n s).cfg = s.cfg := rfl
@[simp] theorem acceptFrame_keyq (n : Nat) : (acceptFrame n s).keyq = s.keyq := rfl
@[simp] theorem acceptFrame_ind (n : Nat) : (acceptFrame n s).ind = s.ind := rfl
@[simp] theorem acceptFrame_err (n : Nat) : (acceptFrame n s).err = s.err := rfl
@[simp] theorem acceptFrame_edges (n : Nat) : (acceptFrame n s).edges = s.edges := rfl
@[simp] theorem acceptFrame_env (n : Nat) : (acceptFrame n s).env = s.env := rfl
@[simp] theorem acceptFrame_par (n : Nat) : (acceptFrame n s).par = s.par := rfl
@[simp] theorem acceptFrame_armedTx (n : Nat) : (acceptFrame n s).armedTx = s.armedTx := rfl
@[simp] theorem acceptFrame_armedAck (n : Nat) : (acceptFrame n s).armedAck = s.armedAck := rfl

/-! ### `drvEnabled` -/

@[simp] theorem drvEnabled_now : (drvEnabled s).now = s.now := rfl
@[simp] theorem drvEnabled_eng : (drvEnabled s).eng = s.eng := rfl
@[simp] theorem drvEnabled_cfg : (drvEnabled s).cfg = s.cfg := rfl
@[simp] theorem drvEnabled_keyq : (drvEnabled s).keyq = s.keyq := rfl
@[simp] theorem drvEnabled_ind : (drvEnabled s).ind = s.ind := rfl
@[simp] theorem drvEnabled_err : (drvEnabled s).err = s.err := rfl
@[simp] theorem drvEnabled_edges : (drvEnabled s).edges = s.edges := rfl
@[simp] theorem drvEnabled_env : (drvEnabled s).env = s.env := rfl
@[simp] theorem drvEnabled_par : (drvEnabled s).par = s.par := rfl
@[simp] theorem drvEnabled_armedTx : (drvEnabled s).armedTx = s.armedTx := rfl
@[simp] theorem drvEnabled_armedAck : (drvEnabled s).armedAck = s.armedAck := rfl
@[simp] theorem drvEnabled_drv : (drvEnabled s).drv = { s.drv with enabled := true } := rfl

/-! ### `beginWait` -/

@[simp] theorem beginWait_now : (beginWait s).now = s.now := rfl
@[simp] theorem beginWait_drv : (beginWait s).drv =
    { s.drv with
      txWaitStart := s.now
      txPhase := .wait
      alarmTx := some (waitDeadline (updDrv (fun d => { d with txWaitStart := s.now, txPhase := .wait }) s)) } := rfl
@[simp] theorem beginWait_eng : (beginWait s).eng = s.eng := rfl
@[simp] theorem beginWait_cfg : (beginWait s).cfg = s.cfg := rfl
@[simp] theorem beginWait_keyq : (beginWait s).keyq = s.keyq := rfl
@[simp] theorem beginWait_ind : (beginWait s).ind = s.ind := rfl
@[simp] theorem beginWait_err : (beginWait s).err = s.err := rfl
@[simp] theorem beginWait_edges : (beginWait s).edges = s.edges := rfl
@[simp] theorem beginWait_env : (beginWait s).env = s.env := rfl
@[simp] theorem beginWait_par : (beginWait s).par = s.par := rfl
@[simp] theorem beginWait_armedTx : (beginWait s).armedTx = s.now := rfl
@[simp] theorem beginWait_armedAck : (beginWait s).armedAck = s.armedAck := rfl

end Sys2Proof.Machine
end

