-- ==== Sys2Proof/Laws/Driver.lean ====
section
/-! SUPPORT. What each handler of the driver does: it touches the driver, the observation trace and the pending edges
only, keeps the ranges of the driver's registers, and, from a state in range, never faults. -/

namespace Sys2Proof.Machine

/-- Nothing but the driver, the observation trace and the pending edges differs (60_exceptions R205). -/
structure DrvOnly (s t : State) : Prop where
  now : t.now = s.now
  eng : t.eng = s.eng
  cfg : t.cfg = s.cfg
  keyq : t.keyq = s.keyq
  ind : t.ind = s.ind
  env : t.env = s.env
  par : t.par = s.par

theorem DrvOnly.refl (s : State) : DrvOnly s s := ⟨rfl, rfl, rfl, rfl, rfl, rfl, rfl⟩

theorem DrvOnly.trans {s t u : State} (h : DrvOnly s t) (k : DrvOnly t u) : DrvOnly s u :=
  ⟨k.now.trans h.now, k.eng.trans h.eng, k.cfg.trans h.cfg, k.keyq.trans h.keyq, k.ind.trans h.ind,
   k.env.trans h.env, k.par.trans h.par⟩

/-- The receive path leaves the address, the transmit request and its wake alone (20_memory R47). -/
structure RxKeeps (d e : Drv) : Prop where
  enabled : e.enabled = d.enabled
  selfLa : e.selfLa = d.selfLa
  txPhase : e.txPhase = d.txPhase
  txBuf : e.txBuf = d.txBuf
  txLen : e.txLen = d.txLen
  txByte : e.txByte = d.txByte
  txBit : e.txBit = d.txBit
  txAttempt : e.txAttempt = d.txAttempt
  alarmTx : e.alarmTx = d.alarmTx
  evTx : e.evTx = d.evTx

theorem RxKeeps.refl (d : Drv) : RxKeeps d d := ⟨rfl, rfl, rfl, rfl, rfl, rfl, rfl, rfl, rfl, rfl⟩

theorem RxKeeps.trans {d e f : Drv} (h : RxKeeps d e) (k : RxKeeps e f) : RxKeeps d f :=
  ⟨k.enabled.trans h.enabled, k.selfLa.trans h.selfLa, k.txPhase.trans h.txPhase, k.txBuf.trans h.txBuf,
   k.txLen.trans h.txLen, k.txByte.trans h.txByte, k.txBit.trans h.txBit, k.txAttempt.trans h.txAttempt,
   k.alarmTx.trans h.alarmTx, k.evTx.trans h.evTx⟩

/-- The receive registers are in range and the receive buffers canonical. -/
structure RxGood (d : Drv) : Prop where
  inv : RxInv d
  rxBuf : Memory.wf maxFrame d.rxBuf = true
  mbBuf : Memory.wf maxFrame d.mbBuf = true

/-- Everything a receive handler that goes from `s` to `u` leaves true. -/
structure RxSafe (s u : State) : Prop where
  only : DrvOnly s u
  keeps : RxKeeps s.drv u.drv
  good : RxGood u.drv

/-! ## Receive handlers -/

section Receive

variable {s : State} {t : Micros} {lvl : Level}

/-- A change of the driver that keeps what `RxKeeps` names, to good receive registers. -/
theorem rxSafe_updDrv {f : Drv → Drv} (hk : RxKeeps s.drv (f s.drv)) (hg : RxGood (f s.drv)) :
    RxSafe s (updDrv f s) := ⟨⟨rfl, rfl, rfl, rfl, rfl, rfl, rfl⟩, hk, hg⟩

theorem RxSafe.trans {u w : State} (h : RxSafe s u) (k : RxSafe u w) : RxSafe s w :=
  ⟨h.only.trans k.only, h.keeps.trans k.keeps, k.good⟩

theorem rxSafe_refl (h : RxGood s.drv) : RxSafe s s := ⟨DrvOnly.refl s, RxKeeps.refl _, h⟩

theorem record_rxSafe (h : RxGood s.drv) (e : Err) : RxSafe s (record e s) :=
  ⟨⟨rfl, rfl, rfl, rfl, rfl, rfl, rfl⟩, RxKeeps.refl _, h⟩

/-- Receive registers outside a bit cell, with a length of 0. -/
theorem rxGood_outside {d e : Drv} (h : RxGood d) (hbit : e.rxBit ≤ 9) (hlen : e.rxLen = 0)
    (hbuf : e.rxBuf = d.rxBuf) (h1 : e.rxState ≠ .bitLow) (h2 : e.rxState ≠ .bitHigh)
    (hmb : e.mbFull = d.mbFull ∧ e.mbLen = d.mbLen ∧ e.mbBuf = d.mbBuf)
    (hack : e.rxAcking = true → e.enabled = true ∧ ∃ t, e.alarmAck = some t) : RxGood e := by
  obtain ⟨m1, m2, m3⟩ := hmb
  exact ⟨⟨hbit, by simp [hlen], hlen ▸ memFilled_zero _, fun x => absurd x h1, fun x => absurd x h1,
    fun x => absurd x h2, fun x => absurd x h2, by rw [m1, m2, m3]; exact h.inv.mailbox, hack⟩,
    hbuf ▸ h.rxBuf, m3 ▸ h.mbBuf⟩

theorem rxMalformed_safe (h : RxGood s.drv) : RxSafe s (rxMalformed lvl t s) := by
  have hi := h.inv
  cases lvl <;> (unfold rxMalformed rxDropAck; dsimp only; split) <;>
    exact ⟨by constructor <;> simp, by constructor <;> simp,
      rxGood_outside h (by simp [hi.bit]) (by simp) (by simp) (by simp) (by simp) (by simp)
        (by simp_all [hi.acking])⟩

theorem rxIdleFall_safe (h : RxGood s.drv) : RxSafe s (rxIdleFall t s) :=
  rxSafe_updDrv (by constructor <;> rfl)
    (rxGood_outside h h.inv.bit rfl rfl (by simp) (by simp) ⟨rfl, rfl, rfl⟩ h.inv.acking)

/-- A change of the receive position alone, to one outside a bit cell. -/
theorem rxState_safe (h : RxGood s.drv) {st : RxState} (h1 : st ≠ .bitLow) (h2 : st ≠ .bitHigh) :
    RxSafe s (updDrv (fun d => { d with rxState := st }) s) := by
  have hi := h.inv
  exact rxSafe_updDrv (by constructor <;> rfl)
    ⟨⟨hi.bit, hi.len, hi.filled, fun e => absurd e h1, fun e => absurd e h1, fun e => absurd e h2,
      fun e => absurd e h2, hi.mailbox, hi.acking⟩, h.rxBuf, h.mbBuf⟩

theorem rxStartLowRise_safe (h : RxGood s.drv) : RxSafe s (rxStartLowRise t s) := by
  unfold rxStartLowRise
  split
  · exact rxState_safe h (by decide) (by decide)
  · exact rxMalformed_safe h

theorem rxStartHighFall_safe (h : RxGood s.drv) : RxSafe s (rxStartHighFall t s) := by
  have hi := h.inv
  unfold rxStartHighFall
  split
  · exact rxSafe_updDrv (by constructor <;> rfl)
      ⟨⟨by simp, by simp, memFilled_zero _, by simp [maxFrame], by simp, by simp, by simp, hi.mailbox, hi.acking⟩,
        h.rxBuf, h.mbBuf⟩
  · exact rxMalformed_safe h

/-- R97 answers, and changes `rx_ack_owed` alone. -/
theorem rxAckDecision_ok (hf : memFilled s.drv.rxBuf s.drv.rxLen) (hl : 1 ≤ s.drv.rxLen) :
    ∃ b, memGet s.drv.rxBuf 0 = some b ∧
      rxAckDecision s = .ok (updDrv (fun d => { d with rxAckOwed := ackOwed (headerDest b) d.selfLa }) s) := by
  obtain ⟨b, hb, hg⟩ := bufRead_ok hf (i := 0) (by omega)
  exact ⟨b, hg, by simp [rxAckDecision, hb]⟩

/-- R96 answers: the byte is stored, the length grows, and only the ACK decision may change beside. -/
theorem rxByteComplete_ok (hf : memFilled s.drv.rxBuf s.drv.rxLen) (hl : s.drv.rxLen < maxFrame) :
    ∃ owed, rxByteComplete s =
      .ok (updDrv (fun d => { d with rxBuf := memSet s.drv.rxBuf s.drv.rxLen s.drv.rxShift,
                                     rxLen := s.drv.rxLen + 1, rxAckOwed := owed }) s) := by
  simp only [rxByteComplete, bufWrite, if_pos hl]
  split
  · obtain ⟨b, -, hb⟩ := rxAckDecision_ok
      (s := updDrv (fun d => { d with rxBuf := memSet s.drv.rxBuf s.drv.rxLen s.drv.rxShift,
                                      rxLen := d.rxLen + 1 }) s)
      (memFilled_memSet _ hf) (by simp)
    exact ⟨_, hb⟩
  · exact ⟨s.drv.rxAckOwed, rfl⟩

/-- R101 answers: the frame is lost if the mailbox is full, else the mailbox holds it. -/
theorem rxDeliver_ok (hf : memFilled s.drv.rxBuf s.drv.rxLen) :
    (s.drv.mbFull = true ∧ rxDeliver s = .ok s) ∨
    ∃ bytes, bytes.length = s.drv.rxLen ∧ (∀ k < s.drv.rxLen, memGet s.drv.rxBuf k = bytes[k]?) ∧
      rxDeliver s = .ok (updDrv (fun d =>
        { d with
          mbBuf := memStore d.mbBuf 0 bytes
          mbAckbit := copyAckbits d.rxLen d.rxAckbit d.mbAckbit
          mbLen := d.rxLen
          mbFull := true
          evRx := true }) s) := by
  by_cases hm : s.drv.mbFull = true
  · exact .inl ⟨hm, by simp [rxDeliver, hm]⟩
  · obtain ⟨bs, hb, hlen⟩ := bufTake_ok hf (Nat.le_refl _)
    exact .inr ⟨bs, hlen, (bufTake_eq_ok hb).2, by simp [rxDeliver, hm, hb, signal]; rfl⟩

theorem rxDeliver_safe (h : RxGood s.drv) (hl : 1 ≤ s.drv.rxLen) : ∃ u, rxDeliver s = .ok u ∧ RxSafe s u ∧
    u.drv.rxState = s.drv.rxState := by
  have hi := h.inv
  rcases rxDeliver_ok hi.filled with ⟨-, e⟩ | ⟨bs, hlen, -, e⟩
  · exact ⟨s, e, rxSafe_refl h, rfl⟩
  · exact ⟨_, e, rxSafe_updDrv (by constructor <;> rfl)
      ⟨⟨hi.bit, hi.len, hi.filled, hi.lowData, hi.lowTail, hi.highData, hi.highTail,
        fun _ => ⟨hl, hi.len, hlen ▸ memFilled_memStore _ bs⟩, hi.acking⟩,
        h.rxBuf, wf_memStore bs (by rw [hlen, Nat.zero_add]; exact hi.len) h.mbBuf⟩, rfl⟩

theorem rxFrameComplete_safe (h : RxGood s.drv) (hl : 1 ≤ s.drv.rxLen) :
    ∃ u, rxFrameComplete s = .ok u ∧ RxSafe s u := by
  obtain ⟨b, hb, -⟩ := bufRead_ok h.inv.filled (i := 0) (by omega)
  have h1 := rxState_safe h (st := .idle) (by decide) (by decide)
  have hend : ∀ u, RxSafe s u → u.drv.rxState = .idle →
      RxSafe s (updDrv (fun d => { d with rxLen := 0 }) u) := fun u hu hst =>
    hu.trans (rxSafe_updDrv (by constructor <;> rfl)
      (rxGood_outside hu.good hu.good.inv.bit rfl rfl (by simp [hst]) (by simp [hst]) ⟨rfl, rfl, rfl⟩
        hu.good.inv.acking))
  simp only [rxFrameComplete, hb]
  by_cases hc : (s.drv.rxAckOwed || isBroadcast (headerDest b)) = true
  · obtain ⟨u, hu, hs, hst⟩ := rxDeliver_safe h1.good hl
    exact ⟨_, by simp [hc, hu], hend u (h1.trans hs) hst⟩
  · exact ⟨_, by simp [hc], hend _ h1 rfl⟩

theorem rxCellHigh_safe (h : RxGood s.drv) (hd : s.drv.rxBit ≤ 6 → s.drv.rxLen < maxFrame)
    (ht : 7 ≤ s.drv.rxBit → 1 ≤ s.drv.rxLen) : RxSafe s (rxCellHigh s) := by
  have hi := h.inv
  exact rxSafe_updDrv (by constructor <;> rfl)
    ⟨⟨hi.bit, hi.len, hi.filled, by simp, by simp, fun _ => hd, fun _ => ht, hi.mailbox, hi.acking⟩,
      h.rxBuf, h.mbBuf⟩

theorem rxShiftIn_safe (h : RxGood s.drv) (b : Bool) : RxSafe s (rxShiftIn b s) := by
  have hi := h.inv
  exact rxSafe_updDrv (by constructor <;> rfl)
    ⟨⟨hi.bit, hi.len, hi.filled, hi.lowData, hi.lowTail, hi.highData, hi.highTail, hi.mailbox, hi.acking⟩,
      h.rxBuf, h.mbBuf⟩

theorem rxDataBit_safe (h : RxGood s.drv) (h7 : s.drv.rxBit ≤ 7) (hlen : s.drv.rxLen < maxFrame) (b : Bool) :
    ∃ u, rxDataBit b s = .ok u ∧ RxSafe s u := by
  have h1 := rxShiftIn_safe h b
  have hi := h.inv
  unfold rxDataBit
  by_cases hb : s.drv.rxBit = 7
  · obtain ⟨o, e⟩ := rxByteComplete_ok (s := rxShiftIn b s) hi.filled hlen
    rw [if_pos hb, e]
    refine ⟨_, rfl, h1.only.trans (by constructor <;> rfl), h1.keeps.trans (by constructor <;> rfl),
      ⟨hi.bit, ?_, ?_, by simp [rxCellHigh], by simp [rxCellHigh], ?_, ?_, hi.mailbox, hi.acking⟩,
      wf_memSet _ hlen h.rxBuf, h.mbBuf⟩
    · exact hlen
    · exact memFilled_memSet _ hi.filled
    · intro _ (h6 : s.drv.rxBit ≤ 6)
      omega
    · intro _ _
      exact Nat.le_add_left 1 _
  · rw [if_neg hb]
    exact ⟨_, rfl, h1.trans (rxCellHigh_safe h1.good (fun _ => hlen) (fun h6 => by
      have : (rxShiftIn b s).drv.rxBit = s.drv.rxBit := rfl
      omega))⟩

theorem rxAckBit_safe (h : RxGood s.drv) (h7 : 7 ≤ s.drv.rxBit) (hl : 1 ≤ s.drv.rxLen) (b : Bool) :
    ∃ u, rxAckBit b s = .ok u ∧ RxSafe s u := by
  have hi := h.inv
  unfold rxAckBit
  split
  · omega
  · rename_i n hn
    have h1 : RxSafe s (updDrv (fun d => { d with rxAckbit := setAckbit d.rxAckbit n b }) s) :=
      rxSafe_updDrv (by constructor <;> rfl)
        ⟨⟨hi.bit, hi.len, hi.filled, hi.lowData, hi.lowTail, hi.highData, hi.highTail, hi.mailbox, hi.acking⟩,
          h.rxBuf, h.mbBuf⟩
    dsimp only
    split
    · obtain ⟨u, hu, hs⟩ := rxFrameComplete_safe h1.good hl
      exact ⟨u, hu, h1.trans hs⟩
    · refine ⟨_, rfl, h1.trans (rxCellHigh_safe h1.good (fun h6 => ?_) (fun _ => hl))⟩
      simp at h6
      omega

theorem rxTakeBit_safe (h : RxGood s.drv) (hs : s.drv.rxState = .bitLow) (b : Bool) :
    ∃ u, rxTakeBit b s = .ok u ∧ RxSafe s u := by
  have hi := h.inv
  unfold rxTakeBit
  split
  · rename_i h7
    exact rxDataBit_safe h h7 (hi.lowData hs h7) b
  · rename_i h7
    have hl := hi.lowTail hs (by omega)
    split
    · have h1 : RxSafe s (updDrv (fun d => { d with rxEom := b }) s) :=
        rxSafe_updDrv (by constructor <;> rfl)
          ⟨⟨hi.bit, hi.len, hi.filled, hi.lowData, hi.lowTail, hi.highData, hi.highTail, hi.mailbox, hi.acking⟩,
            h.rxBuf, h.mbBuf⟩
      refine ⟨_, rfl, h1.trans (rxCellHigh_safe h1.good (fun h6 => ?_) (fun _ => hl))⟩
      simp at h6
      omega
    · exact rxAckBit_safe h (by omega) hl b

theorem rxBitLowRise_safe (h : RxGood s.drv) (hs : s.drv.rxState = .bitLow) :
    ∃ u, rxBitLowRise t s = .ok u ∧ RxSafe s u := by
  unfold rxBitLowRise
  split
  · exact rxTakeBit_safe h hs _
  · exact ⟨_, rfl, rxSafe_updDrv (by constructor <;> rfl)
      (rxGood_outside h h.inv.bit rfl rfl (by simp) (by simp) ⟨rfl, rfl, rfl⟩ h.inv.acking)⟩
  · exact ⟨_, rfl, rxMalformed_safe h⟩

/-- Entering a cell's low time keeps the receive path good, if the bit index suits the length. -/
theorem rxEnterCell_safe {s : State} (hbit : s.drv.rxBit ≤ 9) (hlen : s.drv.rxLen ≤ maxFrame)
    (hf : memFilled s.drv.rxBuf s.drv.rxLen) (he : s.drv.enabled = true)
    (hd : s.drv.rxBit ≤ 7 → s.drv.rxLen < maxFrame) (ht : 8 ≤ s.drv.rxBit → 1 ≤ s.drv.rxLen)
    (hmb : s.drv.mbFull = true → 1 ≤ s.drv.mbLen ∧ s.drv.mbLen ≤ maxFrame ∧ memFilled s.drv.mbBuf s.drv.mbLen)
    (hack : s.drv.rxAcking = true → s.drv.enabled = true ∧ ∃ t, s.drv.alarmAck = some t)
    (h1 : Memory.wf maxFrame s.drv.rxBuf = true) (h2 : Memory.wf maxFrame s.drv.mbBuf = true) :
    RxSafe s (rxEnterCell t s) := by
  unfold rxEnterCell rxDriveAck
  dsimp only
  split
  · exact ⟨by constructor <;> simp, by constructor <;> simp,
      ⟨⟨by simpa using hbit, by simpa using hlen, by simpa using hf, fun _ => by simpa using hd,
        fun _ => by simpa using ht, by simp, by simp, by simpa using hmb, by simp [he]⟩,
        by simpa using h1, by simpa using h2⟩⟩
  · exact rxSafe_updDrv (by constructor <;> rfl)
      ⟨⟨hbit, hlen, hf, fun _ => hd, fun _ => ht, by simp, by simp, hmb, hack⟩, h1, h2⟩

theorem rxBitHighFall_safe (h : RxGood s.drv) (he : s.drv.enabled = true) (hs : s.drv.rxState = .bitHigh) :
    RxSafe s (rxBitHighFall t s) := by
  have hi := h.inv
  unfold rxBitHighFall
  split
  · split
    · rename_i h9
      split
      · have h1 : RxSafe s (updDrv (fun d => { d with rxLen := 0, rxState := .idle }) s) :=
          rxSafe_updDrv (by constructor <;> rfl)
            (rxGood_outside h hi.bit rfl rfl (by simp) (by simp) ⟨rfl, rfl, rfl⟩ hi.acking)
        exact h1.trans (record_rxSafe h1.good _)
      · rename_i hne
        have hlt : s.drv.rxLen < maxFrame := by have := hi.len; omega
        have hr := rxEnterCell_safe (t := t)
          (s := updDrv (fun d => { d with rxBit := 0, rxShift := 0#8, rxEom := false }) s)
          (by simp) hi.len hi.filled he (fun _ => hlt) (by simp) hi.mailbox hi.acking h.rxBuf h.mbBuf
        exact ⟨DrvOnly.trans (by constructor <;> rfl) hr.only, RxKeeps.trans (by constructor <;> rfl) hr.keeps,
          hr.good⟩
    · rename_i h9
      have hb := hi.bit
      have hr := rxEnterCell_safe (t := t) (s := updDrv (fun d => { d with rxBit := d.rxBit + 1 }) s)
        (by simp; omega) hi.len hi.filled he
        (fun h7 => hi.highData hs (by simp at h7; omega)) (fun h8 => hi.highTail hs (by simp at h8; omega))
        hi.mailbox hi.acking h.rxBuf h.mbBuf
      exact ⟨DrvOnly.trans (by constructor <;> rfl) hr.only, RxKeeps.trans (by constructor <;> rfl) hr.keeps,
        hr.good⟩
  · exact rxMalformed_safe h

/-- R90's dispatch answers, and everything it leaves true. -/
theorem rxDispatch_safe (h : RxGood s.drv) (he : s.drv.enabled = true) :
    ∃ u, rxDispatch t lvl s = .ok u ∧ RxSafe s u := by
  unfold rxDispatch
  split
  · exact ⟨_, rfl, rxIdleFall_safe h⟩
  · exact ⟨_, rfl, rxSafe_refl h⟩
  · exact ⟨_, rfl, rxStartLowRise_safe h⟩
  · exact ⟨_, rfl, rxStartHighFall_safe h⟩
  · rename_i hs
    exact rxBitLowRise_safe h hs
  · rename_i hs
    exact ⟨_, rfl, rxBitHighFall_safe h he hs⟩
  all_goals exact ⟨_, rfl, rxMalformed_safe h⟩

end Receive

end Sys2Proof.Machine
end

