-- ==== Sys2Proof/Laws/Transmit.lean ====
section
/-! SUPPORT. What each alarm handler and each interrupt does: it keeps the driver's ranges, ends or continues the send in
progress, and never faults from a state in range. -/

namespace Sys2Proof.Machine

/-- The transmit registers' ranges while a send is in progress, without the armed alarm: what holds inside a handler. -/
structure TxReg (d : Drv) : Prop where
  busy : d.txPhase ≠ .idle →
    d.enabled = true ∧ 1 ≤ d.txLen ∧ d.txLen ≤ maxFrame ∧ memFilled d.txBuf d.txLen ∧
    1 ≤ d.txAttempt ∧ d.txAttempt ≤ maxAttempts
  cell : onLine d.txPhase = true → d.txByte < d.txLen ∧ d.txBit ≤ 9

theorem TxInv.reg {d : Drv} (h : TxInv d) : TxReg d :=
  ⟨fun hp => ⟨(h.busy hp).1, (h.busy hp).2.1, (h.busy hp).2.2.1, (h.busy hp).2.2.2.1, (h.busy hp).2.2.2.2.1,
    (h.busy hp).2.2.2.2.2.1⟩, h.cell⟩

/-- Everything a handler that goes from `s` to `u` leaves true. -/
structure HandlerSafe (s u : State) : Prop where
  only : DrvOnly s u
  enabled : u.drv.enabled = s.drv.enabled
  selfLa : u.drv.selfLa = s.drv.selfLa
  rx : RxGood u.drv
  tx : TxInv u.drv
  txBuf : Memory.wf maxFrame u.drv.txBuf = true
  sending : u.drv.txPhase ≠ .idle → s.drv.txPhase ≠ .idle
  woken : u.drv.evTx = true → u.drv.txPhase = .idle ∧ (s.drv.evTx = true ∨ s.drv.txPhase ≠ .idle)

/-- What a handler may rely on when it runs. -/
structure HandlerPre (s : State) : Prop where
  rx : RxGood s.drv
  tx : TxReg s.drv
  txBuf : Memory.wf maxFrame s.drv.txBuf = true
  woken : s.drv.evTx = true → s.drv.txPhase = .idle

section Transmit

variable {s : State} {t : Micros}

/-- Receive registers idle with a length of 0. -/
theorem rxGood_idle {d e : Drv} (h : RxGood d) (hbit : e.rxBit ≤ 9) (hlen : e.rxLen = 0)
    (hbuf : e.rxBuf = d.rxBuf) (hst : e.rxState = .idle)
    (hmb : e.mbFull = d.mbFull ∧ e.mbLen = d.mbLen ∧ e.mbBuf = d.mbBuf)
    (hack : e.rxAcking = d.rxAcking ∧ e.enabled = d.enabled ∧ e.alarmAck = d.alarmAck) : RxGood e :=
  rxGood_outside h hbit hlen hbuf (by simp [hst]) (by simp [hst]) hmb
    (by rw [hack.1, hack.2.1, hack.2.2]; exact h.inv.acking)

/-- Receive registers unchanged. -/
theorem rxGood_same {d e : Drv} (h : RxGood d) (h1 : e.rxBit = d.rxBit) (h2 : e.rxLen = d.rxLen)
    (h3 : e.rxBuf = d.rxBuf) (h4 : e.rxState = d.rxState) (h5 : e.mbFull = d.mbFull) (h6 : e.mbLen = d.mbLen)
    (h7 : e.mbBuf = d.mbBuf) (h8 : e.rxAcking = d.rxAcking) (h9 : e.enabled = d.enabled)
    (h10 : e.alarmAck = d.alarmAck) : RxGood e := by
  obtain ⟨⟨a1, a2, a3, a4, a5, a6, a7, a8, a9⟩, b, c⟩ := h
  rw [← h1, ← h2, ← h3, ← h4, ← h5, ← h6, ← h7, ← h8, ← h9, ← h10] at *
  exact ⟨⟨a1, a2, a3, a4, a5, a6, a7, a8, a9⟩, b, c⟩

theorem txFinish_safe (h : HandlerPre s) (hp : s.drv.txPhase ≠ .idle) : HandlerSafe s (txFinish s) := by
  refine ⟨by constructor <;> simp [txFinish], by simp [txFinish], by simp [txFinish],
    rxGood_idle h.rx ?_ ?_ ?_ ?_ ?_ ?_, ⟨?_, ?_⟩, ?_, ?_, ?_⟩ <;>
    simp [txFinish, h.rx.inv.bit, h.txBuf, hp, onLine]

theorem txStartAttempt_safe (h : HandlerPre s) (hp : s.drv.txPhase ≠ .idle) :
    HandlerSafe s (txStartAttempt t s) := by
  have hb := h.tx.busy hp
  have hw : s.drv.evTx = false := by
    cases he : s.drv.evTx with
    | false => rfl
    | true => exact absurd (h.woken he) hp
  refine ⟨by constructor <;> simp [txStartAttempt], by simp [txStartAttempt], by simp [txStartAttempt],
    rxGood_idle h.rx ?_ ?_ ?_ ?_ ?_ ?_, ⟨?_, ?_⟩, ?_, ?_, ?_⟩ <;>
    simp [txStartAttempt, h.rx.inv.bit, h.txBuf, hp, hb, hw]
  omega

theorem HandlerPre.quiet (h : HandlerPre s) (hp : s.drv.txPhase ≠ .idle) : s.drv.evTx = false := by
  cases he : s.drv.evTx with
  | false => rfl
  | true => exact absurd (h.woken he) hp

/-- A handler that leaves the receive registers and the request alone and the send in progress with its alarm armed. -/
theorem handlerSafe_going {u : State} (h : HandlerPre s) (hp : s.drv.txPhase ≠ .idle) (ho : DrvOnly s u)
    (hk : u.drv.enabled = s.drv.enabled ∧ u.drv.selfLa = s.drv.selfLa ∧ u.drv.txBuf = s.drv.txBuf ∧
      u.drv.txLen = s.drv.txLen ∧ u.drv.evTx = s.drv.evTx)
    (hr : RxGood u.drv) (ha : ∃ t, u.drv.alarmTx = some t)
    (hat : 1 ≤ u.drv.txAttempt ∧ u.drv.txAttempt ≤ maxAttempts)
    (hc : onLine u.drv.txPhase = true → u.drv.txByte < u.drv.txLen ∧ u.drv.txBit ≤ 9) : HandlerSafe s u := by
  obtain ⟨b1, b2, b3, b4, -, -⟩ := h.tx.busy hp
  obtain ⟨k1, k2, k3, k4, k5⟩ := hk
  exact ⟨ho, k1, k2, hr,
    ⟨fun _ => ⟨k1.trans b1, by omega, by omega, by rw [k3, k4]; exact b4, hat.1, hat.2, ha⟩, hc⟩,
    by rw [k3]; exact h.txBuf, fun _ => hp, fun he => by rw [k5, h.quiet hp] at he; cases he⟩

theorem txTimeout_safe (h : HandlerPre s) (hp : s.drv.txPhase ≠ .idle) : HandlerSafe s (txTimeout s) := by
  refine ⟨by constructor <;> simp [txTimeout, txFinish], by simp [txTimeout, txFinish], by simp [txTimeout, txFinish],
    rxGood_idle h.rx ?_ ?_ ?_ ?_ ?_ ?_, ⟨?_, ?_⟩, ?_, ?_, ?_⟩ <;>
    simp [txTimeout, txFinish, h.rx.inv.bit, h.txBuf, hp, onLine]

theorem txWaitAlarm_safe (h : HandlerPre s) (hp : s.drv.txPhase = .wait) : HandlerSafe s (txWaitAlarm t s) := by
  have hn : s.drv.txPhase ≠ .idle := by simp [hp]
  unfold txWaitAlarm
  split
  · exact txStartAttempt_safe h hn
  · split
    · exact txTimeout_safe h hn
    · have hb := h.tx.busy hn
      exact handlerSafe_going h hn (by constructor <;> rfl) (by simp) (rxGood_same h.rx rfl rfl rfl rfl rfl rfl rfl rfl
        rfl rfl) (by simp) (by simp [hb]) (by simp [hp, onLine])

/-- A handler that only moves the send on inside an attempt: drive, phase, cell and alarm. -/
theorem txStartRelease_safe (h : HandlerPre s) (hp : onLine s.drv.txPhase = true) :
    HandlerSafe s (txStartRelease s) := by
  have hn : s.drv.txPhase ≠ .idle := fun e => by simp [e, onLine] at hp
  have hb := h.tx.busy hn
  have hc := h.tx.cell hp
  unfold txStartRelease
  exact handlerSafe_going h hn (by constructor <;> simp) (by simp) (rxGood_same h.rx (by simp) (by simp) (by simp)
    (by simp) (by simp) (by simp) (by simp) (by simp) (by simp) (by simp)) (by simp) (by simp [hb]) (by simp [hc])

theorem txBitRelease_safe (h : HandlerPre s) (hp : onLine s.drv.txPhase = true) :
    HandlerSafe s (txBitRelease s) := by
  have hn : s.drv.txPhase ≠ .idle := fun e => by simp [e, onLine] at hp
  have hb := h.tx.busy hn
  have hc := h.tx.cell hp
  unfold txBitRelease
  split <;>
  exact handlerSafe_going h hn (by constructor <;> simp) (by simp) (rxGood_same h.rx (by simp) (by simp) (by simp)
    (by simp) (by simp) (by simp) (by simp) (by simp) (by simp) (by simp)) (by simp) (by simp [hb]) (by simp [hc])

/-- R114's bit value is there for a byte below the length. -/
theorem txBitValue_ok {k : Nat} (j : Nat) (hf : memFilled s.drv.txBuf s.drv.txLen) (hk : k < s.drv.txLen) :
    ∃ v, txBitValue k j s = .ok v := by
  unfold txBitValue
  split
  · obtain ⟨b, hb, -⟩ := bufRead_ok hf hk
    exact ⟨_, by rw [hb]⟩
  · split <;> exact ⟨_, rfl⟩

theorem txBeginCell_safe (h : HandlerPre s) (hp : s.drv.txPhase ≠ .idle) (hk : s.drv.txByte < s.drv.txLen)
    (hj : s.drv.txBit ≤ 9) : ∃ u, txBeginCell t s = .ok u ∧ HandlerSafe s u := by
  have hb := h.tx.busy hp
  obtain ⟨v, hv⟩ := txBitValue_ok (s := s) s.drv.txBit hb.2.2.2.1 hk
  refine ⟨_, by rw [txBeginCell, hv], ?_⟩
  unfold txDriveCell
  exact handlerSafe_going h hp (by constructor <;> simp) (by simp) (rxGood_same h.rx (by simp) (by simp) (by simp)
    (by simp) (by simp) (by simp) (by simp) (by simp) (by simp) (by simp)) (by simp) (by simp [hb]) (by simp [hk, hj])

theorem txAwaitCellEnd_safe (h : HandlerPre s) (hp : onLine s.drv.txPhase = true) (ok : Bool) :
    HandlerSafe s (txAwaitCellEnd (updDrv (fun d => { d with txBlockOk := ok }) s)) := by
  have hn : s.drv.txPhase ≠ .idle := fun e => by simp [e, onLine] at hp
  have hb := h.tx.busy hn
  have hc := h.tx.cell hp
  unfold txAwaitCellEnd
  exact handlerSafe_going h hn (by constructor <;> simp) (by simp) (rxGood_same h.rx (by simp) (by simp) (by simp)
    (by simp) (by simp) (by simp) (by simp) (by simp) (by simp) (by simp)) (by simp) (by simp [hb]) (by simp [hc])

theorem txAttemptFailed_safe (h : HandlerPre s) (hp : onLine s.drv.txPhase = true) :
    HandlerSafe s (txAttemptFailed s) := by
  have hn : s.drv.txPhase ≠ .idle := fun e => by simp [e, onLine] at hp
  have hb := h.tx.busy hn
  unfold txAttemptFailed beginWait
  dsimp only
  split
  · exact handlerSafe_going h hn (by constructor <;> simp) (by simp) (rxGood_same h.rx (by simp) (by simp) (by simp)
      (by simp) (by simp) (by simp) (by simp) (by simp) (by simp) (by simp)) (by simp) (by simp; omega)
      (by simp [onLine])
  · have hr : HandlerPre (record (.nack s.drv.txAttempt) s) := ⟨h.rx, h.tx, h.txBuf, h.woken⟩
    have k := txFinish_safe hr hn
    exact ⟨DrvOnly.trans (by constructor <;> rfl) k.only, k.enabled, k.selfLa, k.rx, k.tx, k.txBuf, k.sending,
      k.woken⟩

/-- R119 answers: the bytes already sent are the receive path's, and the send has ended. -/
theorem txArbLost_ok (hf : memFilled s.drv.txBuf s.drv.txLen) (hk : s.drv.txByte < s.drv.txLen) :
    ∃ hdr sent cur, sent.length = s.drv.txByte ∧ bufRead s.drv.txBuf s.drv.txLen 0 = .ok hdr ∧
      bufTake s.drv.txBuf s.drv.txLen s.drv.txByte = .ok sent ∧
      bufRead s.drv.txBuf s.drv.txLen s.drv.txByte = .ok cur ∧
      txArbLost s = .ok (txEndLost (txHandOff hdr sent cur (record (.arbLost s.drv.txByte s.drv.txBit) s))) := by
  obtain ⟨hdr, h1, -⟩ := bufRead_ok hf (i := 0) (by omega)
  obtain ⟨sent, h2, hl⟩ := bufTake_ok hf (Nat.le_of_lt hk)
  obtain ⟨cur, h3, -⟩ := bufRead_ok hf hk
  exact ⟨hdr, sent, cur, hl, h1, h2, h3, by simp [txArbLost, h1, h2, h3]⟩

theorem sentBytes_length (j : Nat) (sent : List Byte) (cur : Byte) :
    (sentBytes j sent cur).length = if j ≤ 7 then sent.length else sent.length + 1 := by
  unfold sentBytes
  split <;> simp

theorem txArbLost_safe (h : HandlerPre s) (hp : onLine s.drv.txPhase = true) :
    ∃ u, txArbLost s = .ok u ∧ HandlerSafe s u := by
  have hn : s.drv.txPhase ≠ .idle := fun e => by simp [e, onLine] at hp
  obtain ⟨-, -, b3, b4, -⟩ := h.tx.busy hn
  obtain ⟨c1, c2⟩ := h.tx.cell hp
  obtain ⟨hdr, sent, cur, hl, -, -, -, e⟩ := txArbLost_ok b4 c1
  have hlen := sentBytes_length s.drv.txBit sent cur
  refine ⟨_, e, by constructor <;> rfl, rfl, rfl, ⟨⟨c2, ?_, memFilled_memStore _ _, ?_, ?_, ?_, ?_, h.rx.inv.mailbox,
    ?_⟩, wf_memStore _ ?_ h.rx.rxBuf, h.rx.mbBuf⟩, ⟨?_, ?_⟩, h.txBuf, ?_, ?_⟩ <;>
    simp [txEndLost, txHandOff, onLine, hn]
  all_goals (split at hlen <;> omega)

theorem txSample_safe (h : HandlerPre s) (hp : onLine s.drv.txPhase = true) :
    ∃ u, txSample s = .ok u ∧ HandlerSafe s u := by
  have hn : s.drv.txPhase ≠ .idle := fun e => by simp [e, onLine] at hp
  obtain ⟨-, -, -, b4, -⟩ := h.tx.busy hn
  obtain ⟨c1, -⟩ := h.tx.cell hp
  unfold txSample
  split
  · obtain ⟨hdr, h1, -⟩ := bufRead_ok b4 (i := 0) (by omega)
    simp only [h1]
    exact ⟨_, rfl, txAwaitCellEnd_safe h hp _⟩
  · split
    · exact txArbLost_safe h hp
    · exact ⟨_, rfl, txAwaitCellEnd_safe h hp s.drv.txBlockOk⟩

/-- A change of the transmit position alone, inside an attempt. -/
theorem handlerPre_position (h : HandlerPre s) {k j : Nat} (hk : k < s.drv.txLen) (hj : j ≤ 9) :
    HandlerPre (updDrv (fun d => { d with txByte := k, txBit := j }) s) :=
  ⟨rxGood_same h.rx rfl rfl rfl rfl rfl rfl rfl rfl rfl rfl, ⟨h.tx.busy, fun _ => ⟨hk, hj⟩⟩, h.txBuf, h.woken⟩

theorem handlerSafe_of_position {k j : Nat} {u : State}
    (h : HandlerSafe (updDrv (fun d => { d with txByte := k, txBit := j }) s) u) : HandlerSafe s u :=
  ⟨DrvOnly.trans (by constructor <;> rfl) h.only, h.enabled, h.selfLa, h.rx, h.tx, h.txBuf, h.sending, h.woken⟩

theorem txCellEnd_safe (h : HandlerPre s) (hp : onLine s.drv.txPhase = true) :
    ∃ u, txCellEnd t s = .ok u ∧ HandlerSafe s u := by
  have hn : s.drv.txPhase ≠ .idle := fun e => by simp [e, onLine] at hp
  obtain ⟨c1, c2⟩ := h.tx.cell hp
  unfold txCellEnd
  split
  · obtain ⟨u, hu, hs⟩ := txBeginCell_safe (t := t)
      (handlerPre_position (k := s.drv.txByte) (j := s.drv.txBit + 1) h c1 (by omega)) hn c1 (by simp; omega)
    exact ⟨u, hu, handlerSafe_of_position hs⟩
  · split
    · exact ⟨_, rfl, txAttemptFailed_safe h hp⟩
    · split
      · have hr : HandlerPre (updDrv (fun d => { d with txResult := { d.txResult with acked := true } }) s) :=
          ⟨rxGood_same h.rx rfl rfl rfl rfl rfl rfl rfl rfl rfl rfl, ⟨h.tx.busy, h.tx.cell⟩, h.txBuf, h.woken⟩
        have k := txFinish_safe hr hn
        exact ⟨_, rfl, DrvOnly.trans (by constructor <;> rfl) k.only, k.enabled, k.selfLa, k.rx, k.tx, k.txBuf,
          k.sending, k.woken⟩
      · obtain ⟨u, hu, hs⟩ := txBeginCell_safe (t := t)
          (handlerPre_position (k := s.drv.txByte + 1) (j := 0) h (by omega) (by omega)) hn (by simp; omega) (by simp)
        exact ⟨u, hu, handlerSafe_of_position hs⟩

/-- A handler that changes nothing. -/
theorem handlerSafe_refl (h : HandlerPre s) (ht : TxInv s.drv) : HandlerSafe s s :=
  ⟨DrvOnly.refl s, rfl, rfl, h.rx, ht, h.txBuf, id, fun he => ⟨h.woken he, .inl he⟩⟩

theorem txAlarm_safe (h : HandlerPre s) : ∃ u, txAlarm t s = .ok u ∧ HandlerSafe s u := by
  unfold txAlarm
  split
  · rename_i hp
    exact ⟨_, rfl, handlerSafe_refl h ⟨fun hn => absurd hp hn, h.tx.cell⟩⟩
  · rename_i hp
    exact ⟨_, rfl, txWaitAlarm_safe h hp⟩
  · rename_i hp
    exact ⟨_, rfl, txStartRelease_safe h (by simp [hp, onLine])⟩
  · rename_i hp
    have hc := h.tx.cell (by simp [hp, onLine])
    exact txBeginCell_safe h (by simp [hp]) hc.1 hc.2
  · rename_i hp
    exact ⟨_, rfl, txBitRelease_safe h (by simp [hp, onLine])⟩
  · rename_i hp
    exact txSample_safe h (by simp [hp, onLine])
  · rename_i hp
    exact txCellEnd_safe h (by simp [hp, onLine])

end Transmit

/-! ## Interrupts -/

section Interrupts

variable {s : State}

/-- What the invariant gives a handler. -/
structure DrvInv (s : State) : Prop where
  rx : RxGood s.drv
  tx : TxInv s.drv
  txBuf : Memory.wf maxFrame s.drv.txBuf = true
  woken : s.drv.evTx = true → s.drv.txPhase = .idle

theorem DrvInv.pre (h : DrvInv s) : HandlerPre s := ⟨h.rx, h.tx.reg, h.txBuf, h.woken⟩

/-- A receive handler's safety is a handler's. -/
theorem RxSafe.handler {u : State} (h : DrvInv s) (k : RxSafe s u) : HandlerSafe s u := by
  obtain ⟨ho, hk, hg⟩ := k
  refine ⟨ho, hk.enabled, hk.selfLa, hg, ⟨?_, ?_⟩, by rw [hk.txBuf]; exact h.txBuf, by rw [hk.txPhase]; exact id, ?_⟩
  · rw [hk.txPhase, hk.enabled, hk.txLen, hk.txBuf, hk.txAttempt, hk.alarmTx]
    exact h.tx.busy
  · rw [hk.txPhase, hk.txByte, hk.txBit, hk.txLen]
    exact h.tx.cell
  · rw [hk.evTx, hk.txPhase]
    exact fun he => ⟨h.woken he, .inl he⟩

theorem txRearmWait_safe {u : State} (k : HandlerSafe s u) : HandlerSafe s (txRearmWait u) := by
  unfold txRearmWait
  split
  · rename_i hp
    refine ⟨k.only.trans (by constructor <;> rfl), k.enabled, k.selfLa,
      rxGood_same k.rx rfl rfl rfl rfl rfl rfl rfl rfl rfl rfl, ⟨fun hn => ?_, k.tx.cell⟩, k.txBuf, k.sending, k.woken⟩
    obtain ⟨b1, b2, b3, b4, b5, b6, -⟩ := k.tx.busy hn
    exact ⟨b1, b2, b3, b4, b5, b6, _, rfl⟩
  · exact k

theorem noteLine_safe (h : RxGood s.drv) (t : Micros) (lvl : Level) : RxSafe s (noteLine t lvl s) :=
  rxSafe_updDrv (by constructor <;> rfl) (rxGood_same h rfl rfl rfl rfl rfl rfl rfl rfl rfl rfl)

theorem clearJustTransmitted_safe (h : RxGood s.drv) (lvl : Level) : RxSafe s (clearJustTransmitted lvl s) := by
  cases lvl with
  | low =>
    unfold clearJustTransmitted
    exact rxSafe_updDrv (by constructor <;> rfl) (rxGood_same h rfl rfl rfl rfl rfl rfl rfl rfl rfl rfl)
  | high => exact rxSafe_refl h

theorem edgeIsr_safe (h : DrvInv s) (t : Micros) (lvl : Level) :
    ∃ u, edgeIsr t lvl s = .ok u ∧ HandlerSafe s u := by
  unfold edgeIsr
  split
  · rename_i he
    have h1 := noteLine_safe h.rx t lvl
    split
    · exact ⟨_, rfl, h1.handler h⟩
    · have h2 := h1.trans (clearJustTransmitted_safe h1.good lvl)
      obtain ⟨u, hu, hs⟩ := rxDispatch_safe (t := t) (lvl := lvl) h2.good (h2.keeps.enabled.trans he)
      exact ⟨_, by rw [hu]; rfl, txRearmWait_safe ((h2.trans hs).handler h)⟩
  · exact ⟨_, rfl, handlerSafe_refl h.pre h.tx⟩

theorem map_leaveHandler (r : Except Fault State) : r.map leaveHandler = r := by cases r <;> rfl

/-- Taking an edge: the oldest pending one, with its own time and level. -/
theorem takeInterrupt_edge :
    takeInterrupt .edge s =
      match s.edges with
      | [] => .ok s
      | e :: es => edgeIsr e.1 e.2 { s with edges := es } := by
  unfold takeInterrupt enterHandler
  cases s.edges <;> simp [map_leaveHandler]

/-- Taking the send alarm, if it is due: the channel is disarmed and the handler gets the time it runs at. -/
theorem takeInterrupt_tx :
    takeInterrupt (.alarm .tx) s =
      if alarmDue s.drv.alarmTx s.now then alarmIsr .tx s.now (cancel .tx s) else .ok s := by
  unfold takeInterrupt enterHandler alarmDue
  cases s.drv.alarmTx with
  | none => rfl
  | some d => by_cases h : d ≤ s.now <;> simp [h, map_leaveHandler]

/-- Taking the ACK alarm, if it is due. -/
theorem takeInterrupt_ack :
    takeInterrupt (.alarm .ack) s =
      if alarmDue s.drv.alarmAck s.now then alarmIsr .ack s.now (cancel .ack s) else .ok s := by
  unfold takeInterrupt enterHandler alarmDue
  cases s.drv.alarmAck with
  | none => rfl
  | some d => by_cases h : d ≤ s.now <;> simp [h, map_leaveHandler]

theorem takeAlarmTx_safe (h : DrvInv s) :
    ∃ u, takeInterrupt (.alarm .tx) s = .ok u ∧ HandlerSafe s u := by
  rw [takeInterrupt_tx]
  split
  · unfold alarmIsr
    have hc : HandlerPre (cancel .tx s) :=
      ⟨rxGood_same h.rx rfl rfl rfl rfl rfl rfl rfl rfl rfl rfl, ⟨h.tx.reg.busy, h.tx.reg.cell⟩, h.txBuf, h.woken⟩
    split
    · obtain ⟨u, hu, k⟩ := txAlarm_safe (t := s.now) hc
      exact ⟨u, hu, DrvOnly.trans (by constructor <;> rfl) k.only, k.enabled, k.selfLa, k.rx, k.tx, k.txBuf,
        k.sending, k.woken⟩
    · rename_i he
      refine ⟨_, rfl, by constructor <;> rfl, rfl, rfl, hc.rx, ⟨fun hn => ?_, hc.tx.cell⟩, hc.txBuf, id,
        fun e => ⟨hc.woken e, .inl e⟩⟩
      exact absurd (hc.tx.busy hn).1 (by simpa using he)
  · exact ⟨_, rfl, handlerSafe_refl h.pre h.tx⟩

theorem takeAlarmAck_safe (h : DrvInv s) :
    ∃ u, takeInterrupt (.alarm .ack) s = .ok u ∧ HandlerSafe s u := by
  rw [takeInterrupt_ack]
  have hi := h.rx.inv
  have hgood : ∀ u : State, u.drv.rxAcking = false → u.drv.rxBit = s.drv.rxBit → u.drv.rxLen = s.drv.rxLen →
      u.drv.rxBuf = s.drv.rxBuf → u.drv.rxState = s.drv.rxState → u.drv.mbFull = s.drv.mbFull →
      u.drv.mbLen = s.drv.mbLen → u.drv.mbBuf = s.drv.mbBuf → RxGood u.drv := by
    intro u h0 h1 h2 h3 h4 h5 h6 h7
    obtain ⟨⟨a1, a2, a3, a4, a5, a6, a7, a8, -⟩, b, c⟩ := h.rx
    rw [← h1, ← h2, ← h3, ← h4, ← h5, ← h6, ← h7] at *
    exact ⟨⟨a1, a2, a3, a4, a5, a6, a7, a8, by simp [h0]⟩, b, c⟩
  split
  · unfold alarmIsr
    have key : ∀ u : State, DrvOnly s u → u.drv.rxAcking = false → RxKeeps s.drv u.drv → RxGood u.drv →
        HandlerSafe s u := fun u ho _ hk hg => RxSafe.handler h ⟨ho, hk, hg⟩
    have hstop : s.drv.rxAcking = false → HandlerSafe s (cancel .ack s) := fun ha =>
      key _ (by constructor <;> rfl) ha (by constructor <;> rfl) (hgood _ ha rfl rfl rfl rfl rfl rfl rfl)
    split
    · refine ⟨_, rfl, ?_⟩
      split
      · exact key _ (by constructor <;> simp [rxDropAck]) (by simp [rxDropAck]) (by constructor <;> simp [rxDropAck])
          (hgood _ (by simp [rxDropAck]) (by simp [rxDropAck]) (by simp [rxDropAck]) (by simp [rxDropAck])
            (by simp [rxDropAck]) (by simp [rxDropAck]) (by simp [rxDropAck]) (by simp [rxDropAck]))
      · rename_i ha
        exact hstop (by simpa using ha)
    · rename_i he
      refine ⟨_, rfl, hstop ?_⟩
      cases ha : s.drv.rxAcking with
      | false => rfl
      | true => exact absurd (hi.acking ha).1 (by simpa using he)
  · exact ⟨_, rfl, handlerSafe_refl h.pre h.tx⟩

theorem takeEdge_safe (h : DrvInv s) : ∃ u, takeInterrupt .edge s = .ok u ∧ HandlerSafe s u := by
  rw [takeInterrupt_edge]
  split
  · exact ⟨_, rfl, handlerSafe_refl h.pre h.tx⟩
  · rename_i e es _
    have h1 : DrvInv { s with edges := es } := ⟨h.rx, h.tx, h.txBuf, h.woken⟩
    obtain ⟨u, hu, k⟩ := edgeIsr_safe h1 e.1 e.2
    exact ⟨u, hu, DrvOnly.trans (by constructor <;> rfl) k.only, k.enabled, k.selfLa, k.rx, k.tx, k.txBuf, k.sending,
      k.woken⟩

/-- A taken interrupt answers, whatever its source, and everything it leaves true. -/
theorem takeInterrupt_safe (h : DrvInv s) (src : Source) : ∃ u, takeInterrupt src s = .ok u ∧ HandlerSafe s u := by
  match src with
  | .edge => exact takeEdge_safe h
  | .alarm .tx => exact takeAlarmTx_safe h
  | .alarm .ack => exact takeAlarmAck_safe h

end Interrupts

end Sys2Proof.Machine
end

