-- ==== Sys2Proof/Laws/Engine.lean ====
section
/-! SUPPORT. What each operation of the engine does: the send and its wait, the actions of a rule, the gate. From a state
in which the engine holds no send, every one answers a next state and keeps the machine's invariant. -/

namespace Sys2Proof.Machine

/-! ## One spec lemma per operation -/

/-- `send_frame` when it is allowed: the request is set up and the wait for a free bus begins (40 R105, R108). -/
theorem sendFrame_ok {s : State} (bytes : List Byte) (he : s.drv.enabled = true) (hp : s.drv.txPhase = .idle) :
    sendFrame bytes s = .ok (beginWait
      (updDrv (fun d => { d with txBuf := memStore d.txBuf 0 bytes, txLen := bytes.length,
                                 txResult := TxResult.none, txUsedBus := false, txAttempt := 1,
                                 txFreeReq := freeSelect .first s }) s)) := by
  simp [sendFrame, he, hp]

/-- `send_frame` faults exactly when the driver is not enabled or a send is in progress (40 R105). -/
theorem sendFrame_busy {s : State} (bytes : List Byte) (h : ¬(s.drv.enabled = true ∧ s.drv.txPhase = .idle)) :
    sendFrame bytes s = .error .txBusy := by
  simp [sendFrame, h]

/-- `codec_send` of an insane frame: refused and recorded, with no bus activity (41 R129). -/
theorem codecSend_insane {s : State} {bytes : List Byte} (h : sane bytes = false) :
    codecSend bytes s = .ok ([], updEng (fun e => { e with ret := TxResult.none }) (record (.codecReject bytes) s)) := by
  simp [codecSend, h]

/-- `codec_send` of a sane frame is `send_frame`, then its wait (41 R129). -/
theorem codecSend_sane {s t : State} {bytes : List Byte} (h : sane bytes = true) (ht : sendFrame bytes s = .ok t) :
    codecSend bytes s = .ok ([.sendWait], t) := by
  simp [codecSend, h, ht]

/-- An action that ends at once runs into the next. -/
theorem runFrom_done {a : Act} {as : List Act} {s s1 : State} (h : runAct a s = .done s1) :
    runFrom a as s = runActs as s1 := by
  simp [runFrom, h]

/-- An action that stops leaves the rest to do. -/
theorem runFrom_stop {a : Act} {as more : List Act} {s s1 : State} (h : runAct a s = .stop s1 more) :
    runFrom a as s = .next (pushActs (more ++ as) s1) := by
  simp [runFrom, h]

/-- An action that touches what a handler touches is left for a step of its own (60 R202). -/
theorem runActs_starts {a : Act} (as : List Act) (s : State) (h : a.startsStep = true) :
    runActs (a :: as) s = .next (pushActs (a :: as) s) := by
  simp [runActs, h]

/-- Any other action runs in the step it comes up in. -/
theorem runActs_runs {a : Act} (as : List Act) (s : State) (h : a.startsStep = false) :
    runActs (a :: as) s = runFrom a as s := by
  simp [runActs, runFrom, h]

@[simp] theorem runActs_nil (s : State) : runActs [] s = .next s := rfl

/-- A message to send stops the rule: built from the state of this instant, it is the next instruction. -/
theorem runActs_send (m : Msg) (as : List Act) (s : State) :
    runActs (.send m :: as) s = .next (pushActs (.instr (buildMsg m s) :: as) s) := rfl

/-- A row whose gate is open runs its rule (43 R145). -/
theorem gated_open {mode : GateMode} {k : Nat} {init dest : La} {ops : List Byte} {s : State} {rule : State → Result}
    (h : gateOpen mode init dest s = true) (hk : k ≤ ops.length) : gated mode k init dest ops s rule = rule s := by
  simp [gated, h, hk]

/-- A row whose gate is closed, or whose frame is too short, changes nothing (43 R145). -/
theorem gated_closed {mode : GateMode} {k : Nat} {init dest : La} {ops : List Byte} {s : State}
    {rule : State → Result} (h : ¬(gateOpen mode init dest s = true ∧ k ≤ ops.length)) :
    gated mode k init dest ops s rule = .next s := by
  simp only [gated, if_neg h]

/-- Every message the engine builds is a transmitted instruction. -/
theorem buildMsg_direction (m : Msg) (s : State) : (buildMsg m s).direction = .tx := by cases m <;> rfl

/-! ## The invariant through an engine step -/

/-- The machine's invariant in a state in which the engine holds no send: `acts` is what the engine still has to do. -/
structure EngineQuiet (acts : List Act) (s : State) : Prop where
  mem : MemInv s
  rx : RxInv s.drv
  phase : s.drv.txPhase = .idle
  evTx : s.drv.evTx = false
  enabled : s.drv.enabled = true
  inRule : ∀ a ∈ acts, a.inRule = true
  sendsOnly : ∀ i, Act.instr i ∈ acts → i.direction = .tx
  published : s.drv.selfLa = s.eng.selfLa
  lost : s.eng.lostCount ≤ 2 ∨ (s.eng.lostCount = 3 ∧ Act.resetLost ∈ acts)
  keyq : s.keyq.length ≤ s.par.keyqDepth

/-- A quiet state with its actions left to do meets the invariant. -/
theorem EngineQuiet.inv {s : State} (h : EngineQuiet s.eng.todo s) : RegInv s :=
  ⟨h.mem, h.rx, ⟨fun hn => absurd h.phase hn, fun hc => by simp [h.phase, onLine] at hc⟩,
    ⟨fun hn => absurd h.phase hn, fun he => absurd (h.evTx.symm.trans he) (by simp),
      fun a hm => h.inRule a (List.mem_of_mem_tail hm),
      fun n rest e => absurd (h.inRule (.received n) (by rw [e]; exact List.mem_cons_self)) (by simp [Act.inRule]),
      h.sendsOnly, fun _ _ => h.enabled, fun _ => h.enabled, h.published, h.lost, h.keyq⟩⟩

/-- The operations of the engine that neither send nor wait change no register of the driver but the address. -/
structure EngineKeeps (s u : State) : Prop where
  drv : u.drv = { s.drv with selfLa := u.drv.selfLa }
  published : u.drv.selfLa = u.eng.selfLa
  fbuf : Memory.wf maxFrame u.eng.fbuf = true
  keyMap : u.cfg.keyMap = s.cfg.keyMap
  keyq : u.keyq.length ≤ u.par.keyqDepth

theorem EngineQuiet.of_keeps {s u : State} {acts acts' : List Act} (h : EngineQuiet acts s) (k : EngineKeeps s u)
    (hw : ∀ a ∈ acts', a.inRule = true) (hi : ∀ i, Act.instr i ∈ acts' → i.direction = .tx)
    (hl : u.eng.lostCount ≤ 2 ∨ (u.eng.lostCount = 3 ∧ Act.resetLost ∈ acts')) : EngineQuiet acts' u := by
  obtain ⟨a1, a2, a3, a4, a5, a6, a7, a8, a9⟩ := h.rx
  have hd := k.drv
  refine ⟨⟨?_, ?_, ?_, k.fbuf, by rw [k.keyMap]; exact h.mem.keyMap⟩, ⟨?_, ?_, ?_, ?_, ?_, ?_, ?_, ?_, ?_⟩, ?_, ?_, ?_,
    hw, hi, k.published, hl, k.keyq⟩ <;> rw [hd]
  exacts [h.mem.rxBuf, h.mem.mbBuf, h.mem.txBuf, a1, a2, a3, a4, a5, a6, a7, a8, a9, h.phase, h.evTx, h.enabled]

/-- What is left of a rule is still quiet without its first action. -/
theorem EngineQuiet.tail {s : State} {a : Act} {as : List Act} (h : EngineQuiet (a :: as) s) (ha : a ≠ .resetLost) :
    EngineQuiet as s :=
  ⟨h.mem, h.rx, h.phase, h.evTx, h.enabled, fun a hm => h.inRule a (List.mem_cons_of_mem _ hm),
    fun i hm => h.sendsOnly i (List.mem_cons_of_mem _ hm), h.published,
    h.lost.imp id fun ⟨e, hm⟩ => ⟨e, (List.mem_cons.1 hm).resolve_left fun x => ha x.symm⟩, h.keyq⟩

/-- A quiet state meets the invariant with those actions as what is left to do. -/
theorem EngineQuiet.setTodo_inv {s : State} {acts : List Act} (h : EngineQuiet acts s) : RegInv (setTodo acts s) :=
  EngineQuiet.inv ⟨⟨h.mem.rxBuf, h.mem.mbBuf, h.mem.txBuf, h.mem.fbuf, h.mem.keyMap⟩, h.rx, h.phase, h.evTx, h.enabled,
    h.inRule, h.sendsOnly, h.published, h.lost, h.keyq⟩

/-- The set-up of a send keeps the invariant, with the wait for it first among what is left to do. -/
theorem sendFrame_safe {s : State} {acts : List Act} {bytes : List Byte} (h : EngineQuiet acts s)
    (h1 : 1 ≤ bytes.length) (h2 : bytes.length ≤ maxFrame) :
    ∃ u, sendFrame bytes s = .ok u ∧ u.eng = s.eng ∧ RegInv (setTodo (.sendWait :: acts) u) := by
  have hw := wf_memStore bytes (lo := 0) (by omega) h.mem.txBuf
  refine ⟨_, sendFrame_ok bytes h.enabled h.phase, rfl, ⟨?_, ?_, ?_, ?_⟩⟩
  · refine ⟨?_, ?_, ?_, ?_, ?_⟩ <;> simp [h.mem.rxBuf, h.mem.mbBuf, hw, h.mem.fbuf,
      h.mem.keyMap]
  · refine (rxGood_same ⟨h.rx, h.mem.rxBuf, h.mem.mbBuf⟩ ?_ ?_ ?_ ?_ ?_ ?_ ?_ ?_ ?_ ?_).inv <;> simp
  · refine ⟨fun _ => ?_, fun hc => ?_⟩
    · simp [h.enabled, h1, h2, memFilled_memStore, maxAttempts]
    · simp [onLine] at hc
  · refine ⟨fun _ => ⟨acts, rfl⟩, fun he => ?_, h.inRule, nofun, fun i hm => ?_, fun _ _ => ?_, fun _ => ?_, ?_,
      h.lost.imp id fun ⟨e, hm⟩ => ⟨e, List.mem_cons_of_mem _ hm⟩, h.keyq⟩
    · simp [h.evTx] at he
    · exact h.sendsOnly i ((List.mem_cons.1 hm).resolve_left (by simp))
    · simp [h.enabled]
    · simp [h.enabled]
    · simp [h.published]

theorem sane_length {bytes : List Byte} (h : sane bytes = true) : 1 ≤ bytes.length ∧ bytes.length ≤ maxFrame := by
  match bytes with
  | [] => cases h
  | [_] => simp [maxFrame]
  | b :: op :: ops =>
    simp only [sane, Bool.and_eq_true, decide_eq_true_eq] at h
    exact ⟨by simp, h.1⟩

/-- `codec_send` answers, and keeps the invariant with what it answers first among what is left to do. -/
theorem codecSend_safe {s : State} {acts : List Act} (bytes : List Byte) (h : EngineQuiet acts s) :
    ∃ more u, codecSend bytes s = .ok (more, u) ∧ u.eng.todo = s.eng.todo ∧ RegInv (setTodo (more ++ acts) u) := by
  cases hs : sane bytes with
  | false =>
    refine ⟨[], _, codecSend_insane hs, rfl, EngineQuiet.setTodo_inv (h.of_keeps ⟨rfl, h.published, h.mem.fbuf, rfl,
      h.keyq⟩ h.inRule h.sendsOnly h.lost)⟩
  | true =>
    obtain ⟨h1, h2⟩ := sane_length hs
    obtain ⟨u, hu, he, hi⟩ := sendFrame_safe h h1 h2
    exact ⟨[.sendWait], u, codecSend_sane hs hu, by rw [he], hi⟩

/-- `tx`'s call answers, and keeps the invariant with what it answers first among what is left to do. -/
theorem txCall_safe {s : State} {acts : List Act} (bytes : List Byte) (n : Nat) (h : EngineQuiet acts s) :
    ∃ more u, txCall bytes n s = .ok (more, u) ∧ u.eng.todo = s.eng.todo ∧ RegInv (setTodo (more ++ acts) u) := by
  have h1 : EngineQuiet (.txLoop bytes n :: acts) s :=
    ⟨h.mem, h.rx, h.phase, h.evTx, h.enabled, by simpa [Act.inRule] using h.inRule, by simpa using h.sendsOnly, h.published,
      by simpa using h.lost, h.keyq⟩
  obtain ⟨more, u, hu, he, hi⟩ := codecSend_safe bytes h1
  exact ⟨more ++ [.txLoop bytes n], u, by simp [txCall, hu], he, by simpa using hi⟩

/-- How an action may leave things: done and quiet, or stopped with the invariant kept; never a fault. -/
def ActSafe (s : State) (as : List Act) : ActOut → Prop
  | .done u => u.eng.todo = s.eng.todo ∧ EngineQuiet as u
  | .stop u more => u.eng.todo = s.eng.todo ∧ RegInv (setTodo (more ++ as) u)
  | .fault _ => False

/-- An operation of the engine that keeps the driver, done at once. -/
theorem actSafe_done {s u : State} {a : Act} {as : List Act} (h : EngineQuiet (a :: as) s) (ha : a ≠ .resetLost)
    (ht : u.eng.todo = s.eng.todo) (k : EngineKeeps s u) (hl : u.eng.lostCount = s.eng.lostCount) :
    ActSafe s as (.done u) :=
  ⟨ht, h.of_keeps k (h.tail ha).inRule (h.tail ha).sendsOnly (by rw [hl]; exact (h.tail ha).lost)⟩

/-- An operation that stops with actions none of which is a wait for a send. -/
theorem actSafe_stop {s u : State} {a : Act} {as more : List Act} (h : EngineQuiet (a :: as) s) (ha : a ≠ .resetLost)
    (ht : u.eng.todo = s.eng.todo) (k : EngineKeeps s u) (hl : u.eng.lostCount = s.eng.lostCount)
    (hw : ∀ a ∈ more, a.inRule = true) (hi : ∀ i, Act.instr i ∈ more → i.direction = .tx) : ActSafe s as (.stop u more) := by
  have ht' := h.tail ha
  refine ⟨ht, EngineQuiet.setTodo_inv (h.of_keeps k ?_ ?_ ?_)⟩
  · exact fun a hm => (List.mem_append.1 hm).elim (hw a) (ht'.inRule a)
  · intro i hm
    exact (List.mem_append.1 hm).elim (hi i) (ht'.sendsOnly i)
  · rw [hl]
    exact ht'.lost.imp id fun ⟨e, hm⟩ => ⟨e, List.mem_append_right _ hm⟩

theorem EngineQuiet.keeps_self {s : State} {acts : List Act} (h : EngineQuiet acts s) : EngineKeeps s s :=
  ⟨rfl, h.published, h.mem.fbuf, rfl, h.keyq⟩

theorem keyPush_safe {s : State} {a : Act} {as : List Act} (h : EngineQuiet (a :: as) s) (ha : a ≠ .resetLost)
    (b : Byte) (d : Micros) : ActSafe s as (keyPush b d s) := by
  unfold keyPush
  split
  · rename_i hr
    refine actSafe_done h ha rfl ⟨rfl, h.published, h.mem.fbuf, rfl, ?_⟩ rfl
    simp only [keyqRoom, decide_eq_true_eq] at hr
    simp
    omega
  · split
    · exact actSafe_done h ha rfl ⟨rfl, h.published, h.mem.fbuf, rfl, h.keyq⟩ rfl
    · exact actSafe_stop h ha rfl h.keeps_self rfl (by simp [Act.inRule]) (by simp)

theorem allocateAt_keeps {s : State} {acts : List Act} (h : EngineQuiet acts s) (i : Nat) :
    EngineKeeps s (allocateAt i s).2 ∧ (allocateAt i s).2.eng.todo = s.eng.todo ∧
    (allocateAt i s).2.eng.lostCount = s.eng.lostCount ∧ (∀ a ∈ (allocateAt i s).1, a.inRule = true) ∧
    ∀ i', Act.instr i' ∈ (allocateAt i s).1 → i'.direction = .tx := by
  unfold allocateAt
  dsimp only
  split
  · exact ⟨⟨rfl, rfl, h.mem.fbuf, rfl, h.keyq⟩, rfl, rfl, by simp, by simp⟩
  · exact ⟨h.keeps_self, rfl, rfl, by simp [Act.inRule], by simp [Instr.direction]⟩

theorem actSafe_actOut {s u : State} {a : Act} {as more : List Act} (h : EngineQuiet (a :: as) s) (ha : a ≠ .resetLost)
    (ht : u.eng.todo = s.eng.todo) (k : EngineKeeps s u) (hl : u.eng.lostCount = s.eng.lostCount)
    (hw : ∀ a ∈ more, a.inRule = true) (hi : ∀ i, Act.instr i ∈ more → i.direction = .tx) :
    ActSafe s as (actOut (more, u)) := by
  cases more with
  | nil => exact actSafe_done h ha ht k hl
  | cons b bs => exact actSafe_stop h ha ht k hl hw hi

theorem EngineKeeps.trans {s u w : State} (h : EngineKeeps s u) (k : EngineKeeps u w) : EngineKeeps s w :=
  ⟨by rw [k.drv, h.drv], k.published, k.fbuf, k.keyMap.trans h.keyMap, k.keyq⟩

theorem allocateBegin_keeps {s : State} {acts : List Act} (h : EngineQuiet acts s) :
    EngineKeeps s (allocateBegin s).2 ∧ (allocateBegin s).2.eng.todo = s.eng.todo ∧
    (allocateBegin s).2.eng.lostCount = s.eng.lostCount ∧ (∀ a ∈ (allocateBegin s).1, a.inRule = true) ∧
    ∀ i, Act.instr i ∈ (allocateBegin s).1 → i.direction = .tx := by
  unfold allocateBegin
  dsimp only
  have k1 : EngineKeeps s (publishLa laBroadcast s) := ⟨rfl, rfl, h.mem.fbuf, rfl, h.keyq⟩
  split
  · exact ⟨k1, rfl, rfl, by simp [Act.inRule], by simp⟩
  · have h1 : EngineQuiet acts (publishLa laBroadcast s) := h.of_keeps k1 h.inRule h.sendsOnly h.lost
    obtain ⟨a, b, c, d, e⟩ := allocateAt_keeps h1 0
    exact ⟨k1.trans a, b, c, d, e⟩

/-- One action from a quiet state: done, stopped with the invariant kept, and no fault. -/
theorem runAct_safe {s : State} {a : Act} {as : List Act} (h : EngineQuiet (a :: as) s) : ActSafe s as (runAct a s) := by
  cases a with
  | instr i => exact actSafe_stop h (by simp) rfl h.keeps_self rfl (by simp [Act.inRule]) (fun j hm => h.sendsOnly j (by simp_all))
  | send m =>
    exact actSafe_stop h (by simp) rfl h.keeps_self rfl (by simp [Act.inRule]) (fun j hm => by
      simp at hm
      rw [hm]
      exact buildMsg_direction m s)
  | sendWait => exact absurd (h.inRule .sendWait List.mem_cons_self) (by simp [Act.inRule])
  | received n => exact absurd (h.inRule (.received n) List.mem_cons_self) (by simp [Act.inRule])
  | enable => exact absurd (h.inRule .enable List.mem_cons_self) (by simp [Act.inRule])
  | txLoop bytes calls =>
    unfold runAct
    dsimp only
    split
    · obtain ⟨more, u, hu, ht, hi⟩ := txCall_safe bytes (calls + 1) (h.tail (by simp))
      rw [hu]
      cases more with
      | nil =>
        exfalso
        unfold txCall at hu
        split at hu
        · cases hu
        · simp at hu
      | cons b bs => exact ⟨ht, hi⟩
    · exact actSafe_done h (by simp) rfl h.keeps_self rfl
  | enqueueKey b => exact keyPush_safe h (by simp) _ _
  | keyWait b d => exact keyPush_safe h (by simp) _ _
  | indicator i => exact actSafe_done h (by simp) rfl ⟨rfl, h.published, h.mem.fbuf, rfl, h.keyq⟩ rfl
  | indicatorSelected => exact actSafe_done h (by simp) rfl ⟨rfl, h.published, h.mem.fbuf, rfl, h.keyq⟩ rfl
  | setMenu b => exact actSafe_done h (by simp) rfl ⟨rfl, h.published, h.mem.fbuf, rfl, h.keyq⟩ rfl
  | resetLost =>
    refine ⟨rfl, h.of_keeps ⟨rfl, h.published, h.mem.fbuf, rfl, h.keyq⟩ (fun a hm => h.inRule a (by simp [hm]))
      (fun i hm => h.sendsOnly i (by simp [hm])) (.inl (by simp))⟩
  | announceIf new =>
    unfold runAct
    dsimp only
    split
    · exact actSafe_stop h (by simp) rfl h.keeps_self rfl (by simp [Act.inRule]) (by simp)
    · exact actSafe_done h (by simp) rfl h.keeps_self rfl
  | updateSelection b =>
    unfold runAct updateSelection
    dsimp only
    split
    · exact actSafe_done h (by simp) rfl ⟨rfl, h.published, h.mem.fbuf, rfl, h.keyq⟩ rfl
    · split
      · exact actSafe_done h (by simp) rfl ⟨rfl, h.published, h.mem.fbuf, rfl, h.keyq⟩ rfl
      · exact actSafe_done h (by simp) rfl h.keeps_self rfl
  | derivePa =>
    unfold runAct obtainPa derivePa drawEdid
    dsimp only
    split
    · exact actSafe_done h (by simp) rfl ⟨rfl, h.published, h.mem.fbuf, rfl, h.keyq⟩ rfl
    · split
      · exact actSafe_done h (by simp) rfl ⟨rfl, h.published, h.mem.fbuf, rfl, h.keyq⟩ rfl
      · exact actSafe_done h (by simp) rfl ⟨rfl, h.published, h.mem.fbuf, rfl, h.keyq⟩ rfl
  | allocate =>
    obtain ⟨k, ht, hl, hw, hi⟩ := allocateBegin_keeps h
    exact actSafe_actOut h (by simp) ht k hl hw hi
  | claim la => exact actSafe_done h (by simp) rfl ⟨rfl, rfl, h.mem.fbuf, rfl, h.keyq⟩ rfl
  | verdict c i =>
    unfold runAct probeVerdict
    dsimp only
    split
    · obtain ⟨k, ht, hl, hw, hi⟩ := allocateAt_keeps h (i + 1)
      exact actSafe_actOut h (by simp) ht k hl hw hi
    · exact actSafe_actOut h (by simp) rfl ⟨rfl, rfl, h.mem.fbuf, rfl, h.keyq⟩ rfl (by simp) (by simp)
  | enterLoop => exact actSafe_done h (by simp) rfl ⟨rfl, rfl, rfl, rfl, h.keyq⟩ rfl
  | recvWait =>
    unfold runAct recvWaitStep waitFlag
    dsimp only
    cases s.drv.evRx with
    | false => exact actSafe_stop h (by simp) rfl h.keeps_self rfl (by simp [Act.inRule]) (by simp)
    | true =>
      have ht := h.tail (by simp)
      obtain ⟨a1, a2, a3, a4, a5, a6, a7, a8, a9⟩ := ht.rx
      exact ⟨rfl, ⟨⟨ht.mem.rxBuf, ht.mem.mbBuf, ht.mem.txBuf, ht.mem.fbuf, ht.mem.keyMap⟩,
        ⟨a1, a2, a3, a4, a5, a6, a7, a8, a9⟩, ht.phase, ht.evTx, ht.enabled, ht.inRule, ht.sendsOnly, ht.published,
        ht.lost, ht.keyq⟩⟩

/-- A step that begins with any action of a rule answers a next state that meets the invariant, if what follows does. -/
theorem runFrom_safe {a : Act} {as : List Act} {s : State} (h : EngineQuiet (a :: as ++ s.eng.todo) s)
    (ih : ∀ {u : State}, EngineQuiet (as ++ u.eng.todo) u → ∃ t, runActs as u = .next t ∧ RegInv t) :
    ∃ t, runFrom a as s = .next t ∧ RegInv t := by
  have k := runAct_safe (a := a) (as := as ++ s.eng.todo) h
  cases hr : runAct a s with
  | done u =>
    rw [hr] at k
    obtain ⟨ht, hq⟩ := k
    rw [runFrom_done hr]
    exact ih (by rw [ht]; exact hq)
  | stop u more =>
    rw [hr] at k
    obtain ⟨ht, hi⟩ := k
    refine ⟨_, runFrom_stop hr, ?_⟩
    have e : pushActs (more ++ as) u = setTodo (more ++ (as ++ s.eng.todo)) u := by
      simp [pushActs, setTodo, ht]
    rw [e]
    exact hi
  | fault f =>
    rw [hr] at k
    exact k.elim

/-- A rule's actions, from a quiet state, answer a next state that meets the invariant. -/
theorem runActs_safe {acts : List Act} {s : State} (h : EngineQuiet (acts ++ s.eng.todo) s) :
    ∃ t, runActs acts s = .next t ∧ RegInv t := by
  induction acts generalizing s with
  | nil => exact ⟨s, rfl, h.inv⟩
  | cons a as ih =>
    cases hs : a.startsStep with
    | true => exact ⟨_, runActs_starts as s hs, h.setTodo_inv⟩
    | false =>
      rw [runActs_runs as s hs]
      exact runFrom_safe h ih

/-- A gated row from a state that meets the invariant, if its rule's answer does. -/
theorem gated_safe {mode : GateMode} {n : Nat} {init dest : La} {ops : List Byte} {s : State} {rule : State → Result}
    (h : RegInv s) (hr : ∃ t, rule s = .next t ∧ RegInv t) :
    ∃ t, gated mode n init dest ops s rule = .next t ∧ RegInv t := by
  unfold gated
  split
  · exact hr
  · exact ⟨s, rfl, h⟩

/-- A transmitted message from a quiet state answers a next state that meets the invariant. -/
theorem transmit_safe {s : State} (i : Instr) (h : EngineQuiet s.eng.todo s) : ∃ t, transmit i s = .next t ∧ RegInv t := by
  obtain ⟨more, u, hu, ht, hi⟩ := txCall_safe (encode i) 1 h
  refine ⟨pushActs more u, by simp [transmit, hu, ofEngine], ?_⟩
  have e : pushActs more u = setTodo (more ++ s.eng.todo) u := by simp [pushActs, setTodo, ht]
  rw [e]
  exact hi

end Sys2Proof.Machine
end

