-- ==== Sys2Proof/Laws/Handlers.lean ====
section
/-! SUPPORT. Laws of the handlers' entry and of the tests they make: which handler runs on what, the windows as bounds,
and single bits of the ACK registers. -/

namespace Sys2Proof.Machine

variable {s : State}

/-! ### Entry (60_exceptions R197, R200; 40 R90) -/

/-- The oldest pending edge is handled with its own time and level. -/
theorem takeInterrupt_of_edge {t : Micros} {lvl : Level} {es : List (Micros × Level)} (h : s.edges = (t, lvl) :: es) :
    takeInterrupt .edge s = edgeIsr t lvl { s with edges := es } := by
  simp only [takeInterrupt, enterHandler, h, map_leaveHandler]

/-- A due transmit alarm of an enabled driver is disarmed, and its handler dispatches on the transmit phase. -/
theorem takeInterrupt_of_alarmTx {d : Micros} (he : s.drv.enabled = true) (h : s.drv.alarmTx = some d) (hd : d ≤ s.now) :
    takeInterrupt (.alarm .tx) s = txAlarm s.now (cancel .tx s) := by
  simp only [takeInterrupt, enterHandler, h, if_pos hd, map_leaveHandler, alarmIsr, cancelTx_drv, he, if_true]

/-- A due ACK alarm of an enabled driver is disarmed, and its handler ends a driven ACK. -/
theorem takeInterrupt_of_alarmAck {d : Micros} (he : s.drv.enabled = true) (h : s.drv.alarmAck = some d) (hd : d ≤ s.now) :
    takeInterrupt (.alarm .ack) s = .ok (if s.drv.rxAcking then rxDropAck (cancel .ack s) else cancel .ack s) := by
  simp only [takeInterrupt, enterHandler, h, if_pos hd, map_leaveHandler, alarmIsr, cancelAck_drv, he, if_true]

/-- Off the line, an edge of an enabled driver goes to the receiver, then moves the alarm of a bus wait. -/
theorem edgeIsr_receiving (he : s.drv.enabled = true) (h : onLine s.drv.txPhase = false) (t : Micros) (lvl : Level) :
    edgeIsr t lvl s = (rxDispatch t lvl (clearJustTransmitted lvl (noteLine t lvl s))).map txRearmWait := by
  simp [edgeIsr, he, h]

/-- During an attempt an edge updates the line's level and the time of its last edge only. -/
theorem edgeIsr_transmitting (he : s.drv.enabled = true) (h : onLine s.drv.txPhase = true) (t : Micros) (lvl : Level) :
    edgeIsr t lvl s = .ok (noteLine t lvl s) := by
  simp [edgeIsr, he, h]

/-! ### What the rules test -/

/-- The line is LOW exactly when this node or another drives it (40 R87). -/
theorem lineNow_low : lineNow s = .low ↔ s.drv.drive = .low ∨ s.env.extLow = true := by
  simp only [lineNow, lineLevel]
  split <;> simp_all

/-- The signal-free times (00_scope R13). -/
theorem freeMicros_eq (r : FreeReq) :
    freeMicros r = match r with | .first => 16800 | .retry => 12000 | .afterTx => 7200 := by
  cases r <;> rfl

/-- The bus is free: HIGH, and for long enough (40 R107). -/
theorem busFree_iff (t : Micros) :
    busFree t s = true ↔ s.drv.lineLevel = .high ∧ freeMicros s.drv.txFreeReq ≤ t - s.drv.tLastEdge := by
  simp only [busFree, Bool.and_eq_true, decide_eq_true_eq]

theorem inWindow_iff (n d : Micros) : inWindow n d = true ↔ n - 400 ≤ d ∧ d ≤ n + 400 := by
  simp only [inWindow, Bool.and_eq_true, decide_eq_true_eq]
  rfl

theorem startLowOk_iff (d : Micros) : startLowOk d = true ↔ 3300 ≤ d ∧ d ≤ 4100 := inWindow_iff _ _
theorem startPeriodOk_iff (d : Micros) : startPeriodOk d = true ↔ 4100 ≤ d ∧ d ≤ 4900 := inWindow_iff _ _
theorem bitPeriodOk_iff (d : Micros) : bitPeriodOk d = true ↔ 2000 ≤ d ∧ d ≤ 2800 := inWindow_iff _ _
theorem oneOk_iff (d : Micros) : oneOk d = true ↔ 200 ≤ d ∧ d ≤ 1000 := inWindow_iff _ _
theorem zeroOk_iff (d : Micros) : zeroOk d = true ↔ 1100 ≤ d ∧ d ≤ 1900 := inWindow_iff _ _

/-! ### Bytes and bits -/

/-- What a write leaves at any index. -/
theorem memGet_memSet (m : Memory) (i : Nat) (b : Byte) (a : Nat) :
    memGet (memSet m i b) a = if a = i then some b else memGet m a := by
  split
  · subst_vars
    exact memGet_memSet_same _ _ _
  · exact memGet_memSet_other _ _ ‹_›

/-- The ACK bits below the length are the copied ones. -/
theorem copyAckbits_below {n a : Nat} (v old : BitVec 16) (hn : n ≤ 16) (ha : a < n) :
    (copyAckbits n v old).getLsbD a = v.getLsbD a := by
  have h : (BitVec.ofNat 16 (2 ^ n - 1)).getLsbD a = true := by
    rw [BitVec.getLsbD_ofNat, Nat.testBit_two_pow_sub_one]
    simp [ha]
    omega
  simp [copyAckbits, h]

/-- The written ACK bit, and the others. -/
theorem setAckbit_bit {i a : Nat} (v : BitVec 16) (b : Bool) (hi : i < 16) (ha : a < 16) :
    (setAckbit v i b).getLsbD a = if a = i then b else v.getLsbD a := by
  simp only [setAckbit, BitVec.getLsbD_or, BitVec.getLsbD_and, BitVec.getLsbD_not, BitVec.getLsbD_shiftLeft]
  by_cases h : a = i
  · subst h
    cases b <;> simp [hi]
  · by_cases hl : a < i
    · cases b <;> simp [hl, h, ha]
    · have h0 : a - i ≠ 0 := by omega
      cases b <;> simp [hl, h, ha, h0]

/-- The four frame buffers and the key map are canonical at reset. -/
theorem memInv_reset : MemInv State.reset := by constructor <;> decide

end Sys2Proof.Machine
end

