-- ==== Sys2Proof/Laws/Rows.lean ====
section
/-! SUPPORT. Laws of the dispatch: the gates against the spec's own predicates, and what the shared addressing operations
answer. -/

namespace Sys2Proof.Machine

/-- The gate of a row is open exactly when the spec's `act` holds (43 R145). -/
theorem gateOpen_iff (mode : GateMode) (init dest : La) (s : State) :
    gateOpen mode init dest s = true ↔ Acts mode init dest s := by
  cases mode <;>
    simp only [gateOpen, directToSelf, isBroadcast, Bool.and_eq_true, Bool.or_eq_true, decide_eq_true_eq] <;> exact Iff.rfl

/-- A row that acts on the frame, with its operands there, runs its rule. -/
theorem gated_acts {mode : GateMode} {k : Nat} {init dest : La} {ops : List Byte} {s : State} {rule : State → Result}
    (h : Acts mode init dest s) (hk : k ≤ ops.length) : gated mode k init dest ops s rule = rule s :=
  gated_open ((gateOpen_iff mode init dest s).2 h) hk

/-- A row that does not act on the frame, or whose operands are missing, changes nothing. -/
theorem gated_ignored {mode : GateMode} {k : Nat} {init dest : La} {ops : List Byte} {s : State}
    {rule : State → Result} (h : ¬(Acts mode init dest s ∧ k ≤ ops.length)) :
    gated mode k init dest ops s rule = .next s :=
  gated_closed (by rwa [gateOpen_iff])

/-- `self_pa <- derive_pa()` leaves the configuration alone. -/
@[simp] theorem obtainPa_cfg (s : State) : (obtainPa s).cfg = s.cfg := by
  unfold obtainPa derivePa
  split <;> simp

/-- `allocate()`: a configured address is claimed next, with no candidate nothing is left, else the first is polled (42
R138). -/
theorem allocateBegin_eq (s : State) :
    allocateBegin s =
      if laOverride s.cfg.la then ([.claim (BitVec.ofNat 4 s.cfg.la.toNat)], publishLa laBroadcast s)
      else if candidate s.cfg.deviceType 0 = laBroadcast then ([], publishLa laBroadcast s)
      else ([.instr (.pollTx (candidate s.cfg.deviceType 0)), .verdict (candidate s.cfg.deviceType 0) 0],
        publishLa laBroadcast s) := rfl

theorem laOverride_iff (la : Byte) : laOverride la = true ↔ 1 ≤ la.toNat ∧ la.toNat ≤ 14 := by
  simp [laOverride]

/-- Every transmitted row but a withheld one is `codec_send` for the poll and `tx` for a message. -/
theorem exec_transmitted {i : Instr} {s : State} (hd : i.direction = .tx) (hw : ¬withheld i s) :
    (∃ c, i = .pollTx c ∧ exec i s = ofEngine (codecSend (encode i) s)) ∨
    ((∀ c, i ≠ .pollTx c) ∧ exec i s = transmit i s) := by
  cases i
  case pollTx c => exact .inl ⟨c, rfl, rfl⟩
  case reportPhysicalAddressTx a b c d e => exact .inr ⟨by simp, if_neg hw⟩
  all_goals first | (cases hd; done) | exact .inr ⟨by simp, rfl⟩

/-- The canonical form holds what the list holds, below the size. -/
theorem memGet_memCanon (size : Nat) (m : Memory) (a : Nat) :
    memGet (memCanon size m) a = if a < size then memGet m a else none := by
  induction m with
  | nil => simp [memCanon]
  | cons c m ih =>
    simp only [memCanon, List.foldr_cons] at ih ⊢
    split
    · rename_i h
      by_cases hc : c.1 = a
      · subst hc
        simp [memGet_memSet_same, h, memGet]
      · rw [memGet_memSet_other _ _ (Ne.symm hc), ih]
        simp [memGet, hc]
    · rename_i h
      rw [ih]
      simp only [memGet]
      split
      · rw [if_neg (by omega)]
      · rfl

/-- A draw of the scheduling order changes nothing but the environment's answers. -/
theorem pick_keeps (s : State) : (pick s).2.drv = s.drv ∧ (pick s).2.eng = s.eng ∧ (pick s).2.cfg = s.cfg ∧
    (pick s).2.keyq = s.keyq ∧ (pick s).2.ind = s.ind ∧ (pick s).2.err = s.err ∧ (pick s).2.edges = s.edges ∧
    (pick s).2.par = s.par ∧ (pick s).2.now = s.now := by
  unfold pick
  split <;> simp

end Sys2Proof.Machine
end

