-- ==== Sys2Proof/Laws/Steps.lean ====
section
/-! SUPPORT. Laws of the step: which agent may step, what time may do, what ends a run, and that a dispatched frame is
executed as what its bytes decode to. -/

namespace Sys2Proof.Machine

variable {s t : State}

/-! ### Which agent steps (60_exceptions R199) -/

/-- Some agent can always step. -/
theorem ready_ne_nil (s : State) : ready s ≠ [] := by
  intro h
  simp only [ready, List.append_eq_nil_iff, ite_eq_right_iff, reduceCtorEq, imp_false, Bool.or_eq_true] at h
  obtain ⟨⟨⟨h1, h2⟩, h3⟩, h4⟩ := h
  rw [not_or] at h2
  have hd : mayDelay s = true := by
    simp only [pendingHandlers, List.append_eq_nil_iff, ite_eq_left_iff, ite_eq_right_iff, reduceCtorEq, imp_false,
      Decidable.not_not] at h3
    obtain ⟨⟨e1, e2⟩, e3⟩ := h3
    have alarm : ∀ (d : Option Micros) (a : Micros), ¬alarmDue d s.now = true → alarmPendingSince d a s.now = [] := by
      intro d a hn
      cases d with
      | none => rfl
      | some d => simpa [alarmDue, alarmPendingSince] using hn
    simp [mayDelay, pendingTimes, e1, alarm _ _ e2, alarm _ _ e3]
  simp [timeReady, hd, h1, h2.1] at h4

/-- The agent that steps is a ready one. -/
theorem pick_mem (s : State) : (pick s).1 ∈ ready s := by
  have hn := ready_ne_nil s
  unfold pick
  split
  · rename_i h
    exact absurd h hn
  · rename_i h
    simp [h]
  · rename_i a b rest h
    have hl : (drawOrder s).1 % (a :: b :: rest).length < (a :: b :: rest).length := Nat.mod_lt _ (by simp)
    simp only [List.getD_eq_getElem?_getD, List.getElem?_eq_getElem hl, Option.getD_some]
    rw [h]
    exact List.getElem_mem hl

/-- Time passes only where it may. -/
theorem timeReady_of_pick (h : (pick s).1 = .time) : timeReady s = true := by
  have hm := pick_mem s
  rw [h] at hm
  simp only [ready, pendingHandlers, List.mem_append] at hm
  by_contra hf
  simp only [Bool.not_eq_true] at hf
  simp [hf] at hm

/-! ### What a step answers -/

/-- A next state is one whose timestamps fit. -/
theorem withinRun_next {r : Result} : withinRun r = .next t ↔ r = .next t ∧ timesFit t = true := by
  cases r with
  | next u =>
    by_cases h : timesFit u = true
    · simp only [withinRun, h, if_true, Host.Outcome.next.injEq]
      exact ⟨fun e => ⟨e, e ▸ h⟩, And.left⟩
    · simp only [withinRun, h, Host.Outcome.next.injEq]
      exact ⟨nofun, fun e => absurd (e.1 ▸ e.2) h⟩
  | fault f => simp [withinRun]
  | refused f => simp [withinRun]

/-- A step that answers a next state is its agent's, within the run's time base. -/
theorem step_next (h : step s = .next t) : runAgent (pick s).1 (pick s).2 = .next t ∧ timesFit t = true :=
  withinRun_next.1 h

/-- The end of a run's time base is the step's only addition to its agent's faults. -/
theorem withinRun_fault {r : Result} {f : Fault} : withinRun r = .fault f ↔ r = .fault f := by
  cases r with
  | next u => simp only [withinRun]; split <;> simp
  | fault g => simp [withinRun]
  | refused g => simp [withinRun]

/-! ### Dispatch (43 R144) -/

/-- A frame that decodes is sane. -/
theorem sane_of_decode {bytes : List Byte} {i : Instr} (h : decode .rx bytes = .ok i) : sane bytes = true := by
  match bytes with
  | [] => cases h
  | [_] => rfl
  | b :: op :: ops =>
    simp only [decode, decodeRx] at h
    split at h
    · cases h
    · split at h
      · cases h
      · rename_i h1 h2
        simp only [sane, Bool.and_eq_true, decide_eq_true_eq]
        simp only [Nat.not_lt] at h1
        exact ⟨h1, h2⟩

/-- The frame record of the bytes in `ENG.fbuf` holds them (41 R131). -/
theorem frameRecord_accepted {bytes : List Byte} (hb : bufTake s.eng.fbuf s.eng.flen s.eng.flen = .ok bytes)
    (hn : bytes ≠ []) :
    ∃ f, frameRecord s = .ok f ∧ f.bytes = bytes ∧ f.direction = .rx ∧ f.ackbits = s.eng.fackbits ∧
      f.operands = bytes.drop 2 := by
  cases bytes with
  | nil => exact absurd rfl hn
  | cons b rest => exact ⟨_, by rw [frameRecord, hb], rfl, rfl, rfl, by simp⟩

/-- A received frame that is sane is executed as the instruction its bytes decode to. -/
theorem engReceived_decodes {bytes : List Byte} {n : Nat} {i : Instr} (hb : bufTake s.eng.fbuf n n = .ok bytes)
    (hd : decode .rx bytes = .ok i) : engReceived n s = exec i (acceptFrame n s) := by
  obtain ⟨f, h1, h2, h3, -⟩ := frameRecord_accepted (s := acceptFrame n s) (bytes := bytes) hb (by rintro rfl; cases hd)
  simp only [engReceived, hb, sane_of_decode hd, if_true, engDispatch, h1, h2, h3, hd]

/-- One that is not sane is dropped (41 R130). -/
theorem engReceived_insane {bytes : List Byte} {n : Nat} (hb : bufTake s.eng.fbuf n n = .ok bytes)
    (hs : sane bytes = false) : engReceived n s = .next (rejectFrame bytes s) := by
  simp [engReceived, hb, hs]

end Sys2Proof.Machine
end

