-- ==== Sys2Proof/Laws/Line.lean ====
section
/-! SUPPORT. Laws of the line: what the shared operations, the handlers, the engine and the environment do to its
level and its pending edges (40_bit_timing_driver R87, R88, 60_exceptions R196). -/

namespace Sys2Proof.Machine

/-- From `s` to `u` only this node's drive may have changed the line, and an edge is pending at the end exactly when
it did. -/
structure LineMoves (s u : State) : Prop where
  now : u.now = s.now
  ext : u.env.extLow = s.env.extLow
  edges : u.edges = s.edges ++ (if lineNow u = lineNow s then [] else [(s.now, lineNow u)])

/-- From `s` to `u` nothing has touched the line. -/
structure LineSame (s u : State) : Prop where
  now : u.now = s.now
  ext : u.env.extLow = s.env.extLow
  drive : u.drv.drive = s.drv.drive
  edges : u.edges = s.edges

theorem LineSame.line {s u} (h : LineSame s u) : lineNow u = lineNow s := by simp [lineNow, h.ext, h.drive]
theorem LineSame.refl (s) : LineSame s s := ⟨rfl, rfl, rfl, rfl⟩
theorem LineSame.trans {s u w} (h : LineSame s u) (k : LineSame u w) : LineSame s w :=
  ⟨k.now.trans h.now, k.ext.trans h.ext, k.drive.trans h.drive, k.edges.trans h.edges⟩
theorem LineSame.after {s u w} (k : LineSame u w) (h : LineSame s u) : LineSame s w := h.trans k
theorem LineSame.moves {s u} (h : LineSame s u) : LineMoves s u := ⟨h.now, h.ext, by simp [h.edges, h.line]⟩
theorem LineSame.then {s u w} (h : LineSame s u) (k : LineMoves u w) : LineMoves s w :=
  ⟨k.now.trans h.now, k.ext.trans h.ext, by rw [k.edges, h.edges, h.line, h.now]⟩
theorem LineMoves.then {s u w} (h : LineMoves s u) (k : LineSame u w) : LineMoves s w :=
  ⟨k.now.trans h.now, k.ext.trans h.ext, by rw [k.edges, h.edges, k.line]⟩
theorem lineSame_of {s u : State} (h1 : u.now = s.now) (h2 : u.env.extLow = s.env.extLow)
    (h3 : u.drv.drive = s.drv.drive) (h4 : u.edges = s.edges) : LineSame s u := ⟨h1, h2, h3, h4⟩

/-- The drive primitives move the line by this node's drive (40 R88). -/
theorem LineMoves.of_setDrive (d s) : LineMoves s (setDrive d s) :=
  ⟨by simp, by simp, by
    have e : lineNow (setDrive d s) = lineLevel d s.env.extLow := by simp [lineNow]
    rw [setDrive_edges, e]
    split <;> simp⟩

/-- A write of the driver that keeps its drive leaves the line alone. -/
theorem updDrv_lineSame {s : State} {f : Drv → Drv} (h : (f s.drv).drive = s.drv.drive) : LineSame s (updDrv f s) :=
  ⟨rfl, rfl, h, rfl⟩

/-! ### The driver's handlers -/

/-- Arming an alarm, disarming one, waking a task and recording an error leave the line alone. -/
theorem arm_lineSame (c t s) : LineSame s (arm c t s) := by cases c <;> exact ⟨rfl, rfl, rfl, rfl⟩
theorem cancel_lineSame (c s) : LineSame s (cancel c s) := by cases c <;> exact ⟨rfl, rfl, rfl, rfl⟩
theorem signal_lineSame (c s) : LineSame s (signal c s) := by cases c <;> exact ⟨rfl, rfl, rfl, rfl⟩
theorem record_lineSame (c s) : LineSame s (record c s) := ⟨rfl, rfl, rfl, rfl⟩

/-- A driven ACK released moves the line by its drive only (40 R99). -/
theorem rxDropAck_lineMoves (s) : LineMoves s (rxDropAck s) :=
  (LineMoves.of_setDrive .released s).then (updDrv_lineSame rfl)

/-- A malformed edge (40 R102). -/
theorem rxMalformed_lineMoves (lvl t s) : LineMoves s (rxMalformed lvl t s) := by
  unfold rxMalformed
  dsimp only
  refine LineMoves.then ?_ (record_lineSame _ _)
  have h1 : LineSame s (updDrv (fun d => { d with rxLen := 0 }) s) := updDrv_lineSame rfl
  cases lvl <;>
    (refine LineMoves.then ?_ (updDrv_lineSame rfl)
     split
     · exact h1.then ((rxDropAck_lineMoves _).then (cancel_lineSame _ _))
     · exact h1.moves)

/-- A cell begun, with its ACK driven or not (40 R98). -/
theorem rxEnterCell_lineMoves (t s) : LineMoves s (rxEnterCell t s) := by
  unfold rxEnterCell rxDriveAck; dsimp only
  have h1 : LineSame s (updDrv (fun d => { d with rxTFall := t, rxState := .bitLow }) s) := updDrv_lineSame rfl
  split
  · exact h1.then ((LineMoves.of_setDrive .low _).then ((updDrv_lineSame rfl).trans (arm_lineSame _ _ _)))
  · exact h1.moves

/-- A byte stored, a frame delivered or completed, and a bit taken leave the line alone (40 R95 to R101). -/
theorem rxByteComplete_lineSame {s u} (h : rxByteComplete s = .ok u) : LineSame s u := by
  unfold rxByteComplete at h; split at h
  · cases h
  · dsimp only at h; split at h
    · unfold rxAckDecision at h; split at h
      · cases h
      · cases h; exact ⟨rfl, rfl, rfl, rfl⟩
    · cases h; exact ⟨rfl, rfl, rfl, rfl⟩
theorem rxDeliver_lineSame {s u} (h : rxDeliver s = .ok u) : LineSame s u := by
  unfold rxDeliver at h; split at h
  · cases h; exact LineSame.refl _
  · split at h
    · cases h
    · cases h; exact ⟨rfl, rfl, rfl, rfl⟩
theorem rxFrameComplete_lineSame {s u} (h : rxFrameComplete s = .ok u) : LineSame s u := by
  unfold rxFrameComplete at h; split at h
  · cases h
  · dsimp only at h; split at h
    · cases h
    · rename_i _ _ _ _ s2 h2
      cases h
      refine LineSame.trans ?_ (updDrv_lineSame rfl)
      split at h2
      · exact (updDrv_lineSame rfl).trans (rxDeliver_lineSame h2)
      · cases h2; exact updDrv_lineSame rfl
theorem rxTakeBit_lineSame {b s u} (h : rxTakeBit b s = .ok u) : LineSame s u := by
  unfold rxTakeBit at h; split at h
  · unfold rxDataBit at h; split at h
    · cases hb : rxByteComplete (rxShiftIn b s) with
      | error f => rw [hb] at h; cases h
      | ok v => rw [hb] at h; cases h
                exact (LineSame.trans (u := rxShiftIn b s) (updDrv_lineSame rfl) (rxByteComplete_lineSame hb)).trans
                  (updDrv_lineSame rfl)
    · cases h; exact ⟨rfl, rfl, rfl, rfl⟩
  · split at h
    · cases h; exact ⟨rfl, rfl, rfl, rfl⟩
    · unfold rxAckBit at h; split at h
      · cases h
      · dsimp only at h; split at h
        · exact LineSame.trans (updDrv_lineSame rfl) (rxFrameComplete_lineSame h)
        · cases h; exact ⟨rfl, rfl, rfl, rfl⟩

/-- The receive path of an edge (40 R91 to R104). -/
theorem rxDispatch_lineMoves {t lvl s u} (h : rxDispatch t lvl s = .ok u) : LineMoves s u := by
  unfold rxDispatch at h; split at h
  · cases h; exact LineSame.moves ⟨rfl, rfl, rfl, rfl⟩
  · cases h; exact LineSame.moves ⟨rfl, rfl, rfl, rfl⟩
  · cases h; unfold rxStartLowRise; split
    · exact LineSame.moves ⟨rfl, rfl, rfl, rfl⟩
    · exact rxMalformed_lineMoves _ _ _
  · cases h; unfold rxStartHighFall; split
    · exact LineSame.moves ⟨rfl, rfl, rfl, rfl⟩
    · exact rxMalformed_lineMoves _ _ _
  · unfold rxBitLowRise at h; split at h
    · exact (rxTakeBit_lineSame h).moves
    · cases h; exact LineSame.moves ⟨rfl, rfl, rfl, rfl⟩
    · cases h; exact rxMalformed_lineMoves _ _ _
  · cases h; unfold rxBitHighFall; split
    · split
      · split
        · exact LineSame.moves ⟨rfl, rfl, rfl, rfl⟩
        · exact LineSame.then (updDrv_lineSame rfl) (rxEnterCell_lineMoves _ _)
      · exact LineSame.then (updDrv_lineSame rfl) (rxEnterCell_lineMoves _ _)
    · exact rxMalformed_lineMoves _ _ _
  all_goals (cases h; exact rxMalformed_lineMoves _ _ _)

/-- EDGE_ISR (40 R90). -/
theorem edgeIsr_lineMoves {t lvl s u} (h : edgeIsr t lvl s = .ok u) : LineMoves s u := by
  unfold edgeIsr at h; split at h
  · split at h
    · cases h; exact LineSame.moves ⟨rfl, rfl, rfl, rfl⟩
    · cases hb : rxDispatch t lvl (clearJustTransmitted lvl (noteLine t lvl s)) with
      | error f => rw [hb] at h; cases h
      | ok v =>
        rw [hb] at h; cases h
        have h1 : LineSame s (clearJustTransmitted lvl (noteLine t lvl s)) := by
          cases lvl <;> exact ⟨rfl, rfl, rfl, rfl⟩
        refine (h1.then (rxDispatch_lineMoves hb)).then ?_
        unfold txRearmWait; split
        · exact arm_lineSame _ _ _
        · exact LineSame.refl _
  · cases h; exact (LineSame.refl _).moves

/-- The end of a send releases the line (40 R120). -/
theorem txFinish_lineMoves (s) : LineMoves s (txFinish s) :=
  ((LineMoves.of_setDrive .released s).then (cancel_lineSame .tx _)).then
    ((updDrv_lineSame rfl).trans (signal_lineSame _ _))

/-- A cell driven (40 R114). -/
theorem txBeginCell_lineMoves {t s u} (h : txBeginCell t s = .ok u) : LineMoves s u := by
  unfold txBeginCell at h; split at h
  · cases h
  · cases h; unfold txDriveCell; dsimp only
    exact (updDrv_lineSame (s := s) (f := fun d => { d with txCellStart := t, txValue := _ }) rfl).then
      ((LineMoves.of_setDrive .low _).then ((updDrv_lineSame rfl).trans (arm_lineSame _ _ _)))

/-- An attempt failed (40 R118). -/
theorem txAttemptFailed_lineMoves (s) : LineMoves s (txAttemptFailed s) := by
  unfold txAttemptFailed; dsimp only; split
  · exact LineSame.moves ⟨rfl, rfl, rfl, rfl⟩
  · exact (record_lineSame _ _).then (txFinish_lineMoves _)

/-- The wait for a cell's end (40 R116). -/
theorem txAwaitCellEnd_lineSame (s) : LineSame s (txAwaitCellEnd s) := ⟨rfl, rfl, rfl, rfl⟩

/-- The handler of the alarm channel TX (40 R110 to R117). -/
theorem txAlarm_lineMoves {t s u} (h : txAlarm t s = .ok u) : LineMoves s u := by
  unfold txAlarm at h; split at h
  · cases h; exact (LineSame.refl _).moves
  · cases h; unfold txWaitAlarm; split
    · unfold txStartAttempt; dsimp only
      exact (updDrv_lineSame (s := s) (f := fun d => { d with
        rxState := .idle, rxLen := 0, txUsedBus := true, txByte := 0, txBit := 0, txCellStart := t }) rfl).then
        ((LineMoves.of_setDrive .low _).then ((updDrv_lineSame rfl).trans (arm_lineSame _ _ _)))
    · split
      · unfold txTimeout; exact ((record_lineSame _ s).trans (updDrv_lineSame rfl)).then (txFinish_lineMoves _)
      · exact (arm_lineSame _ _ _).moves
  · cases h; unfold txStartRelease
    exact (LineMoves.of_setDrive .released _).then ((updDrv_lineSame rfl).trans (arm_lineSame _ _ _))
  · exact txBeginCell_lineMoves h
  · cases h; unfold txBitRelease
    split <;> exact (LineMoves.of_setDrive .released _).then ((updDrv_lineSame rfl).trans (arm_lineSame _ _ _))
  · unfold txSample at h; split at h
    · split at h
      · cases h
      · cases h; exact LineSame.moves ((updDrv_lineSame rfl).trans (txAwaitCellEnd_lineSame _))
    · split at h
      · unfold txArbLost at h; split at h <;> cases h
        exact LineSame.moves ⟨rfl, rfl, rfl, rfl⟩
      · cases h; exact (txAwaitCellEnd_lineSame _).moves
  · unfold txCellEnd at h; split at h
    · exact LineSame.then (updDrv_lineSame rfl) (txBeginCell_lineMoves h)
    · split at h
      · cases h; exact txAttemptFailed_lineMoves _
      · split at h
        · cases h; exact LineSame.then (updDrv_lineSame rfl) (txFinish_lineMoves _)
        · exact LineSame.then (updDrv_lineSame rfl) (txBeginCell_lineMoves h)

/-- ALARM_ISR (60 R197). -/
theorem alarmIsr_lineMoves {c t s u} (h : alarmIsr c t s = .ok u) : LineMoves s u := by
  unfold alarmIsr at h; split at h
  · cases c
    · exact txAlarm_lineMoves h
    · cases h; split
      · exact rxDropAck_lineMoves _
      · exact (LineSame.refl _).moves
  · cases h; exact (LineSame.refl _).moves

/-! ### The engine -/

/-- An action's answer leaves the line alone. -/
def OutSame (s : State) : ActOut → Prop
  | .done u => LineSame s u
  | .stop u _ => LineSame s u
  | .fault _ => True

/-- The engine's own writes, and the published address, leave the line alone. -/
theorem updEng_lineSame (f s) : LineSame s (updEng f s) := ⟨rfl, rfl, rfl, rfl⟩
theorem publishLa_lineSame (la s) : LineSame s (publishLa la s) := ⟨rfl, rfl, rfl, rfl⟩

/-- The draws leave the line alone. -/
theorem drawEdid_lineSame (s) : LineSame s (drawEdid s).2 := by
  unfold drawEdid
  split <;> exact ⟨rfl, rfl, rfl, rfl⟩
theorem drawCfg_lineSame (s) : LineSame s (drawCfg s).2 := by
  unfold drawCfg
  split <;> exact ⟨rfl, rfl, rfl, rfl⟩
theorem drawOrder_lineSame (s) : LineSame s (drawOrder s).2 := by
  unfold drawOrder
  split <;> exact ⟨rfl, rfl, rfl, rfl⟩

/-- Addressing leaves the line alone (42 R136 to R138). -/
theorem obtainPa_lineSame (s) : LineSame s (obtainPa s) := by
  unfold obtainPa derivePa; split
  · exact updEng_lineSame _ _
  · exact (drawEdid_lineSame s).trans (updEng_lineSame _ _)
theorem allocateAt_lineSame (i s) : LineSame s (allocateAt i s).2 := by
  unfold allocateAt; dsimp only; split
  · exact publishLa_lineSame _ _
  · exact LineSame.refl _
theorem allocateBegin_lineSame (s) : LineSame s (allocateBegin s).2 := by
  unfold allocateBegin; dsimp only; split
  · exact publishLa_lineSame _ _
  · exact (publishLa_lineSame _ _).trans (allocateAt_lineSame _ _)

/-- An operation that leaves the line alone answers as an action that does. -/
theorem actOut_lineSame {s : State} {p : List Act × State} (h : LineSame s p.2) : OutSame s (actOut p) := by
  obtain ⟨l, u⟩ := p; cases l <;> exact h

/-- `codec_send` up to its wait only sets the request up (40 R105, 41 R129). -/
theorem codecSend_lineSame {b s p} (h : codecSend b s = .ok p) : LineSame s p.2 := by
  unfold codecSend at h; split at h
  · unfold sendFrame at h; split at h
    · cases h
    · rename_i u hu
      split at hu
      · cases hu; cases h; exact ⟨rfl, rfl, rfl, rfl⟩
      · cases hu
  · cases h; exact ⟨rfl, rfl, rfl, rfl⟩
theorem txCall_lineSame {b n s p} (h : txCall b n s = .ok p) : LineSame s p.2 := by
  unfold txCall at h; split at h
  · cases h
  · rename_i a u h1; cases h; exact (codecSend_lineSame h1 : LineSame s u)
theorem updateSelection_lineSame (b s) : LineSame s (updateSelection b s) := by
  unfold updateSelection; split
  · exact ⟨rfl, rfl, rfl, rfl⟩
  · split <;> exact ⟨rfl, rfl, rfl, rfl⟩
theorem keyPush_lineSame (b d s) : OutSame s (keyPush b d s) := by
  unfold keyPush; split
  · exact ⟨rfl, rfl, rfl, rfl⟩
  · split <;> exact ⟨rfl, rfl, rfl, rfl⟩

/-- No action of a rule drives the line (40 R88). -/
theorem runAct_lineSame (a s) : OutSame s (runAct a s) := by
  cases a <;> unfold runAct <;> dsimp only
  any_goals exact LineSame.refl _
  any_goals exact keyPush_lineSame _ _ _
  any_goals exact lineSame_of rfl rfl rfl rfl
  · unfold sendWaitStep waitFlag; dsimp only; cases s.drv.evTx <;> exact ⟨rfl, rfl, rfl, rfl⟩
  · split
    · split
      · trivial
      · rename_i h; exact actOut_lineSame (txCall_lineSame h)
    · exact LineSame.refl _
  · split <;> exact LineSame.refl _
  · exact updateSelection_lineSame _ _
  · exact obtainPa_lineSame _
  · exact actOut_lineSame (allocateBegin_lineSame _)
  · unfold probeVerdict; split
    · exact actOut_lineSame (allocateAt_lineSame _ _)
    · exact publishLa_lineSame _ _
  · unfold recvWaitStep waitFlag; dsimp only; cases s.drv.evRx <;> exact ⟨rfl, rfl, rfl, rfl⟩
theorem runActs_lineSame {as s t} (h : runActs as s = .next t) : LineSame s t := by
  induction as generalizing s with
  | nil => cases h; exact LineSame.refl _
  | cons a as ih =>
    unfold runActs at h
    split at h
    · cases h; exact ⟨rfl, rfl, rfl, rfl⟩
    · have k := runAct_lineSame a s
      cases hr : runAct a s with
      | done u => rw [hr] at h k; exact LineSame.trans k (ih h)
      | stop u m => rw [hr] at h k; cases h; exact LineSame.trans k ⟨rfl, rfl, rfl, rfl⟩
      | fault f => rw [hr] at h; cases h
theorem runFrom_lineSame {a as s t} (h : runFrom a as s = .next t) : LineSame s t := by
  have k := runAct_lineSame a s
  unfold runFrom at h
  cases hr : runAct a s with
  | done u => rw [hr] at h k; exact LineSame.trans k (runActs_lineSame h)
  | stop u m => rw [hr] at h k; cases h; exact LineSame.trans k ⟨rfl, rfl, rfl, rfl⟩
  | fault f => rw [hr] at h; cases h

/-- A gated row leaves the line alone if its rule does. -/
theorem gated_lineSame {mode : GateMode} {n : Nat} {init dest : La} {ops : List Byte} {s : State}
    {rule : State → Result} (h : ∀ t, rule s = .next t → LineSame s t) :
    ∀ t, gated mode n init dest ops s rule = .next t → LineSame s t := by
  unfold gated
  split
  · exact h
  · rintro t ⟨⟩
    exact LineSame.refl _
theorem ofEngine_lineSame {s : State} {r : Except Fault (List Act × State)}
    (h : ∀ p, r = .ok p → LineSame s p.2) : ∀ t, ofEngine r = .next t → LineSame s t := by
  intro t
  unfold ofEngine
  split
  · rintro ⟨⟩
    exact (h _ rfl).trans ⟨rfl, rfl, rfl, rfl⟩
  · nofun
theorem runActs_lineSame_of {acts : List Act} {s u : State} (h : LineSame s u) :
    ∀ t, runActs acts u = .next t → LineSame s t := fun _ k => h.trans (runActs_lineSame k)

/-- No instruction drives the line (40 R88, 20 R57). -/
theorem exec_lineSame {i : Instr} {s : State} : ∀ t, exec i s = .next t → LineSame s t := by
  cases i
  case poll => rintro t ⟨⟩; exact LineSame.refl _
  case pollTx c => exact ofEngine_lineSame fun p hp => codecSend_lineSame hp
  case reportPhysicalAddressTx =>
    intro t h
    simp only [exec, execReportPhysicalAddressTx] at h
    split at h
    · cases h; exact ⟨rfl, rfl, rfl, rfl⟩
    · exact ofEngine_lineSame (fun p hp => txCall_lineSame hp) t h
  any_goals exact ofEngine_lineSame fun p hp => txCall_lineSame hp
  all_goals simp only [exec, execFeatureAbort, execImageViewOn, execTextViewOn, execStandby, execUserControlPressed,
    execUserControlReleased, execGiveOsdName, execSystemAudioModeRequest, execGiveAudioStatus, execSetSystemAudioMode,
    execGiveSystemAudioModeStatus, execSystemAudioModeStatus, execRoutingChange, execActiveSource,
    execGivePhysicalAddress, execReportPhysicalAddress, execRequestActiveSource, execSetStreamPath,
    execDeviceVendorId, execGiveDeviceVendorId, execMenuRequest, execGiveDevicePowerStatus, execGetCecVersion,
    execAbort, execUnrecognized]
  all_goals refine gated_lineSame ?_
  all_goals (repeat' split)
  all_goals
    first
    | exact runActs_lineSame_of (lineSame_of rfl rfl rfl rfl)
    | (rintro t ⟨⟩; exact lineSame_of rfl rfl rfl rfl)

/-- The frame just received is dropped or executed (41 R130). -/
theorem engReceived_lineSame {n : Nat} {s : State} : ∀ t, engReceived n s = .next t → LineSame s t := by
  intro t h
  unfold engReceived at h
  split at h
  · cases h
  · split at h
    · unfold engDispatch at h
      split at h
      · cases h
      · split at h
        · exact LineSame.after (exec_lineSame _ h) (lineSame_of rfl rfl rfl rfl)
        · cases h; exact lineSame_of rfl rfl rfl rfl
    · cases h; exact lineSame_of rfl rfl rfl rfl

/-- An engine step moves the line only by the driver's enable, which releases it (40 R89). -/
theorem engineStep_lineMoves {s t} (h : engineStep s = .next t) : LineMoves s t := by
  unfold engineStep at h
  split at h
  · exact LineSame.moves <| LineSame.after (exec_lineSame _ h) (lineSame_of rfl rfl rfl rfl)
  · exact LineSame.moves <| LineSame.after (engReceived_lineSame _ h) (lineSame_of rfl rfl rfl rfl)
  · exact LineSame.moves <| LineSame.after (runFrom_lineSame h) (lineSame_of rfl rfl rfl rfl)
  · split at h
    · cases h
      apply LineSame.moves; unfold engLoad
      have := drawCfg_lineSame s
      split
      · rename_i h; rw [h] at this; exact this.trans (lineSame_of rfl rfl rfl rfl)
      · rename_i h; rw [h] at this
        split
        · exact this.trans (lineSame_of rfl rfl rfl rfl)
        · exact this.trans (lineSame_of rfl rfl rfl rfl)
    · cases h; exact LineSame.moves <| LineSame.refl _
    · cases h; exact LineSame.moves <| lineSame_of rfl rfl rfl rfl
    · cases h; exact (LineMoves.of_setDrive .released s).then (lineSame_of rfl rfl rfl rfl)
    · cases h; exact LineSame.moves <| (obtainPa_lineSame s).trans (lineSame_of rfl rfl rfl rfl)
    · cases h; exact LineSame.moves <| (allocateBegin_lineSame s).trans (lineSame_of rfl rfl rfl rfl)
    · unfold engReceive at h
      split at h
      · split at h
        · cases h
        · rename_i hc
          unfold copyOut at hc
          split at hc
          · cases hc
          · cases hc; cases h; exact LineSame.moves <| lineSame_of rfl rfl rfl rfl
      · cases h; exact LineSame.moves <| lineSame_of rfl rfl rfl rfl
    · cases h; exact LineSame.moves <| lineSame_of rfl rfl rfl rfl

/-- A change of the others' drive makes an edge pending exactly when the line changes. -/
theorem setExtLow_edges (low s) :
    (setExtLow low s).edges = s.edges ++
      (if lineNow (setExtLow low s) = lineNow s then [] else [(s.now, lineNow (setExtLow low s))]) := by
  unfold setExtLow noteEdge
  by_cases hh : lineLevel s.drv.drive low = lineLevel s.drv.drive s.env.extLow <;> simp [lineNow, hh]

/-- The environment's step moves the line by the others' drive only. -/
theorem envStep_edges {s t} (h : envStep s = .next t) :
    t.edges = s.edges ++ (if lineNow t = lineNow s then [] else [(s.now, lineNow t)]) := by
  unfold envStep at h
  split at h
  · rename_i hs; cases h; simp [refillScript, lineNow, hs]
  · cases h
    rename_i e _ _
    cases e with
    | pop => simp [envEvent, lineNow]
    | line low => exact setExtLow_edges low _
  · cases h
  · cases h

/-- A handler takes the pending edge it serves, and gains one at the end exactly when it changes the line. -/
theorem takeInterrupt_edges {src s t} (h : takeInterrupt src s = .ok t) :
    t.edges = (if src = .edge then s.edges.tail else s.edges) ++
      (if lineNow t = lineNow s then [] else [(s.now, lineNow t)]) := by
  rcases src with _ | c
  · rw [if_pos rfl]
    cases he : s.edges with
    | nil => simp only [takeInterrupt, enterHandler, he] at h; cases h; simp [he]
    | cons e es =>
      simp only [takeInterrupt, enterHandler, he] at h
      cases hk : edgeIsr e.1 e.2 { s with edges := es } with
      | error f => rw [hk] at h; cases h
      | ok u => rw [hk] at h; cases h; exact (edgeIsr_lineMoves hk).edges
  · rw [if_neg (by simp)]
    cases c
    · cases he : s.drv.alarmTx with
      | none => simp only [takeInterrupt, enterHandler, he] at h; cases h; simp
      | some d =>
        by_cases hd : d ≤ s.now
        · simp only [takeInterrupt, enterHandler, he, if_pos hd] at h
          cases hk : alarmIsr .tx s.now (cancel .tx s) with
          | error f => rw [hk] at h; cases h
          | ok u => rw [hk] at h; cases h; exact ((cancel_lineSame .tx s).then (alarmIsr_lineMoves hk)).edges
        · simp only [takeInterrupt, enterHandler, he, if_neg hd] at h; cases h; simp
    · cases he : s.drv.alarmAck with
      | none => simp only [takeInterrupt, enterHandler, he] at h; cases h; simp
      | some d =>
        by_cases hd : d ≤ s.now
        · simp only [takeInterrupt, enterHandler, he, if_pos hd] at h
          cases hk : alarmIsr .ack s.now (cancel .ack s) with
          | error f => rw [hk] at h; cases h
          | ok u => rw [hk] at h; cases h; exact ((cancel_lineSame .ack s).then (alarmIsr_lineMoves hk)).edges
        · simp only [takeInterrupt, enterHandler, he, if_neg hd] at h; cases h; simp

end Sys2Proof.Machine
end

