-- ==== Sys2Proof/Laws/PerInstr.lean ====
section
/-! SUPPORT. Per instruction: the frame of a well-formed instruction passes the codec's sanity limits
(41_frame_codec R128). -/

namespace Sys2Proof.Laws.EncodeSane

open Sys2Proof Sys2Proof.Machine

/-- The frame of the instruction, if it is well formed, is sane (41_frame_codec R128). -/
def Statement (i : Instr) : Prop := i.wellFormed = true → sane (encode i) = true

theorem of_rx {i d : La} {op : Byte} {ops : List Byte} (h : rxWellFormed i d ops = true) :
    sane (message i d op ops) = true := by
  simp only [rxWellFormed, Bool.and_eq_true, decide_eq_true_eq] at h
  exact sane_message op h.1 h.2

theorem poll (i d : La) : Statement (.poll i d) := fun _ => rfl

theorem featureAbort (i d : La) (ops : List Byte) : Statement (.featureAbort i d ops) := fun h => of_rx h

theorem imageViewOn (i d : La) (ops : List Byte) : Statement (.imageViewOn i d ops) := fun h => of_rx h

theorem textViewOn (i d : La) (ops : List Byte) : Statement (.textViewOn i d ops) := fun h => of_rx h

theorem standby (i d : La) (ops : List Byte) : Statement (.standby i d ops) := fun h => of_rx h

theorem userControlPressed (i d : La) (ops : List Byte) : Statement (.userControlPressed i d ops) := fun h => of_rx h

theorem userControlReleased (i d : La) (ops : List Byte) : Statement (.userControlReleased i d ops) := fun h => of_rx h

theorem giveOsdName (i d : La) (ops : List Byte) : Statement (.giveOsdName i d ops) := fun h => of_rx h

theorem systemAudioModeRequest (i d : La) (ops : List Byte) : Statement (.systemAudioModeRequest i d ops) := fun h => of_rx h

theorem giveAudioStatus (i d : La) (ops : List Byte) : Statement (.giveAudioStatus i d ops) := fun h => of_rx h

theorem setSystemAudioMode (i d : La) (ops : List Byte) : Statement (.setSystemAudioMode i d ops) := fun h => of_rx h

theorem giveSystemAudioModeStatus (i d : La) (ops : List Byte) : Statement (.giveSystemAudioModeStatus i d ops) := fun h => of_rx h

theorem systemAudioModeStatus (i d : La) (ops : List Byte) : Statement (.systemAudioModeStatus i d ops) := fun h => of_rx h

theorem routingChange (i d : La) (ops : List Byte) : Statement (.routingChange i d ops) := fun h => of_rx h

theorem activeSource (i d : La) (ops : List Byte) : Statement (.activeSource i d ops) := fun h => of_rx h

theorem givePhysicalAddress (i d : La) (ops : List Byte) : Statement (.givePhysicalAddress i d ops) := fun h => of_rx h

theorem reportPhysicalAddress (i d : La) (ops : List Byte) : Statement (.reportPhysicalAddress i d ops) := fun h => of_rx h

theorem requestActiveSource (i d : La) (ops : List Byte) : Statement (.requestActiveSource i d ops) := fun h => of_rx h

theorem setStreamPath (i d : La) (ops : List Byte) : Statement (.setStreamPath i d ops) := fun h => of_rx h

theorem deviceVendorId (i d : La) (ops : List Byte) : Statement (.deviceVendorId i d ops) := fun h => of_rx h

theorem giveDeviceVendorId (i d : La) (ops : List Byte) : Statement (.giveDeviceVendorId i d ops) := fun h => of_rx h

theorem menuRequest (i d : La) (ops : List Byte) : Statement (.menuRequest i d ops) := fun h => of_rx h

theorem giveDevicePowerStatus (i d : La) (ops : List Byte) : Statement (.giveDevicePowerStatus i d ops) := fun h => of_rx h

theorem getCecVersion (i d : La) (ops : List Byte) : Statement (.getCecVersion i d ops) := fun h => of_rx h

theorem abort (i d : La) (ops : List Byte) : Statement (.abort i d ops) := fun h => of_rx h

theorem unrecognized (i d : La) (op : Byte) (ops : List Byte) : Statement (.unrecognized i d op ops) := fun h => by
  simp only [Instr.wellFormed, Bool.and_eq_true] at h
  exact of_rx h.1

theorem featureAbortTx (i d : La) (o r : Byte) : Statement (.featureAbortTx i d o r) := fun h => by
  simp only [Instr.wellFormed, Bool.and_eq_true, decide_eq_true_eq] at h
  exact sane_message _ h.1 (by simp [maxFrame])

theorem imageViewOnTx (i d : La) : Statement (.imageViewOnTx i d) := fun h => by
  simp only [Instr.wellFormed, Bool.and_eq_true, decide_eq_true_eq] at h
  exact sane_message _ h.1 (by simp [maxFrame])

theorem setOsdNameTx (i d : La) (n : List Byte) : Statement (.setOsdNameTx i d n) := fun h => by
  simp only [Instr.wellFormed, Bool.and_eq_true, decide_eq_true_eq] at h
  exact sane_message _ h.1 (by rw [h.2]; decide)

theorem setSystemAudioModeTx (i d : La) (a : Byte) : Statement (.setSystemAudioModeTx i d a) := fun h => by
  simp only [Instr.wellFormed, Bool.and_eq_true, decide_eq_true_eq] at h
  exact sane_message _ h.1 (by simp [maxFrame])

theorem reportAudioStatusTx (i d : La) (a : Byte) : Statement (.reportAudioStatusTx i d a) := fun h => by
  simp only [Instr.wellFormed, Bool.and_eq_true, decide_eq_true_eq] at h
  exact sane_message _ h.1 (by simp [maxFrame])

theorem systemAudioModeStatusTx (i d : La) (a : Byte) : Statement (.systemAudioModeStatusTx i d a) := fun h => by
  simp only [Instr.wellFormed, Bool.and_eq_true, decide_eq_true_eq] at h
  exact sane_message _ h.1 (by simp [maxFrame])

theorem activeSourceTx (i d : La) (a b : Byte) : Statement (.activeSourceTx i d a b) := fun h => by
  simp only [Instr.wellFormed, Bool.and_eq_true, decide_eq_true_eq] at h
  exact sane_message _ h.1 (by simp [maxFrame])

theorem reportPhysicalAddressTx (i d : La) (a b c : Byte) : Statement (.reportPhysicalAddressTx i d a b c) := fun h => by
  simp only [Instr.wellFormed, Bool.and_eq_true, decide_eq_true_eq] at h
  exact sane_message _ h.1.1 (by simp [maxFrame])

theorem deviceVendorIdTx (i d : La) (a b c : Byte) : Statement (.deviceVendorIdTx i d a b c) := fun h => by
  simp only [Instr.wellFormed, Bool.and_eq_true, decide_eq_true_eq] at h
  exact sane_message _ h.1.1 (by simp [maxFrame])

theorem menuStatusTx (i d : La) (a : Byte) : Statement (.menuStatusTx i d a) := fun h => by
  simp only [Instr.wellFormed, Bool.and_eq_true, decide_eq_true_eq] at h
  exact sane_message _ h.1 (by simp [maxFrame])

theorem reportPowerStatusTx (i d : La) (a : Byte) : Statement (.reportPowerStatusTx i d a) := fun h => by
  simp only [Instr.wellFormed, Bool.and_eq_true, decide_eq_true_eq] at h
  exact sane_message _ h.1 (by simp [maxFrame])

theorem cecVersionTx (i d : La) (a : Byte) : Statement (.cecVersionTx i d a) := fun h => by
  simp only [Instr.wellFormed, Bool.and_eq_true, decide_eq_true_eq] at h
  exact sane_message _ h.1 (by simp [maxFrame])

theorem pollTx (c : La) : Statement (.pollTx c) := fun _ => rfl

end Sys2Proof.Laws.EncodeSane
end

