-- ==== Sys2Proof/Tests/Slice0.lean ====
section
/-! SUPPORT. The model's own tests: ill-formed terms are refused, frames written out from the spec decode to their
instructions, single steps give what 95_test_vectors says, and every statement's hypotheses are met somewhere. -/

namespace Sys2Proof.Tests

open Sys2Proof.Machine

/-! ## States to test on -/

/-- The start state of 95_test_vectors: logical address 4, physical address 0x1000, a playback device, `key_map[1]` =
0x52, `key_map[3]` = 0x00, the driver enabled, the engine in its loop; here with a key queue of two bytes, and the
engine chosen to step first. -/
def up : State :=
  { State.reset with
    drv := { Drv.reset with enabled := true, selfLa := 4#4 }
    eng := { Eng.reset with ctl := .recv, selfLa := 4#4, selfPa := 0x1000#16 }
    cfg := { Cfg.reset with deviceType := 4#8, pa := 0x1000#16, keyMap := [(1, 0x52#8), (3, 0x00#8)] }
    env := { Env.reset with order := [0, 0] }
    par := { Params.reset with keyqDepth := 2 } }

/-- `up` with other engine registers. -/
def upEng (f : Eng → Eng) : State := { up with eng := f up.eng }

/-- `up` with other driver registers. -/
def upDrv (f : Drv → Drv) : State := { up with drv := f up.drv }

/-- The state an outcome answers. -/
def stateOf (r : Result) : Option State :=
  match r with
  | .next s => some s
  | .fault _ => none
  | .refused _ => none

/-- What an instruction leaves in one field of the state. -/
def after {α : Type} (f : State → α) (i : Instr) (s : State) : Option α := (stateOf (exec i s)).map f

/-- The frame an instruction makes the engine's next. -/
def nextFrame (s : State) : List Byte :=
  match s.eng.todo with
  | .instr i :: _ => encode i
  | _ => []

/-! ## Ill-formed instructions are refused (41_frame_codec R128, 30_encoding R82, spec/opcode_table.json) -/

theorem test_wf_self_addressed : Instr.wellFormed (.standby 4#4 4#4 []) = false := by decide
theorem test_wf_too_long : Instr.wellFormed (.standby 0#4 4#4 (List.replicate 15 0#8)) = false := by decide
theorem test_wf_longest : Instr.wellFormed (.standby 0#4 4#4 (List.replicate 14 0#8)) = true := by decide
theorem test_wf_known_opcode : Instr.wellFormed (.unrecognized 0#4 4#4 0x36#8 []) = false := by decide
theorem test_wf_abort_reason : Instr.wellFormed (.featureAbortTx 4#4 0#4 0xC0#8 1#8) = false := by decide
theorem test_wf_image_view_on_dest : Instr.wellFormed (.imageViewOnTx 4#4 15#4) = false := by decide
theorem test_wf_osd_name : Instr.wellFormed (.setOsdNameTx 4#4 0#4 [0x50#8]) = false := by decide
theorem test_wf_audio_mode : Instr.wellFormed (.setSystemAudioModeTx 4#4 0#4 2#8) = false := by decide
theorem test_wf_audio_status : Instr.wellFormed (.reportAudioStatusTx 4#4 0#4 0x33#8) = false := by decide
theorem test_wf_audio_mode_status : Instr.wellFormed (.systemAudioModeStatusTx 4#4 0#4 2#8) = false := by decide
theorem test_wf_active_source_dest : Instr.wellFormed (.activeSourceTx 4#4 0#4 0x10#8 0#8) = false := by decide
theorem test_wf_device_type : Instr.wellFormed (.reportPhysicalAddressTx 4#4 15#4 0x10#8 0#8 6#8) = false := by decide
theorem test_wf_report_pa_dest : Instr.wellFormed (.reportPhysicalAddressTx 4#4 0#4 0x10#8 0#8 4#8) = false := by decide
theorem test_wf_vendor_id : Instr.wellFormed (.deviceVendorIdTx 4#4 15#4 0#8 0x10#8 0xFB#8) = false := by decide
theorem test_wf_vendor_dest : Instr.wellFormed (.deviceVendorIdTx 4#4 0#4 0#8 0x10#8 0xFA#8) = false := by decide
theorem test_wf_menu_status : Instr.wellFormed (.menuStatusTx 4#4 0#4 2#8) = false := by decide
theorem test_wf_power_status : Instr.wellFormed (.reportPowerStatusTx 4#4 0#4 2#8) = false := by decide
theorem test_wf_version : Instr.wellFormed (.cecVersionTx 4#4 0#4 5#8) = false := by decide
theorem test_wf_poll_broadcast : Instr.wellFormed (.pollTx 15#4) = false := by decide
theorem test_wf_tx_self_addressed : Instr.wellFormed (.imageViewOnTx 0#4 0#4) = false := by decide

/-! ## Frames written out from the spec decode to their instructions

Header: initiator in the high nibble (R126); opcode and operands from 30_encoding R80 and 95_test_vectors. -/

theorem test_decode_poll : decode .rx [0x04#8] = .ok (.poll 0#4 4#4) := by decide
theorem test_decode_feature_abort :
    decode .rx [0x04#8, 0x00#8, 0x9F#8, 0x00#8] = .ok (.featureAbort 0#4 4#4 [0x9F#8, 0x00#8]) := by decide
theorem test_decode_image_view_on : decode .rx [0x04#8, 0x04#8] = .ok (.imageViewOn 0#4 4#4 []) := by decide
theorem test_decode_text_view_on : decode .rx [0x04#8, 0x0D#8] = .ok (.textViewOn 0#4 4#4 []) := by decide
theorem test_decode_standby : decode .rx [0x0F#8, 0x36#8] = .ok (.standby 0#4 15#4 []) := by decide
theorem test_decode_user_control_pressed :
    decode .rx [0x04#8, 0x44#8, 0x01#8] = .ok (.userControlPressed 0#4 4#4 [0x01#8]) := by decide
theorem test_decode_user_control_released :
    decode .rx [0x04#8, 0x45#8] = .ok (.userControlReleased 0#4 4#4 []) := by decide
theorem test_decode_give_osd_name : decode .rx [0x04#8, 0x46#8] = .ok (.giveOsdName 0#4 4#4 []) := by decide
theorem test_decode_system_audio_mode_request :
    decode .rx [0x04#8, 0x70#8] = .ok (.systemAudioModeRequest 0#4 4#4 []) := by decide
theorem test_decode_give_audio_status : decode .rx [0x04#8, 0x71#8] = .ok (.giveAudioStatus 0#4 4#4 []) := by decide
theorem test_decode_set_system_audio_mode :
    decode .rx [0x0F#8, 0x72#8, 0x01#8] = .ok (.setSystemAudioMode 0#4 15#4 [0x01#8]) := by decide
theorem test_decode_give_system_audio_mode_status :
    decode .rx [0x04#8, 0x7D#8] = .ok (.giveSystemAudioModeStatus 0#4 4#4 []) := by decide
theorem test_decode_system_audio_mode_status :
    decode .rx [0x04#8, 0x7E#8, 0x01#8] = .ok (.systemAudioModeStatus 0#4 4#4 [0x01#8]) := by decide
theorem test_decode_routing_change :
    decode .rx [0x04#8, 0x80#8, 0x20#8, 0x00#8, 0x10#8, 0x00#8] =
      .ok (.routingChange 0#4 4#4 [0x20#8, 0x00#8, 0x10#8, 0x00#8]) := by decide
theorem test_decode_active_source :
    decode .rx [0x04#8, 0x82#8, 0x20#8, 0x00#8] = .ok (.activeSource 0#4 4#4 [0x20#8, 0x00#8]) := by decide
theorem test_decode_give_physical_address :
    decode .rx [0x04#8, 0x83#8] = .ok (.givePhysicalAddress 0#4 4#4 []) := by decide
theorem test_decode_report_physical_address :
    decode .rx [0x3F#8, 0x84#8, 0x30#8, 0x00#8, 0x03#8] =
      .ok (.reportPhysicalAddress 3#4 15#4 [0x30#8, 0x00#8, 0x03#8]) := by decide
theorem test_decode_request_active_source :
    decode .rx [0x04#8, 0x85#8] = .ok (.requestActiveSource 0#4 4#4 []) := by decide
theorem test_decode_set_stream_path :
    decode .rx [0x04#8, 0x86#8, 0x10#8, 0x00#8] = .ok (.setStreamPath 0#4 4#4 [0x10#8, 0x00#8]) := by decide
theorem test_decode_device_vendor_id :
    decode .rx [0x0F#8, 0x87#8, 0x00#8, 0x10#8, 0xFA#8] =
      .ok (.deviceVendorId 0#4 15#4 [0x00#8, 0x10#8, 0xFA#8]) := by decide
theorem test_decode_give_device_vendor_id :
    decode .rx [0x04#8, 0x8C#8] = .ok (.giveDeviceVendorId 0#4 4#4 []) := by decide
theorem test_decode_menu_request :
    decode .rx [0x04#8, 0x8D#8, 0x02#8] = .ok (.menuRequest 0#4 4#4 [0x02#8]) := by decide
theorem test_decode_give_device_power_status :
    decode .rx [0x04#8, 0x8F#8] = .ok (.giveDevicePowerStatus 0#4 4#4 []) := by decide
theorem test_decode_get_cec_version : decode .rx [0x04#8, 0x9F#8] = .ok (.getCecVersion 0#4 4#4 []) := by decide
theorem test_decode_abort : decode .rx [0xF4#8, 0xFF#8] = .ok (.abort 15#4 4#4 []) := by decide
theorem test_decode_unrecognized :
    decode .rx [0x04#8, 0xC0#8, 0xAA#8] = .ok (.unrecognized 0#4 4#4 0xC0#8 [0xAA#8]) := by decide
/-- 30_encoding R82: a send-only opcode received is unrecognized. -/
theorem test_decode_send_only_opcode :
    decode .rx [0x04#8, 0x47#8] = .ok (.unrecognized 0#4 4#4 0x47#8 []) := by decide

theorem test_decode_feature_abort_tx :
    decode .tx [0x40#8, 0x00#8, 0xC0#8, 0x00#8] = .ok (.featureAbortTx 4#4 0#4 0xC0#8 0x00#8) := by decide
theorem test_decode_image_view_on_tx : decode .tx [0x40#8, 0x04#8] = .ok (.imageViewOnTx 4#4 0#4) := by decide
theorem test_decode_set_osd_name_tx :
    decode .tx [0x40#8, 0x47#8, 0x50#8, 0x69#8, 0x63#8, 0x6F#8, 0x2D#8, 0x43#8, 0x45#8, 0x43#8] =
      .ok (.setOsdNameTx 4#4 0#4 [0x50#8, 0x69#8, 0x63#8, 0x6F#8, 0x2D#8, 0x43#8, 0x45#8, 0x43#8]) := by decide
theorem test_decode_set_system_audio_mode_tx :
    decode .tx [0x40#8, 0x72#8, 0x01#8] = .ok (.setSystemAudioModeTx 4#4 0#4 0x01#8) := by decide
theorem test_decode_report_audio_status_tx :
    decode .tx [0x40#8, 0x7A#8, 0x32#8] = .ok (.reportAudioStatusTx 4#4 0#4 0x32#8) := by decide
theorem test_decode_system_audio_mode_status_tx :
    decode .tx [0x40#8, 0x7E#8, 0x01#8] = .ok (.systemAudioModeStatusTx 4#4 0#4 0x01#8) := by decide
theorem test_decode_active_source_tx :
    decode .tx [0x4F#8, 0x82#8, 0x10#8, 0x00#8] = .ok (.activeSourceTx 4#4 15#4 0x10#8 0x00#8) := by decide
theorem test_decode_report_physical_address_tx :
    decode .tx [0x4F#8, 0x84#8, 0x10#8, 0x00#8, 0x04#8] =
      .ok (.reportPhysicalAddressTx 4#4 15#4 0x10#8 0x00#8 0x04#8) := by decide
theorem test_decode_device_vendor_id_tx :
    decode .tx [0x4F#8, 0x87#8, 0x00#8, 0x10#8, 0xFA#8] =
      .ok (.deviceVendorIdTx 4#4 15#4 0x00#8 0x10#8 0xFA#8) := by decide
theorem test_decode_menu_status_tx :
    decode .tx [0x40#8, 0x8E#8, 0x01#8] = .ok (.menuStatusTx 4#4 0#4 0x01#8) := by decide
theorem test_decode_report_power_status_tx :
    decode .tx [0x40#8, 0x90#8, 0x01#8] = .ok (.reportPowerStatusTx 4#4 0#4 0x01#8) := by decide
theorem test_decode_cec_version_tx :
    decode .tx [0x40#8, 0x9E#8, 0x04#8] = .ok (.cecVersionTx 4#4 0#4 0x04#8) := by decide
theorem test_decode_poll_tx : decode .tx [0xBB#8] = .ok (.pollTx 11#4) := by decide

/-! ### What decodes to nothing, and the sanity limits (95_test_vectors V9) -/

theorem test_decode_empty : decode .rx [] = .error .empty := by decide
theorem test_decode_self_addressed : decode .rx [0x44#8, 0x36#8] = .error .selfAddressed := by decide
theorem test_decode_too_long : decode .rx (0x40#8 :: List.replicate 16 0#8) = .error .tooLong := by decide
theorem test_sane_poll : sane [0xFF#8] = true := by decide
theorem test_sane_broadcast_from_15 : sane [0xFF#8, 0x36#8] = false := by decide
theorem test_sane_tv_to_tv : sane [0x00#8, 0x04#8] = false := by decide

/-! ## The opcode table's words -/

/-- Every opcode of the table, as a table word of 8 bits. -/
def tableOpcodes : List Nat :=
  [0x00, 0x04, 0x0D, 0x36, 0x44, 0x45, 0x46, 0x47, 0x70, 0x71, 0x72, 0x7A, 0x7D, 0x7E] ++
  [0x80, 0x82, 0x83, 0x84, 0x85, 0x86, 0x87, 0x8C, 0x8D, 0x8E, 0x8F, 0x90, 0x9E, 0x9F, 0xC0, 0xFF]

theorem test_table_words_decode : (tableOpcodes.all fun w => (decodeTableWord 8 w).isSome) = true := by decide

/-- From reset, the step after `withFetchWord` runs each of them and answers a next state. -/
theorem test_table_words_run :
    (tableOpcodes.all fun w => (stateOf (step (State.reset.withFetchWord 8 w))).isSome) = true := by decide

/-- The step after `withFetchWord` runs that instruction: Standby calls the indicator. -/
theorem test_fetch_word_standby :
    (stateOf (step (State.reset.withFetchWord 8 0x36))).map (fun s => s.ind) = some [.idle] := by decide

/-- Give CEC Version makes `40 9E 04` the next message. -/
theorem test_fetch_word_get_cec_version :
    (stateOf (step (State.reset.withFetchWord 8 0x9F))).map nextFrame = some [0x40#8, 0x9E#8, 0x04#8] := by decide

/-- A transmitted row begins its send: `40 90 00`. -/
theorem test_fetch_word_report_power_status :
    (stateOf (step (State.reset.withFetchWord 8 0x90))).map (fun s => (s.drv.txPhase, s.drv.txLen)) =
      some (.wait, 3) := by decide

/-! ## One step of each received message (95_test_vectors V11) -/

theorem test_poll : exec (.poll 0#4 4#4) up = .next up := rfl
theorem test_feature_abort : exec (.featureAbort 0#4 4#4 [0x9F#8, 0x00#8]) up = .next up := rfl
theorem test_image_view_on : exec (.imageViewOn 0#4 4#4 []) up = .next up := rfl
theorem test_text_view_on : exec (.textViewOn 0#4 4#4 []) up = .next up := rfl
theorem test_standby :
    after (fun s => (s.eng.activeSource, s.ind)) (.standby 0#4 4#4 [])
      (upEng fun e => { e with activeSource := 0x1000#16 }) = some (0#16, [.idle]) := by decide
theorem test_standby_unregistered :
    after (fun s => s.ind) (.standby 0#4 15#4 []) (upEng fun e => { e with selfLa := 15#4 }) = some [.idle] := by decide
theorem test_key_pressed :
    after (fun s => (s.keyq, s.ind)) (.userControlPressed 0#4 4#4 [0x01#8]) up = some ([0x52#8], [.keyPressed]) := by
  decide
theorem test_key_unmapped : exec (.userControlPressed 0#4 4#4 [0x02#8]) up = .next up := rfl
theorem test_key_released :
    after (fun s => (s.keyq, s.ind)) (.userControlReleased 0#4 4#4 [])
      (upEng fun e => { e with activeSource := 0x1000#16 }) = some ([0x00#8], [.active]) := by decide
theorem test_key_released_full :
    after (fun s => (s.keyq, s.eng.todo)) (.userControlReleased 0#4 4#4 [])
      { up with keyq := [0x52#8], now := 5, par := { up.par with keyqDepth := 1 } } =
      some ([0x52#8], [.keyWait 0x00#8 10005, .indicatorSelected]) := by decide
theorem test_give_osd_name :
    after nextFrame (.giveOsdName 0#4 4#4 []) up =
      some [0x40#8, 0x47#8, 0x50#8, 0x69#8, 0x63#8, 0x6F#8, 0x2D#8, 0x43#8, 0x45#8, 0x43#8] := by decide
theorem test_give_osd_name_broadcast : exec (.giveOsdName 0#4 15#4 []) up = .next up := rfl
theorem test_system_audio_mode_request :
    after nextFrame (.systemAudioModeRequest 0#4 4#4 []) (upEng fun e => { e with audioMode := true }) =
      some [0x40#8, 0x72#8, 0x01#8] := by decide
theorem test_give_audio_status :
    after nextFrame (.giveAudioStatus 0#4 4#4 []) up = some [0x40#8, 0x7A#8, 0x32#8] := by decide
theorem test_set_system_audio_mode :
    after (fun s => s.eng.audioMode) (.setSystemAudioMode 0#4 15#4 [0x01#8]) up = some true := by decide
theorem test_set_system_audio_mode_other :
    after (fun s => s.eng.audioMode) (.setSystemAudioMode 0#4 4#4 [0x02#8])
      (upEng fun e => { e with audioMode := true }) = some false := by decide
theorem test_give_system_audio_mode_status :
    after nextFrame (.giveSystemAudioModeStatus 0#4 4#4 []) (upEng fun e => { e with audioMode := true }) =
      some [0x40#8, 0x7E#8, 0x01#8] := by decide
theorem test_system_audio_mode_status : exec (.systemAudioModeStatus 0#4 4#4 [0x01#8]) up = .next up := rfl
/-- The address is given up, and the first candidate polled, by the engine step that follows. -/
theorem test_routing_change :
    let row := stateOf (exec (.routingChange 0#4 4#4 [0x20#8, 0x00#8, 0x10#8, 0x00#8]) up)
    row.map (fun s => (s.eng.activeSource, s.eng.selfLa)) = some (0x1000#16, 4#4) ∧
    ((row.bind fun s => stateOf (engineStep s)).map fun s => (s.eng.selfLa, nextFrame s)) =
      some (15#4, [0x44#8]) := by decide
theorem test_routing_change_short : exec (.routingChange 0#4 4#4 [0x20#8, 0x00#8]) up = .next up := rfl
theorem test_active_source :
    after (fun s => (s.eng.activeSource, s.eng.lostCount, s.ind)) (.activeSource 0#4 4#4 [0x20#8, 0x00#8])
      (upEng fun e => { e with activeSource := 0x1000#16, lostCount := 2 }) =
      some (0x2000#16, 0, [.idle]) := by decide
theorem test_active_source_broadcast : exec (.activeSource 0#4 15#4 [0x20#8, 0x00#8]) up = .next up := rfl
theorem test_give_physical_address :
    after nextFrame (.givePhysicalAddress 0#4 4#4 []) up = some [0x4F#8, 0x84#8, 0x10#8, 0x00#8, 0x04#8] := by decide
theorem test_report_physical_address :
    (((stateOf (exec (.reportPhysicalAddress 0#4 15#4 [0x00#8, 0x00#8, 0x00#8]) up)).bind fun s =>
      stateOf (engineStep s)).map fun s => (s.eng.selfLa, nextFrame s)) = some (15#4, [0x44#8]) := by decide
theorem test_report_physical_address_not_tv :
    exec (.reportPhysicalAddress 3#4 15#4 [0x30#8, 0x00#8, 0x03#8]) up = .next up := rfl
theorem test_request_active_source :
    after (fun s => (s.eng.lostCount, s.eng.todo)) (.requestActiveSource 0#4 4#4 [])
      (upEng fun e => { e with activeSource := 0x2000#16 }) = some (1, []) := by decide
theorem test_request_active_source_third :
    after nextFrame (.requestActiveSource 0#4 4#4 [])
      (upEng fun e => { e with activeSource := 0x2000#16, lostCount := 2 }) = some [0x40#8, 0x04#8] := by decide
theorem test_set_stream_path :
    after (fun s => (s.eng.activeSource, nextFrame s)) (.setStreamPath 0#4 4#4 [0x10#8, 0x00#8]) up =
      some (0x1000#16, [0x40#8, 0x04#8]) := by decide
theorem test_set_stream_path_other : exec (.setStreamPath 0#4 4#4 [0x20#8, 0x00#8]) up = .next up := rfl
theorem test_device_vendor_id :
    after nextFrame (.deviceVendorId 0#4 15#4 [0x00#8, 0x10#8, 0xFA#8]) up =
      some [0x4F#8, 0x87#8, 0x00#8, 0x10#8, 0xFA#8] := by decide
theorem test_give_device_vendor_id :
    after nextFrame (.giveDeviceVendorId 0#4 4#4 []) up = some [0x4F#8, 0x87#8, 0x00#8, 0x10#8, 0xFA#8] := by decide
theorem test_menu_request_deactivate :
    after (fun s => (s.eng.menuActive, nextFrame s)) (.menuRequest 0#4 4#4 [0x01#8])
      (upEng fun e => { e with menuActive := true }) = some (false, [0x40#8, 0x8E#8, 0x01#8]) := by decide
theorem test_menu_request_query :
    after (fun s => (s.eng.menuActive, nextFrame s)) (.menuRequest 0#4 4#4 [0x02#8])
      (upEng fun e => { e with menuActive := true }) = some (true, [0x40#8, 0x8E#8, 0x00#8]) := by decide
theorem test_give_device_power_status :
    after nextFrame (.giveDevicePowerStatus 0#4 4#4 []) up = some [0x40#8, 0x90#8, 0x01#8] := by decide
theorem test_get_cec_version : after nextFrame (.getCecVersion 0#4 4#4 []) up = some [0x40#8, 0x9E#8, 0x04#8] := by
  decide
theorem test_abort :
    after (fun s => (nextFrame s, s.err)) (.abort 0#4 4#4 []) up =
      some ([0x40#8, 0x00#8, 0xFF#8, 0x04#8], [(0, .refused 0xFF#8)]) := by decide
theorem test_unrecognized :
    after (fun s => (nextFrame s, s.err)) (.unrecognized 0#4 4#4 0xC0#8 [0xAA#8]) up =
      some ([0x40#8, 0x00#8, 0xC0#8, 0x00#8], [(0, .unrecognized 0xC0#8)]) := by decide
/-- 92 D40: the initiator 15 is answered by a broadcast. -/
theorem test_unrecognized_from_15 :
    after nextFrame (.unrecognized 15#4 4#4 0xC0#8 []) up = some [0x4F#8, 0x00#8, 0xC0#8, 0x00#8] := by decide

/-! ## One step of the transmitted messages (95_test_vectors V6, V9, V11) -/

/-- V6, first case: a first attempt waits 16800 from the last edge. -/
theorem test_transmit_waits :
    after (fun s => (s.drv.txPhase, s.drv.alarmTx, s.drv.txBuf)) (.imageViewOnTx 4#4 0#4)
      { (upDrv fun d => { d with tLastEdge := 100000 }) with now := 100000 } =
      some (.wait, some 116800, [(0, 0x40#8), (1, 0x04#8)]) := by decide
/-- V6, second case: after this node's own frame, 7200. -/
theorem test_transmit_after_own :
    after (fun s => s.drv.alarmTx) (.cecVersionTx 4#4 0#4 0x04#8)
      { (upDrv fun d => { d with tLastEdge := 100000, justTransmitted := true }) with now := 100000 } =
      some (some 107200) := by decide
/-- V11, last row: an unregistered node's broadcast is refused by the codec. -/
theorem test_transmit_insane :
    after (fun s => (s.drv, s.err)) (.deviceVendorIdTx 15#4 15#4 0x00#8 0x10#8 0xFA#8) up =
      some (up.drv, [(0, .codecReject [0xFF#8, 0x87#8, 0x00#8, 0x10#8, 0xFA#8])]) := by decide
/-- V11, `04 83` with no physical address. -/
theorem test_report_physical_address_withheld :
    after (fun s => (s.drv.txPhase, s.err)) (.reportPhysicalAddressTx 4#4 15#4 0#8 0#8 4#8)
      (upEng fun e => { e with selfPa := 0#16 }) = some (.idle, [(0, .noPa)]) := by decide
/-- V10: the poll of a candidate. -/
theorem test_poll_tx :
    after (fun s => (s.drv.txBuf, s.eng.todo)) (.pollTx 4#4) up = some ([(0, 0x44#8)], [.sendWait]) := by decide

/-! ## Witnesses: every statement's hypotheses are met, each clause at the edge of its range

### Encoding and the step -/

/-- A state whose mailbox holds a frame. -/
def mailbox (bytes : List Byte) : State :=
  upDrv fun d => { d with mbFull := true, mbLen := bytes.length, mbBuf := memStore [] 0 bytes }

/-- `up` with an edge pending, both alarms due, an input due and the engine ready or not; the given choice next. -/
def allDue (todo : List Act) (k : Nat) : State :=
  { up with
    now := 9, edges := [(7, .high)], eng := { up.eng with todo := todo }
    drv := { up.drv with alarmTx := some 9, alarmAck := some 8 }
    env := { Env.reset with script := [(9, .event .pop)], order := [k] } }

/-- Each agent has its turn somewhere: every one but time where all are due, and time where all are blocked. -/
theorem witness_AgentTurns :
    (List.range 5).map (fun k => (pick (allDue [] k)).1) = [.engine, .env, .edge, .alarmTx, .alarmAck] ∧
    ready (allDue [] 0) = [.engine, .env, .edge, .alarmTx, .alarmAck] ∧
    ready (allDue [.sendWait] 0) = [.env, .edge, .alarmTx, .alarmAck] ∧
    (pick { allDue [.sendWait] 0 with now := 7, edges := [] }).1 = .time := by decide

/-- The engine with a frame it has copied out of the mailbox. -/
def received (bytes : List Byte) : State :=
  upEng fun e => { e with fbuf := memStore [] 0 bytes, todo := [.received bytes.length] }

theorem witness_DecodeEncode :
    Instr.wellFormed (.standby 0#4 4#4 (List.replicate 14 0#8)) = true ∧ Instr.wellFormed (.pollTx 14#4) = true := by
  decide
theorem witness_EncodeDecode : decode .rx (0x04#8 :: 0xC0#8 :: List.replicate 14 0#8) =
    .ok (.unrecognized 0#4 4#4 0xC0#8 (List.replicate 14 0#8)) := by decide
theorem witness_StepRunsInstruction_frame :
    (pick (received [0x04#8, 0x36#8])).1 = .engine ∧
    (received [0x04#8, 0x36#8]).eng.todo = .received 2 :: [] ∧
    bufTake (received [0x04#8, 0x36#8]).eng.fbuf 2 2 = .ok [0x04#8, 0x36#8] ∧
    decode .rx [0x04#8, 0x36#8] = .ok (.standby 0#4 4#4 []) := by decide
theorem witness_StepRunsInstruction_message :
    (pick (upEng fun e => { e with todo := [.instr (.pollTx 4#4)] })).1 = .engine ∧
    (upEng fun e => { e with todo := [.instr (.pollTx 4#4)] }).eng.todo = [.instr (.pollTx 4#4)] := by decide
theorem witness_ReceiveLoop :
    let blocked : State := upEng fun e => { e with todo := [.recvWait] }
    let held : State := upEng fun e => { e with fbuf := memStore [] 0 [0x04#8, 0x46#8], flen := 2 }
    ((mailbox [0x44#8, 0x36#8]).eng.todo = [] ∧ (mailbox [0x44#8, 0x36#8]).eng.ctl = .recv ∧
      (mailbox [0x44#8, 0x36#8]).drv.mbFull = true ∧
      bufTake (mailbox [0x44#8, 0x36#8]).drv.mbBuf 2 2 = .ok [0x44#8, 0x36#8]) ∧
    ((received [0x44#8, 0x36#8]).eng.todo = .received 2 :: [] ∧
      bufTake (received [0x44#8, 0x36#8]).eng.fbuf 2 2 = .ok [0x44#8, 0x36#8] ∧ sane [0x44#8, 0x36#8] = false) ∧
    (up.eng.todo = [] ∧ up.eng.ctl = .recv ∧ up.drv.mbFull = false) ∧
    (blocked.eng.todo = .recvWait :: [] ∧ blocked.drv.evRx = false ∧
      ({ blocked with drv := { blocked.drv with evRx := true } } : State).drv.evRx = true) ∧
    bufTake held.eng.fbuf held.eng.flen held.eng.flen = .ok (0x04#8 :: [0x46#8]) ∧
    (upEng fun e => { e with ctl := .dispatch }).eng.ctl = .dispatch := by decide
/-- R202: the copy-out is a step of its own, the rest of the rule the next. In between, the handler of a malformed edge
can make its record before the unrecognized opcode makes its own. -/
theorem test_handler_between_copy_and_rule :
    let s : State := { mailbox [0x04#8, 0xC0#8] with
      edges := [(2000, .high)], now := 2000, env := { Env.reset with script := [(9000, .event .pop)], order := [0, 1] }
      drv := { (mailbox [0x04#8, 0xC0#8]).drv with rxState := .startHigh, rxTFall := 100 } }
    let s1 := stateOf (step s)
    let s2 := s1.bind fun t => stateOf (step t)
    let s3 := s2.bind fun t => stateOf (step t)
    s1.map (fun t => (t.drv.mbFull, t.eng.todo, t.err)) = some (false, [.received 2], []) ∧
    s3.map (fun t => (nextFrame t, t.err)) =
      some ([0x40#8, 0x00#8, 0xC0#8, 0x00#8], [(2000, .malformed 2000), (2000, .unrecognized 0xC0#8)]) := by decide
/-- R131: the frame `04 46 AA` keeps the ACK bits it came with. -/
theorem test_frame_record :
    let s : State := upEng fun e => { e with
      fbuf := memStore [] 0 [0x04#8, 0x46#8, 0xAA#8], flen := 3, fackbits := 5#16 }
    (match frameRecord s with
     | .ok f => some (f.len, f.init, f.dest, f.isPoll, f.operands, f.ackbits, f.direction)
     | .error _ => none) = some (3, 0#4, 4#4, false, [0xAA#8], 5#16, .rx) := rfl
theorem witness_EngineActionsRun :
    let s (a : Act) : State := upEng fun e => { e with todo := a :: [.indicator .active] }
    let with' (la dt : Byte) : State := { s .allocate with cfg := { up.cfg with la := la, deviceType := dt } }
    (s (.send .activeSource)).eng.todo = .send .activeSource :: [.indicator .active] ∧
    (s (.setMenu true)).eng.todo = .setMenu true :: [.indicator .active] ∧
    (s .resetLost).eng.todo = .resetLost :: [.indicator .active] ∧
    (s (.indicator .idle)).eng.todo = .indicator .idle :: [.indicator .active] ∧
    (s .indicatorSelected).eng.todo = .indicatorSelected :: [.indicator .active] ∧
    (s (.announceIf 0x1000#16)).eng.todo = .announceIf 0x1000#16 :: [.indicator .active] ∧
    (s (.updateSelection true)).eng.todo = .updateSelection true :: [.indicator .active] ∧
    (s .derivePa).eng.todo = .derivePa :: [.indicator .active] ∧
    (s .enterLoop).eng.todo = .enterLoop :: [.indicator .active] ∧
    (s (.enqueueKey 1#8)).eng.todo = .enqueueKey 1#8 :: [.indicator .active] ∧
    (with' 0x0E#8 4#8).eng.todo = .allocate :: [.indicator .active] ∧
    candidate (with' 0x0F#8 2#8).cfg.deviceType 0 = 15#4 ∧ candidate (with' 0x0F#8 4#8).cfg.deviceType 0 ≠ 15#4 ∧
    (Act.claim 4#4).startsStep = true ∧ (Act.instr (.pollTx 4#4)).startsStep = true ∧
    (up.eng.todo = [] ∧ Act.resetLost.startsStep = false ∧ (Act.send .activeSource).startsStep = false) ∧
    (Act.enterLoop ≠ .sendWait ∧ Act.enterLoop ≠ .recvWait ∧ ∀ b d, Act.enterLoop ≠ .keyWait b d) :=
  ⟨rfl, rfl, rfl, rfl, rfl, rfl, rfl, rfl, rfl, rfl, rfl, rfl, by decide, rfl, rfl, ⟨rfl, rfl, rfl⟩, nofun, nofun, nofun⟩
/-- R183: the announcement ends with the lost count at 0. -/
theorem test_reset_lost :
    (stateOf (engineStep (upEng fun e => { e with lostCount := 3, todo := [.resetLost] }))).map
      (fun t => (t.eng.lostCount, t.eng.todo)) = some (0, []) := by decide
/-- R184: Menu Status after Set Stream Path says activated. -/
theorem test_set_menu :
    (stateOf (engineStep (upEng fun e => { e with todo := [.setMenu true, .send (.menuStatus 0#4)] }))).map nextFrame =
      some [0x40#8, 0x8E#8, 0x00#8] := by decide

/-- `up` meets the invariant. -/
theorem up_inv : Inv up where
  mem := by constructor <;> decide
  rx := { bit := by decide, len := by decide, filled := memFilled_zero _,
          lowData := by decide, lowTail := by decide, highData := by decide, highTail := by decide,
          mailbox := fun h => (nomatch h), acking := fun h => (nomatch h) }
  tx := { busy := fun h => absurd rfl h, cell := fun h => (nomatch h) }
  eng := { sending := fun h => absurd rfl h, woken := fun h => (nomatch h),
           inRule := fun _ h => absurd h List.not_mem_nil, fetched := nofun,
           sendsOnly := fun _ h => absurd h List.not_mem_nil, running := fun h => absurd rfl h, started := by decide,
           published := rfl, lost := .inl (by decide), keyq := by decide }
  times := by decide

theorem witness_InvEveryStep : Inv up ∧ ∃ t, step up = .next t := ⟨up_inv, _, rfl⟩
theorem witness_StepNeverFaults : Inv up := up_inv

/-! ### Received messages -/

theorem witness_ClosedGateChangesNothing_broadcast :
    rxGate (.giveOsdName 0#4 15#4 []) = some (.direct, 0, 0#4, 15#4, []) ∧
    ¬(Acts .direct 0#4 15#4 up ∧ 0 ≤ ([] : List Byte).length) :=
  ⟨rfl, fun h => absurd h.1.1 (by decide)⟩
theorem witness_ClosedGateChangesNothing_short :
    rxGate (.routingChange 0#4 4#4 [0x20#8, 0x00#8, 0x10#8]) = some (.direct, 4, 0#4, 4#4, [0x20#8, 0x00#8, 0x10#8]) ∧
    ¬(Acts .direct 0#4 4#4 up ∧ 4 ≤ [0x20#8, 0x00#8, 0x10#8].length) :=
  ⟨rfl, fun h => absurd h.2 (by decide)⟩
theorem witness_ClosedGateChangesNothing_not_tv :
    rxGate (.deviceVendorId 3#4 15#4 []) = some (.tvBcast, 0, 3#4, 15#4, []) ∧
    ¬(Acts .tvBcast 3#4 15#4 up ∧ 0 ≤ ([] : List Byte).length) :=
  ⟨rfl, fun h => absurd h.1.2 (by decide)⟩
theorem witness_StandbyEffect :
    Acts .directB 0#4 4#4 up ∧ Acts .directB 0#4 15#4 (upEng fun e => { e with selfLa := 15#4 }) :=
  ⟨.inl ⟨rfl, by decide⟩, .inr rfl⟩

/-- A frame for this node, as most rows need: KeyRowsEffect, RepliesIssueOneMessage, VendorIdBroadcasts,
ActiveSourceReceived, RequestActiveSourceEffect, SetStreamPathEffect, MenuRequestEffect,
AbortAndUnrecognizedEffect and RoutingChangeEffect have no other hypothesis, but for the clauses below. -/
theorem witness_toSelf : toSelf 4#4 up ∧ toSelf 0#4 (upEng fun e => { e with selfLa := 0#4 }) ∧
    toSelf 14#4 (upEng fun e => { e with selfLa := 14#4 }) :=
  ⟨⟨rfl, by decide⟩, ⟨rfl, by decide⟩, ⟨rfl, by decide⟩⟩
theorem witness_KeyRowsEffect_clauses :
    memGet up.cfg.keyMap (0x02#8).toNat = none ∧ memGet up.cfg.keyMap (0xFF#8).toNat = none ∧
    memGet up.cfg.keyMap (0x01#8).toNat = some 0x52#8 ∧ memGet up.cfg.keyMap (0x03#8).toNat = some 0x00#8 := by decide
theorem witness_KeyWaitEnds :
    let s : State := upEng fun e => { e with todo := [.keyWait 0#8 10] }
    s.eng.todo = .keyWait 0#8 10 :: [] ∧ s.keyq.length < s.par.keyqDepth ∧
    ¬({ s with keyq := [1#8, 2#8] } : State).keyq.length < s.par.keyqDepth ∧
    10 ≤ ({ s with now := 10 } : State).now ∧ ({ s with now := 9 } : State).now < 10 := by decide
theorem witness_VendorIdBroadcasts :
    ((0#4 : La) = 0#4 ∧ (15#4 : La) = 15#4) ∧ ¬((3#4 : La) = 0#4 ∧ (15#4 : La) = 15#4) ∧
    ¬((0#4 : La) = 0#4 ∧ (4#4 : La) = 15#4) := by decide
theorem witness_SetSystemAudioModeEffect :
    (toSelf 4#4 up ∨ (4#4 : La) = 15#4) ∧ (toSelf 15#4 up ∨ (15#4 : La) = 15#4) ∧
    ¬(toSelf 5#4 up ∨ (5#4 : La) = 15#4) :=
  ⟨.inl ⟨rfl, by decide⟩, .inr rfl, fun h => h.elim (fun h => absurd h.1 (by decide)) (by decide)⟩
theorem witness_ReceivedRowFrames :
    Instr.direction (.standby 0#4 4#4 []) = .rx ∧ ∃ t, exec (.standby 0#4 4#4 []) up = .next t := ⟨rfl, _, rfl⟩

/-! ### Addressing -/

theorem witness_PhysicalAddressDerived :
    let s : State := { up with cfg := { up.cfg with pa := 0#16 }, env := { up.env with edid := [0x2100#16] } }
    up.cfg.pa ≠ 0#16 ∧ s.cfg.pa = 0#16 ∧ s.env.edid = 0x2100#16 :: [] ∧ up.env.edid = [] := by decide
theorem witness_ProbeVerdict :
    let s (r : TxResult) : State := upEng fun e => { e with ret := r, todo := [.verdict 4#4 0] }
    (s ⟨true, false, false⟩).eng.todo = .verdict 4#4 0 :: [] ∧
    ¬((s ⟨false, false, false⟩).eng.ret.acked = true ∨ (s ⟨false, false, false⟩).eng.ret.arbitrationLost = true ∨
      (s ⟨false, false, false⟩).eng.ret.timeout = true) ∧
    candidate up.cfg.deviceType 1 ≠ 15#4 ∧ candidate up.cfg.deviceType 3 = 15#4 ∧ candidate 0#8 4 = 15#4 := by decide
theorem witness_ProbeVerdict_claim :
    (upEng fun e => { e with todo := [.claim 5#4, .enterLoop] }).eng.todo = .claim 5#4 :: [.enterLoop] := rfl
/-- V10: a configured address is used verbatim; a handler may run before it is claimed. -/
theorem test_claim :
    let s : State := { (upEng fun e => { e with ctl := .la }) with cfg := { up.cfg with la := 5#8 } }
    ((stateOf (step s)).map fun t => (t.drv.selfLa, t.eng.todo)) = some (15#4, [.claim 5#4, .enterLoop]) ∧
    (((stateOf (step s)).bind fun t => stateOf (step t)).map fun t => (t.drv.selfLa, t.eng.todo)) =
      some (5#4, [.enterLoop]) := by decide
theorem witness_AddressesStable :
    let s : State := upEng fun e => { e with ctl := .la }
    Inv s ∧ ∃ t, step s = .next t ∧ t.eng.selfLa ≠ s.eng.selfLa :=
  ⟨{ mem := ⟨up_inv.mem.rxBuf, up_inv.mem.mbBuf, up_inv.mem.txBuf, up_inv.mem.fbuf, up_inv.mem.keyMap⟩
     rx := up_inv.rx
     tx := up_inv.tx
     eng := ⟨up_inv.eng.sending, up_inv.eng.woken, up_inv.eng.inRule, up_inv.eng.fetched, up_inv.eng.sendsOnly,
       up_inv.eng.running, fun _ => rfl, up_inv.eng.published, up_inv.eng.lost, up_inv.eng.keyq⟩
     times := by decide }, _, rfl, by decide⟩

/-! ### Transmitted messages -/

theorem witness_TransmitBeginsSend :
    Instr.direction (.imageViewOnTx 4#4 0#4) = .tx ∧ ¬withheld (.imageViewOnTx 4#4 0#4) up ∧
    sane (encode (.imageViewOnTx 4#4 0#4)) = true ∧ up.drv.enabled = true ∧ up.drv.txPhase = .idle :=
  ⟨rfl, id, rfl, rfl, rfl⟩
theorem witness_TransmitBeginsSend_report :
    ¬withheld (.reportPhysicalAddressTx 4#4 15#4 0x10#8 0#8 4#8) up ∧
    sane (encode (.reportPhysicalAddressTx 4#4 15#4 0x10#8 0#8 4#8)) = true :=
  ⟨fun h => absurd (show (0x1000#16 : Pa) = 0#16 from h) (by decide), rfl⟩
theorem witness_UnsentMessages :
    Instr.direction (.deviceVendorIdTx 15#4 15#4 0#8 0x10#8 0xFA#8) = .tx ∧
    ¬withheld (.deviceVendorIdTx 15#4 15#4 0#8 0x10#8 0xFA#8) up ∧
    sane (encode (.deviceVendorIdTx 15#4 15#4 0#8 0x10#8 0xFA#8)) = false ∧ State.reset.eng.selfPa = 0#16 :=
  ⟨rfl, id, rfl, rfl⟩
theorem witness_BusySendFaults :
    exec (.imageViewOnTx 4#4 0#4) State.reset = .fault .txBusy ∧
    exec (.imageViewOnTx 4#4 0#4) (upDrv fun d => { d with txPhase := .wait }) = .fault .txBusy := ⟨rfl, rfl⟩
theorem witness_TransmittedRowFrames :
    Instr.direction (.imageViewOnTx 4#4 0#4) = .tx ∧ ∃ t, exec (.imageViewOnTx 4#4 0#4) up = .next t := ⟨rfl, _, rfl⟩
theorem witness_SendEndsAndRetries_wait :
    let s (ev : Bool) : State := { up with
      drv := { up.drv with evTx := ev }, eng := { up.eng with todo := [.sendWait] } }
    (s true).eng.todo = .sendWait :: [] ∧ (s false).drv.evTx = false ∧ (s true).drv.evTx = true := by decide
theorem witness_SendEndsAndRetries_again :
    let again (ret : TxResult) (bytes : List Byte) (calls : Nat) : Prop :=
      ret.arbitrationLost = true ∧ (∃ b bs, bytes = b :: bs ∧ headerDest b ≠ 15#4) ∧ calls < 5
    let s : State := upEng fun e => { e with
      ret := ⟨false, true, false⟩, todo := [.txLoop [0x40#8, 0x9E#8, 0x04#8] 4] }
    (s.eng.todo = .txLoop [0x40#8, 0x9E#8, 0x04#8] 4 :: [] ∧ again s.eng.ret [0x40#8, 0x9E#8, 0x04#8] 4 ∧
      sane [0x40#8, 0x9E#8, 0x04#8] = true ∧ s.drv.enabled = true ∧ s.drv.txPhase = .idle) ∧
    ¬again s.eng.ret [0x40#8, 0x9E#8, 0x04#8] 5 ∧ ¬again ⟨false, false, false⟩ [0x40#8, 0x9E#8, 0x04#8] 1 ∧
    ¬again s.eng.ret [0x4F#8, 0x36#8] 4 :=
  ⟨⟨rfl, ⟨rfl, ⟨_, _, rfl, by decide⟩, by decide⟩, rfl, rfl, rfl⟩, fun h => absurd h.2.2 (by decide),
    fun h => absurd h.1 (by decide), fun ⟨_, ⟨_, _, h, hd⟩, _⟩ => hd (by cases h; rfl)⟩
/-- A refused message meets the loop test, which ends it: no driver access, no second call. -/
theorem test_refused_message_ends :
    (((stateOf (exec (.deviceVendorIdTx 15#4 15#4 0#8 0x10#8 0xFA#8) State.reset)).bind fun s =>
      stateOf (engineStep s)).map fun s => (s.eng.todo, s.drv, s.err.length)) = some ([], State.reset.drv, 1) := by
  decide

/-! ### Startup -/

theorem witness_ConfigurationLoaded :
    let r (dt : Byte) : CfgAnswer := ⟨dt, 0#8, 0#16, 500#32, [(255, 1#8), (256, 2#8)]⟩
    let s (a : Option CfgAnswer) : State :=
      { up with eng := { up.eng with ctl := .load }, env := { up.env with cfg := [a] } }
    (s none).eng.todo = [] ∧ (s none).eng.ctl = .load ∧ (s (some (r 5#8))).env.cfg = some (r 5#8) :: [] ∧
    (r 5#8).deviceType.toNat ≤ 5 ∧ 5 < (r 6#8).deviceType.toNat ∧
    (State.reset.eng.todo = [] ∧ State.reset.eng.ctl = .load ∧ State.reset.env.cfg = []) ∧
    ((upEng fun e => { e with ctl := .fault }).eng.todo = [] ∧
      (upEng fun e => { e with ctl := .fault }).eng.ctl = .fault) := by decide
theorem witness_StartupSequence :
    let s (c : Ctl) : State := upEng fun e => { e with ctl := c }
    let pa (cfgPa : Pa) : State :=
      { s .pa with cfg := { up.cfg with pa := cfgPa }, env := { up.env with edid := [0x2100#16] } }
    let configured (la : Byte) : Prop := 1 ≤ la.toNat ∧ la.toNat ≤ 14
    (s .settle).eng.todo = [] ∧ (s .settle).eng.ctl = .settle ∧ (s .init).eng.ctl = .init ∧ (s .pa).eng.ctl = .pa ∧
    (s .la).eng.ctl = .la ∧
    ((pa 1#16).cfg.pa ≠ 0#16 ∧ (pa 0#16).cfg.pa = 0#16 ∧ (pa 0#16).env.edid = 0x2100#16 :: []) ∧
    (configured 0x01#8 ∧ configured 0x0E#8 ∧ ¬configured 0x00#8 ∧ ¬configured 0x0F#8 ∧ ¬configured 0xFF#8) ∧
    (candidate 2#8 0 = 15#4 ∧ candidate 4#8 0 ≠ 15#4) ∧
    ({ s .settle with now := 499999, cfg := { up.cfg with edidDelayMs := 500#32 } } : State).now <
      (s .settle).eng.tLoaded + (500#32).toNat * 1000 ∧
    (s .settle).eng.tLoaded + (500#32).toNat * 1000 ≤
      ({ s .settle with now := 500000, cfg := { up.cfg with edidDelayMs := 500#32 } } : State).now := by decide
/-- R89: an edge may come between the driver's preparation and its enable, and is then ignored. -/
theorem test_enable_in_two_steps :
    let s : State := { State.reset with eng := { Eng.reset with ctl := .init } }
    ((stateOf (engineStep s)).map fun t => (t.drv.enabled, t.eng.todo)) = some (false, [.enable]) ∧
    (((stateOf (engineStep s)).bind fun t => stateOf (engineStep t)).map fun t => (t.drv.enabled, t.eng.ctl)) =
      some (true, .pa) := by decide
/-- V10: with no configured address the first candidate of a playback device is polled. -/
theorem test_allocate_polls :
    (stateOf (step (upEng fun e => { e with ctl := .la }))).map nextFrame = some [0x44#8] := by decide

/-! ### Interrupt handlers -/

theorem witness_HandlerEntry :
    let off : State := { State.reset with
      edges := [(7, .low)], now := 9, drv := { Drv.reset with alarmTx := some 9, alarmAck := some 8 } }
    let on (p : TxPhase) : State := { (upDrv fun d => { d with
      txPhase := p, alarmTx := some 9, alarmAck := some 10 }) with now := 9, edges := [(7, .high)] }
    (off.edges = (7, .low) :: [] ∧ off.drv.enabled = false) ∧
    (off.drv.alarmTx = some 9 ∧ 9 ≤ off.now ∧ off.drv.alarmAck = some 8 ∧ 8 ≤ off.now) ∧
    ((on .idle).drv.alarmTx = some 9 ∧ 9 ≤ (on .idle).now ∧ (on .idle).drv.txPhase = .idle) ∧
    ((on .idle).drv.alarmAck = some 10 ∧ (on .idle).now < 10 ∧ (on .idle).drv.rxAcking = false) ∧
    ((on .startLow).edges = (7, .high) :: [] ∧ (on .startLow).drv.enabled = true ∧
      (on .startLow).drv.txPhase ≠ .idle ∧ (on .startLow).drv.txPhase ≠ .wait) := by decide
theorem witness_EdgeWhileWaiting :
    (upDrv fun d => { d with txPhase := .wait }).drv.enabled = true ∧
    (upDrv fun d => { d with txPhase := .wait }).drv.txPhase = .wait := by decide
theorem witness_ReceiveWindows_idle :
    up.drv.enabled = true ∧ up.drv.txPhase = .idle ∧ up.drv.rxState = .idle := by decide
/-- What an edge leaves in the receive state. -/
def rxAfter (t : Micros) (lvl : Level) (s : State) : Option RxState :=
  match edgeIsr t lvl s with
  | .ok u => some u.drv.rxState
  | .error _ => none

theorem witness_ReceiveWindows :
    let s (r : RxState) : State := upDrv fun d => { d with rxState := r, rxTFall := 100 }
    (s .startLow).drv.enabled = true ∧ (s .startLow).drv.txPhase = .idle ∧ (s .startLow).drv.rxAcking = false ∧
    (s .startLow).drv.rxTFall ≤ 3400 ∧ (s .startLow).drv.rxState = .startLow ∧
    (s .startHigh).drv.rxState = .startHigh ∧
    ((s .bitLow).drv.rxState = .bitLow ∧ classifyLow (3400 - (s .bitLow).drv.rxTFall) = .start ∧
      classifyLow (4200 - (s .bitLow).drv.rxTFall) = .start) ∧ (s .idle).drv.rxState = .idle := by decide
theorem witness_ReceiveWindows_malformed :
    let d (r : RxState) : Drv := { up.drv with rxState := r, rxTFall := 100 }
    malformedEdge 3399 .high (d .startLow) ∧ malformedEdge 4201 .high (d .startLow) ∧
    malformedEdge 4199 .low (d .startHigh) ∧ malformedEdge 299 .high (d .bitLow) ∧
    malformedEdge 2901 .low (d .bitHigh) ∧ malformedEdge 200 .low (d .bitLow) ∧
    malformedEdge 200 .high (d .bitHigh) :=
  ⟨(by decide : ¬(3300 ≤ 3299 ∧ 3299 ≤ 4100)), (by decide : ¬(3300 ≤ 4101 ∧ 4101 ≤ 4100)),
   (by decide : ¬(4100 ≤ 4099 ∧ 4099 ≤ 4900)), rfl, (by decide : ¬(2000 ≤ 2801 ∧ 2801 ≤ 2800)), trivial, trivial⟩
/-- R104: an edge of an unexpected polarity discards the frame. -/
theorem test_unexpected_polarity :
    let s (r : RxState) := upDrv fun d => { d with rxState := r, rxTFall := 100 }
    [rxAfter 200 .low (s .startLow), rxAfter 200 .low (s .bitLow), rxAfter 200 .high (s .startHigh),
     rxAfter 200 .high (s .bitHigh)] = [some .startLow, some .startLow, some .idle, some .idle] := by decide

/-- V1, the low times of a bit cell at the edges of the windows. -/
theorem test_low_windows :
    [199, 200, 1000, 1001, 1099, 1100, 1900, 1901, 3299, 3300, 4100, 4101].map classifyLow =
      [.bad, .bit true, .bit true, .bad, .bad, .bit false, .bit false, .bad, .bad, .start, .start, .bad] := by decide

/-- V1, the start bit. -/
theorem test_start_windows :
    let low := upDrv fun d => { d with rxState := .startLow, rxTFall := 100 }
    let high := upDrv fun d => { d with rxState := .startHigh, rxTFall := 100 }
    [3299, 3300, 4100, 4101].map (fun d => rxAfter (100 + d) .high low) =
      [some .idle, some .startHigh, some .startHigh, some .idle] ∧
    [4099, 4100, 4900, 4901].map (fun d => rxAfter (100 + d) .low high) =
      [some .startLow, some .bitLow, some .bitLow, some .startLow] := by decide

/-- V1, the period of a bit cell. -/
theorem test_period_windows :
    let s := upDrv fun d => { d with rxState := .bitHigh, rxTFall := 100, rxBit := 3 }
    [1999, 2000, 2800, 2801].map (fun d => rxAfter (100 + d) .low s) =
      [some .startLow, some .bitLow, some .bitLow, some .startLow] := by decide

theorem witness_DataBitsAssembleBytes :
    let s (bit len : Nat) : State := upDrv fun d => { d with rxState := .bitLow, rxBit := bit, rxLen := len }
    (s 6 0).drv.enabled = true ∧ (s 6 0).drv.txPhase = .idle ∧ (s 6 0).drv.rxState = .bitLow ∧
    classifyLow (200 - (s 6 0).drv.rxTFall) = .bit true ∧ classifyLow (1900 - (s 6 0).drv.rxTFall) = .bit false ∧
    (s 6 0).drv.rxBit < 7 ∧ (s 7 15).drv.rxBit = 7 ∧ (s 7 15).drv.rxLen < 16 ∧
    ((s 8 16).drv.rxBit = 8 ∧ (s 8 16).drv.rxLen = 16) ∧
    ((s 9 1).drv.rxBit = 9 ∧ (s 9 1).drv.rxEom = false ∧ 1 ≤ (s 9 1).drv.rxLen ∧ (s 9 16).drv.rxLen ≤ 16) := by decide
theorem witness_NextCellBegins :
    let s (bit len : Nat) (owed : Bool) : State := upDrv fun d =>
      { d with rxState := .bitHigh, rxTFall := 100, rxBit := bit, rxLen := len, rxAckOwed := owed }
    (s 8 1 true).drv.enabled = true ∧ (s 8 1 true).drv.txPhase = .idle ∧ (s 8 1 true).drv.rxState = .bitHigh ∧
    (s 8 1 true).drv.rxAcking = false ∧ (s 8 1 true).drv.rxTFall ≤ 2100 ∧
    (2000 ≤ 2100 - (s 8 1 true).drv.rxTFall ∧ 2100 - (s 8 1 true).drv.rxTFall ≤ 2800) ∧
    ((s 7 1 true).drv.rxBit < 8 ∨ ((s 7 1 true).drv.rxBit = 8 ∧ (s 7 1 true).drv.rxAckOwed = false)) ∧
    ((s 8 1 false).drv.rxBit < 8 ∨ ((s 8 1 false).drv.rxBit = 8 ∧ (s 8 1 false).drv.rxAckOwed = false)) ∧
    ((s 8 1 true).drv.rxBit = 8 ∧ (s 8 1 true).drv.rxAckOwed = true) ∧
    ((s 9 15 true).drv.rxBit = 9 ∧ (s 9 15 true).drv.rxLen < 16) ∧
    ((s 9 16 true).drv.rxBit = 9 ∧ (s 9 16 true).drv.rxLen = 16) ∧
    ¬(2000 ≤ 2901 - (s 8 1 true).drv.rxTFall ∧ 2901 - (s 8 1 true).drv.rxTFall ≤ 2800) := by decide
theorem witness_DrivenAckReleased :
    let s (r : RxState) : State := { (upDrv fun d => { d with
      rxState := r, rxAcking := true, drive := .low, alarmAck := some 1500 }) with now := 1500 }
    (s .bitLow).drv.enabled = true ∧ (s .bitLow).drv.rxAcking = true ∧ (s .bitLow).drv.alarmAck = some 1500 ∧
    1500 ≤ (s .bitLow).now ∧ (s .bitLow).drv.txPhase = .idle ∧
    malformedEdge 4101 .high (s .bitLow).drv ∧ malformedEdge 1999 .low (s .bitHigh).drv ∧
    malformedEdge 1600 .high (s .bitHigh).drv :=
  ⟨rfl, rfl, rfl, Nat.le_refl _, rfl, rfl, (by decide : ¬(2000 ≤ 1999 ∧ 1999 ≤ 2800)), trivial⟩

/-- A receiver at the ACK bit of a two-byte frame with this header. -/
def atLastAck (hdr : Byte) (owed full : Bool) : State :=
  upDrv fun d => { d with
    rxState := .bitLow, rxBit := 9, rxEom := true, rxLen := 2, rxBuf := memStore [] 0 [hdr, 0x36#8],
    rxAckOwed := owed, mbFull := full }

theorem witness_FrameDelivered (hdr : Byte) (owed full : Bool) :
    let s := atLastAck hdr owed full
    s.drv.enabled = true ∧ s.drv.txPhase = .idle ∧ s.drv.rxState = .bitLow ∧ s.drv.rxBit = 9 ∧ s.drv.rxEom = true ∧
    classifyLow (1500 - s.drv.rxTFall) = .bit false ∧ 1 ≤ s.drv.rxLen ∧ s.drv.rxLen ≤ 16 ∧
    memFilled s.drv.rxBuf s.drv.rxLen ∧ memGet s.drv.rxBuf 0 = some hdr :=
  ⟨rfl, rfl, rfl, rfl, rfl, rfl, Nat.le_add_left 1 1, Nat.le_add_left 2 14, memFilled_memStore [] [hdr, 0x36#8], rfl⟩
theorem witness_FrameDelivered_clauses :
    let took (s : State) := (s.drv.rxAckOwed = true ∨ headerDest (0x0F#8) = 15#4) ∧ s.drv.mbFull = false
    took (atLastAck 0x0F#8 false false) ∧ ¬took (atLastAck 0x0F#8 false true) ∧
    ¬((atLastAck 0x05#8 false false).drv.rxAckOwed = true ∨ headerDest (0x05#8) = 15#4) := by decide

/-- A send at its bus wait, its alarm due. -/
def waiting (now lastEdge start : Micros) (lvl : Level) : State :=
  { (upDrv fun d => { d with
      txPhase := .wait, alarmTx := some now, tLastEdge := lastEdge, txWaitStart := start, lineLevel := lvl }) with
    now := now }

theorem witness_BusWaitAlarm :
    let s := waiting 116800 100000 100000 .high
    let late := waiting 130000 0 0 .low
    let early := waiting 116799 100000 100000 .high
    s.drv.enabled = true ∧ s.drv.txPhase = .wait ∧ s.drv.alarmTx = some 116800 ∧ 116800 ≤ s.now ∧
    (s.drv.lineLevel = .high ∧ 16800 ≤ s.now - s.drv.tLastEdge) ∧
    (¬(late.drv.lineLevel = .high ∧ 16800 ≤ late.now - late.drv.tLastEdge) ∧
      late.par.sendIdleTimeoutUs ≤ late.now - late.drv.txWaitStart) ∧
    (¬(early.drv.lineLevel = .high ∧ 16800 ≤ early.now - early.drv.tLastEdge) ∧
      ¬early.par.sendIdleTimeoutUs ≤ early.now - early.drv.txWaitStart) := by decide

/-- A send of `40 9E` at this phase, byte and bit, its alarm due. -/
def sending (p : TxPhase) (k j : Nat) : State :=
  { (upDrv fun d => { d with
      txPhase := p, alarmTx := some 8000, txBuf := memStore [] 0 [0x40#8, 0x9E#8], txLen := 2, txByte := k,
      txBit := j, txUsedBus := true }) with now := 8000 }

theorem sending_filled (p : TxPhase) (k j : Nat) :
    memFilled (sending p k j).drv.txBuf (sending p k j).drv.txLen := memFilled_memStore [] [0x40#8, 0x9E#8]

theorem witness_StartBitReleased :
    (sending .startLow 0 0).drv.enabled = true ∧ (sending .startLow 0 0).drv.txPhase = .startLow ∧
    (sending .startLow 0 0).drv.alarmTx = some 8000 ∧ 8000 ≤ (sending .startLow 0 0).now := by decide
theorem witness_CellDrivenAndReleased :
    let s := sending .startHigh 1 8
    s.drv.enabled = true ∧ s.drv.alarmTx = some 8000 ∧ 8000 ≤ s.now ∧
    (s.drv.txPhase = .startHigh ∧ s.drv.txByte < s.drv.txLen ∧ memGet s.drv.txBuf s.drv.txByte = some 0x9E#8) ∧
    (sending .bitLow 0 0).drv.txPhase = .bitLow := by decide
theorem witness_SamplePoint (k j : Nat) (h : k < 2) :
    let s := sending .bitPresample k j
    s.drv.enabled = true ∧ s.drv.txPhase = .bitPresample ∧ s.drv.alarmTx = some 8000 ∧ 8000 ≤ s.now ∧
    s.drv.txByte < s.drv.txLen ∧ memFilled s.drv.txBuf s.drv.txLen ∧ memGet s.drv.txBuf 0 = some 0x40#8 :=
  ⟨rfl, rfl, rfl, Nat.le_refl _, h, sending_filled _ _ _, rfl⟩
theorem witness_SamplePoint_clauses :
    let lost : State := { sending .bitPresample 0 1 with env := { up.env with extLow := true } }
    (sending .bitPresample 0 9).drv.txBit = 9 ∧ (sending .bitPresample 0 8).drv.txBit ≠ 9 ∧
    ¬((sending .bitPresample 0 8).drv.drive = .low ∨ (sending .bitPresample 0 8).env.extLow = true) ∧
    lost.drv.txBit ≠ 9 ∧ (lost.drv.drive = .low ∨ lost.env.extLow = true) := by decide
theorem witness_ArbitrationHandOff :
    let s : State := { sending .bitPresample 1 8 with env := { up.env with extLow := true } }
    s.drv.enabled = true ∧ s.drv.txPhase = .bitPresample ∧ s.drv.alarmTx = some 8000 ∧ 8000 ≤ s.now ∧
    s.drv.txByte < s.drv.txLen ∧ memFilled s.drv.txBuf s.drv.txLen ∧ s.drv.txLen ≤ 16 ∧
    memGet s.drv.txBuf 0 = some 0x40#8 ∧ memGet s.drv.txBuf s.drv.txByte = some 0x9E#8 ∧ s.drv.txBit ≤ 8 ∧
    (s.drv.drive = .low ∨ s.env.extLow = true) :=
  ⟨rfl, rfl, rfl, by decide, by decide, memFilled_memStore [] [0x40#8, 0x9E#8], by decide, rfl, rfl, by decide,
    .inr rfl⟩
/-- V7, third row: `4F 36` lost at the EOM cell of block 1. -/
theorem test_arbitration_hand_off :
    let s : State := { sending .bitPresample 1 8 with
      drv := { (sending .bitPresample 1 8).drv with txBuf := memStore [] 0 [0x4F#8, 0x36#8] }
      env := { up.env with extLow := true } }
    (match takeInterrupt (.alarm .tx) s with
     | .ok u => some (u.drv.rxBuf, u.drv.rxLen, u.drv.rxBit, u.drv.rxAckbit.getLsbD 0, u.drv.rxEom)
     | .error _ => none) = some ([(0, 0x4F#8), (1, 0x36#8)], 2, 8, true, false) := by decide
theorem witness_CellEnd (k j : Nat) (h : k < 2) :
    let s := sending .bitHigh k j
    s.drv.enabled = true ∧ s.drv.txPhase = .bitHigh ∧ s.drv.alarmTx = some 8000 ∧ 8000 ≤ s.now ∧
    s.drv.txByte < s.drv.txLen ∧ memFilled s.drv.txBuf s.drv.txLen :=
  ⟨rfl, rfl, rfl, Nat.le_refl _, h, sending_filled _ _ _⟩
theorem witness_CellEnd_clauses :
    let s (k : Nat) (ok : Bool) (n : Nat) : State :=
      { sending .bitHigh k 9 with drv := { (sending .bitHigh k 9).drv with txBlockOk := ok, txAttempt := n } }
    ((sending .bitHigh 0 8).drv.txBit < 9 ∧ memGet (sending .bitHigh 0 8).drv.txBuf 0 = some 0x40#8) ∧
    ((s 0 true 1).drv.txBit = 9 ∧ (s 0 true 1).drv.txBlockOk = true ∧ (s 0 true 1).drv.txByte + 1 < (s 0 true 1).drv.txLen ∧
      memGet (s 0 true 1).drv.txBuf ((s 0 true 1).drv.txByte + 1) = some 0x9E#8) ∧
    ((s 1 true 1).drv.txBlockOk = true ∧ (s 1 true 1).drv.txByte + 1 = (s 1 true 1).drv.txLen) ∧
    ((s 0 false 4).drv.txBlockOk = false ∧ (s 0 false 4).drv.txAttempt < 5) ∧
    ((s 0 false 5).drv.txBlockOk = false ∧ 5 ≤ (s 0 false 5).drv.txAttempt) := by decide
/-- R114: byte `9E` is sent MSB first, then EOM 1 in the last block and 0 before, and the ACK cell as 1. -/
theorem test_bit_values :
    (List.range 10).map (bitValue 0x9E#8 2 1) =
      [true, false, false, true, true, true, true, false, true, true] ∧ bitValue 0x40#8 2 0 8 = false := by decide
theorem witness_HandlersKeepToTheDriver :
    (∃ t, takeInterrupt .edge { up with edges := [(0, .low)] } = .ok t) ∧ ∃ t, engineStep up = .next t :=
  ⟨⟨_, rfl⟩, _, rfl⟩

/-! ### The line and the environment -/

/-- An input queued at time 50, with the engine waiting for a send. -/
def inputAt (i : EnvInput) (now : Micros) : State :=
  { (upEng fun e => { e with todo := [.sendWait] }) with now := now, env := { Env.reset with script := [(50, i)] } }

theorem witness_LineChangesMakeEdges : ∃ t, step (inputAt (.event (.line true)) 50) = .next t := ⟨_, rfl⟩
theorem test_line_change :
    (stateOf (step (inputAt (.event (.line true)) 50))).map (fun t => (t.edges, lineNow t)) =
      some ([(50, .low)], .low) ∧
    (stateOf (step (inputAt (.event (.line false)) 50))).map (fun t => t.edges) = some [] ∧
    (setDrive .low { up with env := { up.env with extLow := true } }).edges = [] := by decide
theorem witness_EnvironmentStep :
    let s := inputAt (.event .pop) 50
    (pick s).1 = .env ∧ s.env.script = (50, .event .pop) :: [] ∧
    (inputAt (.event (.line true)) 50).env.script = (50, .event (.line true)) :: [] ∧
    (inputAt (.request .audioStream) 50).env.script = (50, .request .audioStream) :: [] ∧
    (inputAt (.foreignWrite .gpio) 50).env.script = (50, .foreignWrite .gpio) :: [] ∧ up.env.script = [] := by decide
theorem test_pop :
    (stateOf (step { inputAt (.event .pop) 50 with keyq := [0x52#8, 0x00#8] })).map (fun t => t.keyq) =
      some [0x00#8] := by decide
theorem test_refused :
    step (inputAt (.request .audioStream) 50) = .refused (.nonGoal .audioStream) ∧
    step (inputAt (.foreignWrite .gpio) 50) = .refused (.notOwner .gpio) := ⟨rfl, rfl⟩

/-! ### The whole machine -/

/-- ConfigurationStable, OutputsOnlyGrow and TimePassesToDeadlines: a step from a state. -/
theorem witness_step : ∃ t, step up = .next t := ⟨_, rfl⟩
theorem witness_ConfigurationStable :
    let s : State := { State.reset with
      env := { Env.reset with cfg := [some ⟨4#8, 0#8, 0#16, 0#32, []⟩], order := [0] } }
    (stateOf (step s)).map (fun t => t.cfg.deviceType) = some 4#8 ∧ s.cfg.deviceType ≠ 4#8 := by decide
theorem witness_TimePassesToDeadlines :
    let s : State := { inputAt (.event .pop) 0 with
      drv := { up.drv with alarmTx := some 20, alarmAck := some 60 } }
    let key : State := { inputAt (.event .pop) 0 with eng := { up.eng with todo := [.keyWait 0#8 30] },
                                                      keyq := [1#8, 2#8] }
    let settle : State := { inputAt (.event .pop) 0 with eng := { up.eng with ctl := .settle, tLoaded := 10 } }
    ((stateOf (step s)).map (fun t => t.now) = some 20 ∧ s.drv.alarmTx = some 20 ∧ s.drv.alarmAck = some 60 ∧
      s.now < 20 ∧ s.now < 60) ∧
    ((stateOf (step key)).map (fun t => t.now) = some 30 ∧ key.eng.todo = .keyWait 0#8 30 :: [] ∧ key.now < 30) ∧
    ((stateOf (step settle)).map (fun t => t.now) = some 10 ∧ settle.eng.todo = [] ∧ settle.eng.ctl = .settle ∧
      settle.now < settle.eng.tLoaded + settle.cfg.edidDelayMs.toNat * 1000) ∧
    (stateOf (step (inputAt (.event .pop) 0))).map (fun t => t.now) = some 50 := by decide
/-- Time's turn with no handler pending and an input ahead, with nothing ahead, and with a handler pending that has
latency left. -/
theorem witness_TimePassesToDeadlines_turn :
    let idle : State := { (upEng fun e => { e with todo := [.sendWait] }) with
      env := { Env.reset with order := [1] } }
    let late : State := { inputAt (.event .pop) 20 with
      drv := { up.drv with alarmTx := some 5 }, armedTx := 20, env := { Env.reset with
        script := [(50, .event .pop)], order := [1, 2] }, par := { up.par with isrLatencyMaxUs := 10 } }
    ((pick (inputAt (.event .pop) 0)).1 = .time ∧ pendingHandlers (inputAt (.event .pop) 0) = []) ∧
    ((pick idle).1 = .time ∧ pendingHandlers idle = [] ∧ nextTime idle = none) ∧
    ((pick late).1 = .time ∧ pendingHandlers late ≠ [] ∧
      (stateOf (step late)).map (fun t => t.now) = some 23) := by decide
/-- R203: with latency left, a pending handler waits by a drawn part of it: here 3 of at most 10, then the handler. An
alarm armed in the past is pending from its arming on. -/
theorem test_latency :
    let s (order : List Nat) : State := { inputAt (.event .pop) 20 with
      drv := { up.drv with alarmTx := some 5 }, armedTx := 20
      env := { Env.reset with script := [(50, .event .pop)], order := order }
      par := { up.par with isrLatencyMaxUs := 10 } }
    (stateOf (step (s [1, 2]))).map (fun t => (t.now, t.drv.alarmTx)) = some (23, some 5) ∧
    (stateOf (step (s [0]))).map (fun t => (t.now, t.drv.alarmTx)) = some (20, none) := by decide
/-- R23: the run ends before a timestamp passes its 64 bits. -/
theorem test_time_base_end :
    step { inputAt (.event .pop) 0 with env := { Env.reset with script := [(2 ^ 64, .event .pop)] } } =
      .refused .timeBaseEnd := rfl

end Sys2Proof.Tests
end

section
/-! PROOF. What an edge does to an idle driver's receiver: one lemma per receive state and polarity
(40_bit_timing_driver R90 to R95, R102, R104), and the obligation on the receive windows. -/

namespace Sys2Proof.Machine

section IdleDriver

variable {s u : State} {t : Micros}

/-- The classification of a low time, by its bounds (40 R95, 00_scope R15). -/
theorem classifyLow_eq (d : Micros) :
    classifyLow d =
      if 200 ≤ d ∧ d ≤ 1000 then .bit true
      else if 1100 ≤ d ∧ d ≤ 1900 then .bit false
      else if 3300 ≤ d ∧ d ≤ 4100 then .start
      else .bad := by
  simp only [classifyLow, oneOk_iff, zeroOk_iff, startLowOk_iff]

/-- With no send in progress an edge is the receiver's alone: no wait's alarm is moved (40 R90). -/
theorem edgeIsr_of_rxDispatch {lvl : Level} (he : s.drv.enabled = true) (hp : s.drv.txPhase = .idle)
    (hu : u.drv.txPhase = .idle)
    (hd : rxDispatch t lvl (clearJustTransmitted lvl (noteLine t lvl s)) = .ok u) : edgeIsr t lvl s = .ok u := by
  rw [edgeIsr_receiving he (by rw [hp]; rfl), hd]
  simp [Except.map, txRearmWait, hu]

/-- A malformed edge is R102's, whichever receive state it comes in (40 R93 to R95, R98, R104). -/
theorem rxDispatch_malformed {lvl : Level} (h : malformedEdge t lvl s.drv) :
    rxDispatch t lvl s = .ok (rxMalformed lvl t s) := by
  cases hs : s.drv.rxState <;> cases lvl <;> simp only [malformedEdge, hs] at h <;> simp only [rxDispatch, hs]
  case startLow.high => rw [rxStartLowRise, if_neg (by rwa [startLowOk_iff])]
  case startHigh.low => rw [rxStartHighFall, if_neg (by rwa [startPeriodOk_iff])]
  case bitLow.high => simp only [rxBitLowRise, h]
  case bitHigh.low => rw [rxBitHighFall, if_neg (by rwa [bitPeriodOk_iff])]

/-- R102 at a rising edge with no ACK driven: the frame is discarded and recorded. -/
theorem rxMalformed_high (ha : s.drv.rxAcking = false) :
    rxMalformed .high t s = record (.malformed t) (updDrv (fun d => { d with rxLen := 0, rxState := .idle }) s) := by
  simp only [rxMalformed, updDrv_drv, ha]
  rfl

/-- R102 at a falling edge with no ACK driven: it is a possible start bit as well. -/
theorem rxMalformed_low (ha : s.drv.rxAcking = false) :
    rxMalformed .low t s =
      record (.malformed t) (updDrv (fun d => { d with rxLen := 0, rxTFall := t, rxState := .startLow }) s) := by
  simp only [rxMalformed, updDrv_drv, ha]
  rfl

section

variable (he : s.drv.enabled = true) (hp : s.drv.txPhase = .idle)
include he hp

/-- A malformed rising edge discards the frame and is recorded (40 R102, R104). -/
theorem edgeIsr_malformed_high (ha : s.drv.rxAcking = false) (h : malformedEdge t .high s.drv) :
    edgeIsr t .high s = .ok { s with
      drv := { s.drv with lineLevel := .high, tLastEdge := t, rxLen := 0, rxState := .idle }
      err := s.err ++ [(s.now, .malformed t)] } := by
  refine edgeIsr_of_rxDispatch he hp hp (Eq.trans (rxDispatch_malformed (by exact h)) ?_)
  rw [rxMalformed_high (by exact ha)]
  rfl

/-- A malformed falling edge also opens a possible start bit (40 R102, R104). -/
theorem edgeIsr_malformed_low (ha : s.drv.rxAcking = false) (h : malformedEdge t .low s.drv) :
    edgeIsr t .low s = .ok { s with
      drv := { s.drv with
        lineLevel := .low, tLastEdge := t, justTransmitted := false, rxLen := 0, rxTFall := t, rxState := .startLow }
      err := s.err ++ [(s.now, .malformed t)] } := by
  refine edgeIsr_of_rxDispatch he hp hp (Eq.trans (rxDispatch_malformed (by exact h)) ?_)
  rw [rxMalformed_low (by exact ha)]
  rfl

/-- R91: a falling edge while idle is a possible start bit. -/
theorem edgeIsr_low_idle (hs : s.drv.rxState = .idle) :
    edgeIsr t .low s = .ok { s with drv := { s.drv with
      lineLevel := .low, tLastEdge := t, justTransmitted := false, rxTFall := t, rxLen := 0,
      rxState := .startLow } } := by
  refine edgeIsr_of_rxDispatch he hp hp ?_
  simp only [rxDispatch, clearJustTransmitted, noteLine, updDrv_drv, hs]
  rfl

/-- R92: a rising edge while idle is ignored, but for the line's level and time. -/
theorem edgeIsr_high_idle (hs : s.drv.rxState = .idle) :
    edgeIsr t .high s = .ok { s with drv := { s.drv with lineLevel := .high, tLastEdge := t } } := by
  refine edgeIsr_of_rxDispatch (u := noteLine t .high s) he hp hp ?_
  simp only [rxDispatch, clearJustTransmitted, noteLine, updDrv_drv, hs, rxIdleRise]

/-- R93: a start bit's low time inside its window is accepted. -/
theorem edgeIsr_high_startLow (hs : s.drv.rxState = .startLow)
    (hw : 3300 ≤ t - s.drv.rxTFall ∧ t - s.drv.rxTFall ≤ 4100) :
    edgeIsr t .high s =
      .ok { s with drv := { s.drv with lineLevel := .high, tLastEdge := t, rxState := .startHigh } } := by
  refine edgeIsr_of_rxDispatch he hp hp ?_
  simp only [rxDispatch, clearJustTransmitted, noteLine, updDrv_drv, hs, rxStartLowRise,
    if_pos ((startLowOk_iff _).2 hw)]
  rfl

/-- R94: a start bit's period inside its window is accepted, and the first data bit begins. -/
theorem edgeIsr_low_startHigh (hs : s.drv.rxState = .startHigh)
    (hw : 4100 ≤ t - s.drv.rxTFall ∧ t - s.drv.rxTFall ≤ 4900) :
    edgeIsr t .low s = .ok { s with drv := { s.drv with
      lineLevel := .low, tLastEdge := t, justTransmitted := false, rxTFall := t, rxLen := 0, rxBit := 0,
      rxShift := 0#8, rxEom := false, rxAckOwed := false, rxState := .bitLow } } := by
  refine edgeIsr_of_rxDispatch he hp hp ?_
  simp only [rxDispatch, clearJustTransmitted, noteLine, updDrv_drv, hs, rxStartHighFall,
    if_pos ((startPeriodOk_iff _).2 hw)]
  rfl

/-- R95: a low time of a start bit's length inside a frame abandons the frame. -/
theorem edgeIsr_high_bitLow_start (hs : s.drv.rxState = .bitLow) (hc : classifyLow (t - s.drv.rxTFall) = .start) :
    edgeIsr t .high s =
      .ok { s with drv := { s.drv with lineLevel := .high, tLastEdge := t, rxLen := 0, rxState := .startHigh } } := by
  refine edgeIsr_of_rxDispatch he hp hp ?_
  simp only [rxDispatch, clearJustTransmitted, noteLine, updDrv_drv, hs, rxBitLowRise, hc]
  rfl

end

end IdleDriver

/-- Settles O44: each edge is the one its receive state and polarity name; a start bit outside its windows is a
malformed edge. -/
theorem receiveWindows : Obligations.ReceiveWindows := by
  refine ⟨classifyLow_eq, fun t s he hp hs => edgeIsr_low_idle he hp hs, fun t s he hp ha _ => ⟨fun hs => ?_,
    fun hs => ?_, edgeIsr_high_bitLow_start he hp, edgeIsr_high_idle he hp, edgeIsr_malformed_high he hp ha,
    edgeIsr_malformed_low he hp ha⟩⟩
  · split
    · exact edgeIsr_high_startLow he hp hs ‹_›
    · exact edgeIsr_malformed_high he hp ha (by simpa only [malformedEdge, hs])
  · split
    · exact edgeIsr_low_startHigh he hp hs ‹_›
    · exact edgeIsr_malformed_low he hp ha (by simpa only [malformedEdge, hs])

end Sys2Proof.Machine
end

section
/-! PROOF. What a handler writes, from any state: the driver, the observation trace, the pending edges and the times of
arming, and of the driver neither its enable, nor the published address, nor the request's bytes (60_exceptions R205,
20_memory R57). The laws of Driver and Transmit say the same only where no register is out of range. -/

namespace Sys2Proof.Machine

/-- The frame of a handler that goes from `s` to `t`; the observation trace only grows (60_exceptions R193, R205). -/
structure HandlerFrame (s t : State) : Prop where
  now : t.now = s.now
  eng : t.eng = s.eng
  cfg : t.cfg = s.cfg
  keyq : t.keyq = s.keyq
  ind : t.ind = s.ind
  env : t.env = s.env
  par : t.par = s.par
  err : s.err <+: t.err
  enabled : t.drv.enabled = s.drv.enabled
  selfLa : t.drv.selfLa = s.drv.selfLa
  txBuf : t.drv.txBuf = s.drv.txBuf
  txLen : t.drv.txLen = s.drv.txLen

namespace HandlerFrame

variable {s t u : State}

theorem refl (s : State) : HandlerFrame s s := ⟨rfl, rfl, rfl, rfl, rfl, rfl, rfl, List.prefix_rfl, rfl, rfl, rfl, rfl⟩

theorem trans (h : HandlerFrame s t) (k : HandlerFrame t u) : HandlerFrame s u :=
  ⟨k.now.trans h.now, k.eng.trans h.eng, k.cfg.trans h.cfg, k.keyq.trans h.keyq, k.ind.trans h.ind,
   k.env.trans h.env, k.par.trans h.par, h.err.trans k.err, k.enabled.trans h.enabled, k.selfLa.trans h.selfLa,
   k.txBuf.trans h.txBuf, k.txLen.trans h.txLen⟩

/-- A write of the driver alone, which leaves its enable, its address and the request's bytes. -/
theorem of_drv (h : t = { s with drv := t.drv } := by rfl) (h1 : t.drv.enabled = s.drv.enabled := by rfl)
    (h2 : t.drv.selfLa = s.drv.selfLa := by rfl) (h3 : t.drv.txBuf = s.drv.txBuf := by rfl)
    (h4 : t.drv.txLen = s.drv.txLen := by rfl) : HandlerFrame s t := by
  generalize t.drv = d at h h1 h2 h3 h4
  subst h
  exact ⟨rfl, rfl, rfl, rfl, rfl, rfl, rfl, List.prefix_rfl, h1, h2, h3, h4⟩

end HandlerFrame

/-- A mapped answer that is no fault comes from one. -/
theorem exists_of_map_ok {f : State → State} {r : Except Fault State} {u : State} (h : r.map f = .ok u) :
    ∃ v, r = .ok v ∧ f v = u := by
  cases r with
  | error _ => cases h
  | ok v => exact ⟨v, rfl, by cases h; rfl⟩

section HandlerFrames

variable {s u : State} {t : Micros} {lvl : Level} {b : Bool}

/-! ### The receive path (40_bit_timing_driver R90 to R104) -/

theorem rxDropAck_frame (s : State) : HandlerFrame s (rxDropAck s) := by
  constructor <;> simp [rxDropAck]

theorem rxMalformed_frame (lvl : Level) (t : Micros) (s : State) : HandlerFrame s (rxMalformed lvl t s) := by
  unfold rxMalformed rxDropAck
  cases lvl <;> dsimp only <;> split <;> constructor <;> simp

theorem rxStartLowRise_frame (t : Micros) (s : State) : HandlerFrame s (rxStartLowRise t s) := by
  unfold rxStartLowRise
  split
  · exact .of_drv
  · exact rxMalformed_frame ..

theorem rxStartHighFall_frame (t : Micros) (s : State) : HandlerFrame s (rxStartHighFall t s) := by
  unfold rxStartHighFall
  split
  · exact .of_drv
  · exact rxMalformed_frame ..

theorem rxByteComplete_frame (h : rxByteComplete s = .ok u) : HandlerFrame s u := by
  unfold rxByteComplete rxAckDecision at h
  split at h
  · cases h
  · dsimp only at h
    split at h
    · split at h
      · cases h
      · cases h
        exact .of_drv
    · cases h
      exact .of_drv

theorem rxDataBit_frame (h : rxDataBit b s = .ok u) : HandlerFrame s u := by
  have hs : HandlerFrame s (rxShiftIn b s) := .of_drv
  unfold rxDataBit at h
  split at h
  · obtain ⟨v, hv, rfl⟩ := exists_of_map_ok h
    exact (hs.trans (rxByteComplete_frame hv)).trans .of_drv
  · cases h
    exact .of_drv

theorem rxDeliver_frame (h : rxDeliver s = .ok u) : HandlerFrame s u := by
  unfold rxDeliver at h
  split at h
  · cases h
    exact .refl s
  · split at h
    · cases h
    · cases h
      exact .of_drv

theorem rxFrameComplete_frame (h : rxFrameComplete s = .ok u) : HandlerFrame s u := by
  unfold rxFrameComplete at h
  split at h
  · cases h
  · dsimp only at h
    split at h
    · cases h
    · rename_i v hv
      cases h
      have hi : HandlerFrame s (updDrv (fun d => { d with rxState := .idle }) s) := .of_drv
      refine HandlerFrame.trans ?_ .of_drv
      split at hv
      · exact hi.trans (rxDeliver_frame hv)
      · cases hv
        exact hi

theorem rxAckBit_frame (h : rxAckBit b s = .ok u) : HandlerFrame s u := by
  unfold rxAckBit at h
  split at h
  · cases h
  · dsimp only at h
    split at h
    · exact HandlerFrame.trans .of_drv (rxFrameComplete_frame h)
    · cases h
      exact .of_drv

theorem rxBitLowRise_frame (h : rxBitLowRise t s = .ok u) : HandlerFrame s u := by
  unfold rxBitLowRise rxTakeBit at h
  split at h
  · split at h
    · exact rxDataBit_frame h
    · split at h
      · cases h
        exact .of_drv
      · exact rxAckBit_frame h
  · cases h
    exact .of_drv
  · cases h
    exact rxMalformed_frame ..

theorem rxEnterCell_frame (t : Micros) (s : State) : HandlerFrame s (rxEnterCell t s) := by
  unfold rxEnterCell rxDriveAck
  dsimp only
  split
  · constructor <;> simp
  · exact .of_drv

theorem rxBitHighFall_frame (t : Micros) (s : State) : HandlerFrame s (rxBitHighFall t s) := by
  unfold rxBitHighFall
  split
  · split
    · split
      · constructor <;> simp [rxOverlong]
      · exact HandlerFrame.trans .of_drv (rxEnterCell_frame ..)
    · exact HandlerFrame.trans .of_drv (rxEnterCell_frame ..)
  · exact rxMalformed_frame ..

theorem rxDispatch_frame (h : rxDispatch t lvl s = .ok u) : HandlerFrame s u := by
  unfold rxDispatch at h
  split at h
  · cases h
    exact .of_drv
  · cases h
    exact .refl s
  · cases h
    exact rxStartLowRise_frame ..
  · cases h
    exact rxStartHighFall_frame ..
  · exact rxBitLowRise_frame h
  · cases h
    exact rxBitHighFall_frame ..
  all_goals
    cases h
    exact rxMalformed_frame ..

/-- EDGE_ISR (R90). -/
theorem edgeIsr_frame (h : edgeIsr t lvl s = .ok u) : HandlerFrame s u := by
  have hl : HandlerFrame s (noteLine t lvl s) := .of_drv
  have hc : HandlerFrame s (clearJustTransmitted lvl (noteLine t lvl s)) := by cases lvl <;> exact .of_drv
  unfold edgeIsr at h
  split at h
  · split at h
    · cases h
      exact hl
    · obtain ⟨v, hv, rfl⟩ := exists_of_map_ok h
      refine (hc.trans (rxDispatch_frame hv)).trans ?_
      unfold txRearmWait
      split
      · constructor <;> simp
      · exact .refl v
  · cases h
    exact .refl s

/-! ### The transmit path (40_bit_timing_driver R110 to R120) -/

theorem txFinish_frame (s : State) : HandlerFrame s (txFinish s) := by constructor <;> simp [txFinish]

theorem txWaitAlarm_frame (t : Micros) (s : State) : HandlerFrame s (txWaitAlarm t s) := by
  unfold txWaitAlarm
  split
  · constructor <;> simp [txStartAttempt]
  · split
    · refine HandlerFrame.trans ?_ (txFinish_frame _)
      constructor <;> simp
    · constructor <;> simp

theorem txBitRelease_frame (s : State) : HandlerFrame s (txBitRelease s) := by
  unfold txBitRelease
  split <;> constructor <;> simp

theorem txBeginCell_frame (h : txBeginCell t s = .ok u) : HandlerFrame s u := by
  unfold txBeginCell at h
  split at h
  · cases h
  · cases h
    constructor <;> simp [txDriveCell]

theorem txAwaitCellEnd_frame (s : State) : HandlerFrame s (txAwaitCellEnd s) := by
  constructor <;> simp [txAwaitCellEnd]

theorem txArbLost_frame (h : txArbLost s = .ok u) : HandlerFrame s u := by
  unfold txArbLost at h
  split at h <;> cases h
  constructor <;> simp [txEndLost, txHandOff]

theorem txSample_frame (h : txSample s = .ok u) : HandlerFrame s u := by
  unfold txSample at h
  split at h
  · split at h
    · cases h
    · cases h
      exact HandlerFrame.trans .of_drv (txAwaitCellEnd_frame _)
  · split at h
    · exact txArbLost_frame h
    · cases h
      exact txAwaitCellEnd_frame s

theorem txAttemptFailed_frame (s : State) : HandlerFrame s (txAttemptFailed s) := by
  unfold txAttemptFailed
  dsimp only
  split
  · constructor <;> simp
  · refine HandlerFrame.trans ?_ (txFinish_frame _)
    constructor <;> simp

theorem txCellEnd_frame (h : txCellEnd t s = .ok u) : HandlerFrame s u := by
  unfold txCellEnd at h
  split at h
  · exact HandlerFrame.trans .of_drv (txBeginCell_frame h)
  · split at h
    · cases h
      exact txAttemptFailed_frame s
    · split at h
      · cases h
        exact HandlerFrame.trans .of_drv (txFinish_frame _)
      · exact HandlerFrame.trans .of_drv (txBeginCell_frame h)

theorem txAlarm_frame (h : txAlarm t s = .ok u) : HandlerFrame s u := by
  unfold txAlarm at h
  split at h
  · cases h
    exact .refl s
  · cases h
    exact txWaitAlarm_frame t s
  · cases h
    constructor <;> simp [txStartRelease]
  · exact txBeginCell_frame h
  · cases h
    exact txBitRelease_frame s
  · exact txSample_frame h
  · exact txCellEnd_frame h

/-- ALARM_ISR (60_exceptions R197). -/
theorem alarmIsr_frame {ch : Channel} (h : alarmIsr ch t s = .ok u) : HandlerFrame s u := by
  unfold alarmIsr at h
  split at h
  · cases ch with
    | tx => exact txAlarm_frame h
    | ack =>
      cases h
      split
      · exact rxDropAck_frame s
      · exact .refl s
  · cases h
    exact .refl s

/-! ### Taking an interrupt (60_exceptions R200, R201) -/

theorem takeInterrupt_frame {src : Source} (h : takeInterrupt src s = .ok u) : HandlerFrame s u := by
  match src with
  | .edge =>
    rw [takeInterrupt_edge] at h
    split at h
    · cases h
      exact .refl s
    · exact HandlerFrame.trans (by constructor <;> simp) (edgeIsr_frame h)
  | .alarm .tx =>
    rw [takeInterrupt_tx] at h
    split at h
    · exact HandlerFrame.trans .of_drv (alarmIsr_frame h)
    · cases h
      exact .refl s
  | .alarm .ack =>
    rw [takeInterrupt_ack] at h
    split at h
    · exact HandlerFrame.trans .of_drv (alarmIsr_frame h)
    · cases h
      exact .refl s

end HandlerFrames

end Sys2Proof.Machine
end

section
/-! PROOF. What every step of the machine keeps: the parameters, the configuration outside its loading, the key queue
outside a removal, and every entry of the outputs (20_memory R57, 60_exceptions R193, R205). -/

namespace Sys2Proof.Machine

/-- From `s` to `t` the parameters and the configuration stay, and the key queue, the indicator's calls and the
observation trace only gain entries at the end. -/
structure Grows (s t : State) : Prop where
  par : t.par = s.par
  cfg : t.cfg = s.cfg
  keyq : s.keyq <+: t.keyq
  ind : s.ind <+: t.ind
  err : s.err <+: t.err

namespace Grows

variable {s t u : State}

/-- Nothing that `Grows` speaks of has changed. -/
theorem of_same (h1 : t.par = s.par := by rfl) (h2 : t.cfg = s.cfg := by rfl) (h3 : t.keyq = s.keyq := by rfl)
    (h4 : t.ind = s.ind := by rfl) (h5 : t.err = s.err := by rfl) : Grows s t :=
  ⟨h1, h2, h3 ▸ List.prefix_rfl, h4 ▸ List.prefix_rfl, h5 ▸ List.prefix_rfl⟩

theorem refl (s : State) : Grows s s := .of_same

theorem trans (h : Grows s t) (k : Grows t u) : Grows s u :=
  ⟨k.par.trans h.par, k.cfg.trans h.cfg, h.keyq.trans k.keyq, h.ind.trans k.ind, h.err.trans k.err⟩

end Grows

theorem HandlerFrame.grows {s t : State} (h : HandlerFrame s t) : Grows s t :=
  ⟨h.par, h.cfg, h.keyq ▸ List.prefix_rfl, h.ind ▸ List.prefix_rfl, h.err⟩

section Engine

variable {s t u : State}

/-! ### The engine's operations -/

theorem record_grows (e : Err) (s : State) : Grows s (record e s) := by constructor <;> simp

theorem indicate_grows (i : Indicator) (s : State) : Grows s (indicate i s) := by constructor <;> simp

theorem obtainPa_grows (s : State) : Grows s (obtainPa s) := by
  unfold obtainPa derivePa
  split
  · exact .of_same
  · constructor <;> simp

theorem allocateAt_grows (i : Nat) (s : State) : Grows s (allocateAt i s).2 := by
  unfold allocateAt
  dsimp only
  split <;> exact .of_same

theorem allocateBegin_grows (s : State) : Grows s (allocateBegin s).2 := by
  rw [allocateBegin_eq]
  split
  · exact .of_same
  · split <;> exact .of_same

theorem codecSend_grows {bytes : List Byte} {acts : List Act} (h : codecSend bytes s = .ok (acts, u)) : Grows s u := by
  unfold codecSend sendFrame at h
  split at h
  · split at h
    · cases h
    · rename_i v hv
      cases h
      split at hv <;> cases hv
      exact .of_same
  · cases h
    exact (record_grows _ s).trans .of_same

/-- `tx` is `codec_send`, with its loop test to come last (43 R147). -/
theorem txCall_ok {bytes : List Byte} {n : Nat} {p : List Act × State} (h : txCall bytes n s = .ok p) :
    ∃ acts, codecSend bytes s = .ok (acts, p.2) ∧ p.1 = acts ++ [.txLoop bytes n] := by
  unfold txCall at h
  split at h
  · cases h
  · cases h
    exact ⟨_, ‹_›, rfl⟩

/-! ### The actions of a rule -/

/-- An action's answer, done or stopped, only grows the state. -/
def OutGrows (s : State) : ActOut → Prop
  | .done u => Grows s u
  | .stop u _ => Grows s u
  | .fault _ => True

theorem actOut_grows {p : List Act × State} (h : Grows s p.2) : OutGrows s (actOut p) := by
  obtain ⟨acts, u⟩ := p
  cases acts <;> exact h

theorem keyPush_grows (b : Byte) (deadline : Micros) (s : State) : OutGrows s (keyPush b deadline s) := by
  unfold keyPush
  split
  · show Grows s (pushKey b s)
    constructor <;> simp
  · split
    · exact record_grows _ s
    · exact Grows.refl s

theorem updateSelection_grows (before : Bool) (s : State) : Grows s (updateSelection before s) := by
  unfold updateSelection
  split
  · exact indicate_grows _ s
  · split
    · exact indicate_grows _ s
    · exact .refl s

theorem runAct_grows (a : Act) (s : State) : OutGrows s (runAct a s) := by
  cases a with
  | instr _ | send _ | received _ => exact Grows.refl s
  | setMenu _ | resetLost | claim _ | enterLoop | enable => exact Grows.of_same
  | indicator _ | indicatorSelected => exact indicate_grows _ s
  | enqueueKey _ | keyWait _ _ => exact keyPush_grows ..
  | updateSelection before => exact updateSelection_grows before s
  | derivePa => exact obtainPa_grows s
  | allocate => exact actOut_grows (allocateBegin_grows s)
  | sendWait =>
    unfold runAct sendWaitStep waitFlag
    cases s.drv.evTx <;> exact Grows.of_same
  | recvWait =>
    unfold runAct recvWaitStep waitFlag
    cases s.drv.evRx <;> exact Grows.of_same
  | announceIf new =>
    unfold runAct
    dsimp only
    split <;> exact Grows.refl s
  | txLoop bytes calls =>
    unfold runAct
    dsimp only
    split
    · split
      · trivial
      · rename_i p hp
        obtain ⟨acts, hc, -⟩ := txCall_ok hp
        exact actOut_grows (codecSend_grows hc)
    · exact Grows.refl s
  | verdict c i =>
    unfold runAct probeVerdict
    dsimp only
    split
    · exact actOut_grows (allocateAt_grows ..)
    · exact Grows.of_same

theorem runFrom_grows_of {a : Act} {as : List Act} (ih : ∀ {u}, runActs as u = .next t → Grows u t)
    (h : runFrom a as s = .next t) : Grows s t := by
  have k := runAct_grows a s
  cases hr : runAct a s with
  | done u =>
    rw [hr] at k
    rw [runFrom_done hr] at h
    exact Grows.trans k (ih h)
  | stop u more =>
    rw [hr] at k
    rw [runFrom_stop hr] at h
    cases h
    exact Grows.trans k .of_same
  | fault f =>
    rw [runFrom, hr] at h
    cases h

theorem runActs_grows {acts : List Act} (h : runActs acts s = .next t) : Grows s t := by
  induction acts generalizing s with
  | nil =>
    cases h
    exact .refl t
  | cons a as ih =>
    cases hs : a.startsStep with
    | true =>
      rw [runActs_starts as s hs] at h
      cases h
      exact .of_same
    | false =>
      rw [runActs_runs as s hs] at h
      exact runFrom_grows_of ih h

theorem runFrom_grows {a : Act} {as : List Act} (h : runFrom a as s = .next t) : Grows s t :=
  runFrom_grows_of runActs_grows h

/-! ### What an instruction does (43_protocol_engine R145, section 3) -/

/-- A received row's answer: it writes the engine's registers and records at most, then runs actions of its rule. -/
def RunsRule (s t : State) : Prop :=
  ∃ (acts : List Act) (eng : Eng) (err : List (Micros × Err)), s.err <+: err ∧
    runActs acts { s with eng := eng, err := err } = .next t

theorem RunsRule.refl (s : State) : RunsRule s s := ⟨[], s.eng, s.err, List.prefix_rfl, rfl⟩

theorem RunsRule.of_gated {mode : GateMode} {k : Nat} {init dest : La} {ops : List Byte} {rule : State → Result}
    (hr : rule s = .next t → RunsRule s t) (h : gated mode k init dest ops s rule = .next t) : RunsRule s t := by
  unfold gated at h
  split at h
  · exact hr h
  · cases h
    exact .refl s

/-- A rule that ends at once, with the engine's registers written at most. -/
theorem RunsRule.of_next {eng : Eng} (h : (.next { s with eng := eng } : Result) = .next t) : RunsRule s t := by
  cases h
  exact ⟨[], eng, s.err, List.prefix_rfl, rfl⟩

/-- A rule that runs actions, with the engine's registers written at most. -/
theorem RunsRule.of_runActs {acts : List Act} {eng : Eng} (h : runActs acts { s with eng := eng } = .next t) :
    RunsRule s t := ⟨acts, eng, s.err, List.prefix_rfl, h⟩

/-- A received row runs its rule, or, ignored, changes nothing. -/
theorem exec_received {i : Instr} (hd : i.direction = .rx) (h : exec i s = .next t) : RunsRule s t := by
  cases i <;> cases hd
  case poll =>
    cases h
    exact .refl s
  all_goals
    simp only [exec, execFeatureAbort, execImageViewOn, execTextViewOn, execStandby, execUserControlPressed,
      execUserControlReleased, execGiveOsdName, execSystemAudioModeRequest, execGiveAudioStatus,
      execSetSystemAudioMode, execGiveSystemAudioModeStatus, execSystemAudioModeStatus, execRoutingChange,
      execActiveSource, execGivePhysicalAddress, execReportPhysicalAddress, execRequestActiveSource,
      execSetStreamPath, execDeviceVendorId, execGiveDeviceVendorId, execMenuRequest, execGiveDevicePowerStatus,
      execGetCecVersion, execAbort, execUnrecognized] at h
    refine .of_gated (fun h => ?_) h
  case featureAbort | imageViewOn | textViewOn | systemAudioModeStatus => exact .of_next h
  case abort | unrecognized => exact ⟨_, _, _, List.prefix_append .., h⟩
  case setSystemAudioMode =>
    split at h
    · exact .of_next h
    · exact .of_next h
  case userControlPressed =>
    split at h
    · exact .of_next h
    · split at h
      · exact .of_next h
      · exact .of_runActs h
  case setStreamPath =>
    split at h
    · exact .of_next h
    · split at h
      · exact .of_runActs h
      · exact .of_next h
  case routingChange | activeSource | menuRequest =>
    split at h
    · exact .of_next h
    · exact .of_runActs h
  case requestActiveSource =>
    split at h
    · exact .of_runActs h
    · exact .of_next h
  all_goals exact .of_runActs h

theorem ofEngine_next {r : Except Fault (List Act × State)} (h : ofEngine r = .next t) :
    ∃ acts u, r = .ok (acts, u) ∧ t = pushActs acts u := by
  unfold ofEngine at h
  split at h <;> cases h
  exact ⟨_, _, rfl, rfl⟩

/-- A transmitted row hands its frame to the codec, or is withheld and says so. -/
theorem exec_sends {i : Instr} (hd : i.direction = .tx) (h : exec i s = .next t) :
    t = record .noPa s ∨ ∃ bytes acts more u, codecSend bytes s = .ok (acts, u) ∧ t = pushActs (acts ++ more) u := by
  by_cases hw : withheld i s
  · cases i with
    | reportPhysicalAddressTx =>
      simp only [exec, execReportPhysicalAddressTx, if_pos (show s.eng.selfPa = 0#16 from hw)] at h
      cases h
      exact .inl rfl
    | _ => exact hw.elim
  · refine .inr ?_
    obtain ⟨c, -, e⟩ | ⟨-, e⟩ := exec_transmitted hd hw <;> obtain ⟨acts, u, hu, rfl⟩ := ofEngine_next (e ▸ h)
    · exact ⟨_, acts, [], u, hu, by rw [List.append_nil]⟩
    · obtain ⟨acts', hc, rfl⟩ := txCall_ok hu
      exact ⟨_, acts', _, u, hc, rfl⟩

theorem exec_grows {i : Instr} (h : exec i s = .next t) : Grows s t := by
  cases hd : i.direction with
  | rx =>
    obtain ⟨acts, eng, err, he, hr⟩ := exec_received hd h
    refine Grows.trans ?_ (runActs_grows hr)
    exact ⟨rfl, rfl, List.prefix_rfl, List.prefix_rfl, he⟩
  | tx =>
    obtain rfl | ⟨bytes, acts, more, u, hc, rfl⟩ := exec_sends hd h
    · exact record_grows _ s
    · exact (codecSend_grows hc).trans .of_same

/-! ### The engine's step (43_protocol_engine R142 to R144) -/

theorem engReceived_grows {n : Nat} (h : engReceived n s = .next t) : Grows s t := by
  unfold engReceived engDispatch at h
  split at h
  · cases h
  · split at h
    · have ha : Grows s (acceptFrame n s) := .of_same
      split at h
      · cases h
      · split at h
        · exact ha.trans (exec_grows h)
        · cases h
          exact ha
    · cases h
      exact (record_grows _ s).trans .of_same

theorem engReceive_grows (h : engReceive s = .next t) : Grows s t := by
  unfold engReceive copyOut at h
  split at h
  · split at h
    · cases h
    · rename_i hc
      split at hc <;> cases hc
      cases h
      exact .of_same
  · cases h
    exact .of_same

theorem drvPrepare_grows (s : State) : Grows s (drvPrepare s) := by
  constructor <;> simp [drvPrepare]

/-- A failed load is recorded and shown, and writes no configuration (43 R142). -/
theorem loadFailed_grows (s : State) : Grows s (setCtl .fault (indicate .fault (record .configFail s))) :=
  ((record_grows _ s).trans (indicate_grows _ _)).trans .of_same

/-- The load of the configuration writes it, and only grows the rest (43 R142). -/
theorem engLoad_grows (s : State) : Grows { s with cfg := (engLoad s).cfg } (engLoad s) := by
  have hd : Grows s (drawCfg s).2 := by constructor <;> simp
  have but : ∀ {u : State}, Grows s u → Grows { s with cfg := u.cfg } u := fun g =>
    ⟨g.par, rfl, g.keyq, g.ind, g.err⟩
  unfold engLoad
  split
  · rename_i s1 e
    rw [e] at hd
    exact but (hd.trans (loadFailed_grows s1))
  · rename_i r s1 e
    rw [e] at hd
    split
    · exact but (hd.trans (loadFailed_grows s1))
    · exact ⟨hd.par, rfl, hd.keyq, hd.ind, hd.err⟩

/-- An engine step only grows the state, but for the load, which writes the configuration. -/
theorem engineStep_grows (h : engineStep s = .next t) :
    Grows s t ∨ (s.eng.todo = [] ∧ s.eng.ctl = .load ∧ Grows { s with cfg := t.cfg } t) := by
  unfold engineStep at h
  split at h
  · exact .inl (Grows.trans .of_same (exec_grows h))
  · exact .inl (Grows.trans .of_same (engReceived_grows h))
  · exact .inl (Grows.trans .of_same (runFrom_grows h))
  · rename_i ht
    split at h
    · cases h
      exact .inr ⟨ht, ‹_›, engLoad_grows s⟩
    · cases h
      exact .inl (.refl s)
    · cases h
      exact .inl .of_same
    · cases h
      exact .inl ((drvPrepare_grows s).trans .of_same)
    · cases h
      exact .inl ((obtainPa_grows s).trans .of_same)
    · cases h
      exact .inl ((allocateBegin_grows s).trans .of_same)
    · exact .inl (engReceive_grows h)
    · cases h
      exact .inl .of_same

end Engine

section Machine

variable {s t : State}

/-! ### The other agents, and the machine's step -/

/-- A change of the others' drive makes an edge pending at most (10_state R43). -/
theorem setExtLow_grows (low : Bool) (s : State) : Grows s (setExtLow low s) := by constructor <;> simp

/-- The environment's step only grows the state, but for a removal, which takes the key queue's head. -/
theorem envStep_grows (h : envStep s = .next t) :
    Grows s t ∨ (t.keyq = s.keyq.tail ∧ Grows { s with keyq := t.keyq } t) := by
  unfold envStep at h
  split at h
  · cases h
    left
    constructor <;> simp
  · rename_i e rest _
    cases h
    cases e with
    | line low => exact .inl (Grows.trans .of_same (setExtLow_grows low _))
    | pop => exact .inr ⟨rfl, .of_same⟩
  · cases h
  · cases h

theorem advance_grows (s : State) : Grows s (advance s) := by
  unfold advance
  split
  · exact .refl s
  · split
    · exact .of_same
    · constructor <;> simp

/-- The draw that picks the agent changes what is left of the draws only (60_exceptions R199). -/
theorem pick_eq (s : State) : (pick s).2 = { s with env := (pick s).2.env } := by
  unfold pick
  split
  · rfl
  · rfl
  · unfold drawOrder
    split <;> rfl

theorem ofExcept_next {r : Except Fault State} (h : ofExcept r = .next t) : r = .ok t := by
  unfold ofExcept at h
  split at h <;> cases h
  rfl

/-- How a step changes what `Grows` speaks of: it only grows it, but for the load of the configuration and for the
removal of the key queue's head. -/
def StepGrows (s t : State) : Prop :=
  Grows s t ∨
  (s.eng.todo = [] ∧ s.eng.ctl = .load ∧ Grows { s with cfg := t.cfg } t) ∨
  (t.keyq = s.keyq.tail ∧ Grows { s with keyq := t.keyq } t)

theorem runAgent_grows {a : Agent} (h : runAgent a s = .next t) : StepGrows s t := by
  cases a with
  | engine => exact (engineStep_grows h).imp id .inl
  | env => exact (envStep_grows h).imp id .inr
  | edge | alarmTx | alarmAck => exact .inl (takeInterrupt_frame (ofExcept_next h)).grows
  | time =>
    cases h
    exact .inl (advance_grows s)

theorem step_grows (h : step s = .next t) : StepGrows s t := by
  have hr := (step_next h).1
  rw [pick_eq s] at hr
  obtain g | ⟨h1, h2, g⟩ | ⟨h1, g⟩ := runAgent_grows hr
  · exact .inl (Grows.trans .of_same g)
  · exact .inr (.inl ⟨h1, h2, Grows.trans .of_same g⟩)
  · exact .inr (.inr ⟨h1, Grows.trans .of_same g⟩)

end Machine

/-- Settles O58: of all steps only the load changes the configuration, and none the parameters. -/
theorem configurationStable : Obligations.ConfigurationStable := by
  intro s t h
  obtain g | ⟨ht, hc, g⟩ | ⟨-, g⟩ := step_grows h
  · exact ⟨g.par, fun hne => absurd g.cfg hne⟩
  · exact ⟨g.par, fun _ => ⟨ht, hc⟩⟩
  · exact ⟨g.par, fun hne => absurd g.cfg hne⟩

end Sys2Proof.Machine
end

section
/-! PROOF. The environment's step, input by input, and the key queue through every step of the machine (10_state R41,
R43, 00_scope R8, 20_memory R57). -/

namespace Sys2Proof.Machine

section Environment

variable {s : State} {τ : Micros} {rest : List (Micros × EnvInput)}

/-- An event takes effect, and is taken from the queue of inputs (00_scope R11). -/
theorem envStep_event {e : EnvEvent} (h : s.env.script = (τ, .event e) :: rest) :
    envStep s = .next (envEvent e { s with env := { s.env with script := rest } }) := by
  simp only [envStep, h]
  rfl

/-- A request for a non-goal is refused by name (00_scope R8). -/
theorem envStep_request {g : NonGoal} (h : s.env.script = (τ, .request g) :: rest) :
    envStep s = .refused (.nonGoal g) := by
  simp only [envStep, h]

/-- A write of an owned field is refused by name (20_memory R57). -/
theorem envStep_foreignWrite {o : Owned} (h : s.env.script = (τ, .foreignWrite o) :: rest) :
    envStep s = .refused (.notOwner o) := by
  simp only [envStep, h]

/-- With no input queued the coming ones are drawn (log entry 2). -/
theorem envStep_draw (h : s.env.script = []) :
    envStep s = .next { s with env := { s.env with
      script := (Config.envDraw s.env.draws).map fun e => (e.1, .event e.2), draws := s.env.draws + 1 } } := by
  simp only [envStep, refillScript, h]
  rfl

/-- The environment is ready when its next input is due, or when none is queued. -/
theorem env_mem_ready : Agent.env ∈ ready s ↔ envReady s = true ∨ s.env.script = [] := by
  simp only [ready, pendingHandlers, List.mem_append]
  constructor <;> intro h
  · by_contra hn
    simp_all
  · simp [h]

/-- It takes an input only when the input's time has come (10_state R43). -/
theorem due_of_pick_env {i : EnvInput} (hp : (pick s).1 = .env) (h : s.env.script = (τ, i) :: rest) : τ ≤ s.now := by
  obtain hr | hn := env_mem_ready.1 (hp ▸ pick_mem s)
  · simpa [envReady, scriptTime, alarmDue, h] using hr
  · rw [hn] at h
    cases h

/-- When it is the environment's turn the step is the environment's. -/
theorem step_of_pick_env (h : (pick s).1 = .env) : step s = withinRun (envStep (pick s).2) := by
  simp only [step, stepOnce, h, runAgent]

end Environment

/-- In every step the key queue loses its head, or gains bytes at the end (10_state R41, 43 R150). -/
theorem step_keyq {s t : State} (h : step s = .next t) :
    t.keyq = s.keyq.tail ∨ ∃ bytes, t.keyq = s.keyq ++ bytes := by
  have grown : s.keyq <+: t.keyq → ∃ bytes, t.keyq = s.keyq ++ bytes := fun ⟨bytes, e⟩ => ⟨bytes, e.symm⟩
  obtain g | ⟨-, -, g⟩ | ⟨ht, -⟩ := step_grows h
  · exact .inr (grown g.keyq)
  · exact .inr (grown g.keyq)
  · exact .inl ht

/-- Settles O57: each form of the next input has its own law of the environment's step. -/
theorem environmentStep : Obligations.EnvironmentStep :=
  ⟨fun _ _ _ => ⟨fun _ => envStep_event, envStep_event, fun _ => envStep_request, fun _ => envStep_foreignWrite,
    envStep_draw, fun hp => ⟨step_of_pick_env hp, fun _ => due_of_pick_env hp⟩⟩, fun _ _ => step_keyq⟩

end Sys2Proof.Machine
end

section
/-! PROOF. The invariant through every step of the machine: each agent's step from a state that meets it (10_state R24,
R28 to R31, R35, R41, 40_bit_timing_driver R105, 42_addressing R139, 60_exceptions R192). -/

namespace Sys2Proof.Machine

section Invariant

variable {s t u : State} {a : Act} {acts rest : List Act}

/-- A change that touches no register of the driver and the engine, nor the key map, and adds no key. -/
theorem RegInv.of_same (h : RegInv s) (hd : t.drv = s.drv) (he : t.eng = s.eng) (hm : t.cfg.keyMap = s.cfg.keyMap)
    (hq : t.keyq.length ≤ s.keyq.length) (hp : t.par = s.par) : RegInv t := by
  obtain ⟨⟨h1, h2, h3, h4, h5⟩, hrx, htx, ⟨e1, e2, e3, e4, e5, e6, e7, e8, e9, e10⟩⟩ := h
  unfold waitsForSend at e1 e2
  rw [← hd] at *
  rw [← he] at *
  exact ⟨⟨h1, h2, h3, h4, hm ▸ h5⟩, hrx, htx, ⟨e1, e2, e3, e4, e5, e6, e7, e8, e9, by rw [hp]; omega⟩⟩

/-! ### The handlers -/

/-- What the invariant gives a handler. -/
theorem RegInv.drvInv (h : RegInv s) : DrvInv s :=
  ⟨⟨h.rx, h.mem.rxBuf, h.mem.mbBuf⟩, h.tx, h.mem.txBuf, fun he => (h.eng.woken he).1⟩

/-- What a handler leaves true is enough to keep the invariant: the engine stays inside its wait. -/
theorem HandlerSafe.regInv (h : RegInv s) (k : HandlerSafe s u) : RegInv u := by
  obtain ⟨⟨-, heng, hcfg, hkeyq, -, -, hpar⟩, henabled, hself, hrx, htx, htxBuf, hsending, hwoken⟩ := k
  have he := h.eng
  have waits : waitsForSend s → waitsForSend u := fun ⟨rest, hr⟩ => ⟨rest, heng ▸ hr⟩
  refine ⟨⟨hrx.rxBuf, hrx.mbBuf, htxBuf, heng ▸ h.mem.fbuf, hcfg ▸ h.mem.keyMap⟩, hrx.inv, htx,
    ⟨fun hp => waits (he.sending (hsending hp)), fun hev => ?_, heng ▸ he.inRule, heng ▸ he.fetched,
      heng ▸ he.sendsOnly, ?_, ?_, ?_, heng ▸ he.lost, ?_⟩⟩
  · obtain ⟨hp, hs⟩ := hwoken hev
    exact ⟨hp, waits (hs.elim (fun hev' => (he.woken hev').2) he.sending)⟩
  · rw [heng, henabled]
    exact he.running
  · rw [heng, henabled]
    exact he.started
  · rw [heng, hself]
    exact he.published
  · rw [hkeyq, hpar]
    exact he.keyq

/-- A taken interrupt answers, and keeps the invariant. -/
theorem takeInterrupt_regInv (h : RegInv s) (src : Source) : ∃ u, takeInterrupt src s = .ok u ∧ RegInv u := by
  obtain ⟨u, hu, k⟩ := takeInterrupt_safe h.drvInv src
  exact ⟨u, hu, k.regInv h⟩

/-! ### The engine when it holds no send -/

/-- Outside `wait(ev_tx)` no send is in progress, and none has just ended (40 R105). -/
theorem RegInv.noSend (h : RegInv s) (hw : ¬waitsForSend s) : s.drv.txPhase = .idle ∧ s.drv.evTx = false := by
  constructor
  · by_contra hp
    exact hw (h.eng.sending hp)
  · by_contra he
    exact hw (h.eng.woken (by simpa using he)).2

/-- Between two rules the engine is quiet, once the driver is enabled. -/
theorem RegInv.quiet_nil (h : RegInv s) (ht : s.eng.todo = []) (he : s.drv.enabled = true) : EngineQuiet [] s := by
  obtain ⟨hp, hv⟩ := h.noSend (by simp [waitsForSend, ht])
  exact ⟨h.mem, h.rx, hp, hv, he, nofun, nofun, h.eng.published, by simpa [ht] using h.eng.lost, h.eng.keyq⟩

/-- Before an action of a rule the engine is quiet. -/
theorem RegInv.quiet_cons (h : RegInv s) (ht : s.eng.todo = a :: rest) (ha : a.inRule = true) :
    EngineQuiet (a :: rest) s := by
  obtain ⟨hp, hv⟩ := h.noSend (by rintro ⟨_, e⟩; cases ht.symm.trans e; cases ha)
  refine ⟨h.mem, h.rx, hp, hv, h.eng.running (by simp [ht]) ?_, ?_, ht ▸ h.eng.sendsOnly, h.eng.published,
    ht ▸ h.eng.lost, h.eng.keyq⟩
  · rintro _ e
    cases ht.symm.trans e
    cases ha
  · have hr := h.eng.inRule
    rw [ht] at hr
    exact List.forall_mem_cons.2 ⟨ha, hr⟩

/-- A rule's own writes: the engine's registers but for its address and its frame, and the observation trace. -/
theorem EngineQuiet.keeps_eng (h : EngineQuiet acts s) {eng : Eng} {err : List (Micros × Err)}
    (h1 : eng.selfLa = s.eng.selfLa := by rfl) (h2 : eng.fbuf = s.eng.fbuf := by rfl) :
    EngineKeeps s { s with eng := eng, err := err } :=
  ⟨rfl, h.published.trans h1.symm, h2 ▸ h.mem.fbuf, rfl, h.keyq⟩

/-- What the engine has left to do does not matter to a quiet state. -/
theorem EngineQuiet.setTodo (h : EngineQuiet acts s) (todo : List Act) : EngineQuiet acts (setTodo todo s) :=
  h.of_keeps h.keeps_eng h.inRule h.sendsOnly h.lost

/-- What stands behind the first action left to do can be run from a quiet state. -/
theorem RegInv.rest_quiet (h : RegInv s) (ht : s.eng.todo = a :: rest) (ha : a ≠ .resetLost) :
    (∀ b ∈ rest, b.inRule = true) ∧ (∀ i, Act.instr i ∈ rest → i.direction = .tx) ∧
    (s.eng.lostCount ≤ 2 ∨ (s.eng.lostCount = 3 ∧ Act.resetLost ∈ rest)) := by
  obtain ⟨-, -, hr, -, hi, -, -, -, hl, -⟩ := h.eng
  rw [ht] at hr hi hl
  exact ⟨hr, fun i hm => hi i (List.mem_cons_of_mem _ hm),
    hl.imp id fun ⟨e, hm⟩ => ⟨e, (List.mem_cons.1 hm).resolve_left (Ne.symm ha)⟩⟩

/-- With no send in progress nothing is asked of the transmit registers. -/
theorem txInv_idle {d : Drv} (hp : d.txPhase = .idle) : TxInv d :=
  ⟨fun hn => absurd hp hn, fun hc => by simp [hp, onLine] at hc⟩

theorem EngineQuiet.lost_le (h : EngineQuiet [] s) : s.eng.lostCount ≤ 2 :=
  h.lost.resolve_right fun ⟨_, hm⟩ => by cases hm

/-- Between two rules, an action of a rule may come next. -/
theorem EngineQuiet.single (h : EngineQuiet [] s) (ha : a.inRule = true) (hi : ∀ i, a ≠ .instr i) :
    EngineQuiet [a] s :=
  h.of_keeps h.keeps_self (fun _ hm => List.mem_singleton.1 hm ▸ ha)
    (fun i hm => absurd (List.mem_singleton.1 hm).symm (hi i)) (.inl h.lost_le)

/-- A state whose actions left to do are the quiet ones meets the invariant. -/
theorem EngineQuiet.inv_of_todo (h : EngineQuiet acts s) (ht : s.eng.todo = acts) : RegInv s :=
  EngineQuiet.inv (ht ▸ h)

/-! ### Received messages (43_protocol_engine R145, section 3) -/

/-- The last actions left to do, run from a quiet state, answer a next state that meets the invariant. -/
theorem EngineQuiet.runActs_last (h : EngineQuiet acts s) (ht : s.eng.todo = []) :
    ∃ t, runActs acts s = .next t ∧ RegInv t :=
  runActs_safe (by rwa [ht, List.append_nil])

/-- A rule's actions, once the rule has written the engine's registers, answer a next state that meets the invariant. -/
theorem runActs_rule (h : EngineQuiet [] s) (k : EngineKeeps s u) (ht : u.eng.todo = [])
    (hl : u.eng.lostCount ≤ 2 ∨ (u.eng.lostCount = 3 ∧ Act.resetLost ∈ acts))
    (hw : ∀ a ∈ acts, a.inRule = true) (hi : ∀ i, Act.instr i ∉ acts) :
    ∃ t, runActs acts u = .next t ∧ RegInv t :=
  EngineQuiet.runActs_last (h.of_keeps k hw (fun i hm => absurd hm (hi i)) hl) ht

/-- Every received row answers a next state that meets the invariant. -/
theorem exec_received_safe {i : Instr} (hd : i.direction = .rx) (h : EngineQuiet [] s) (ht : s.eng.todo = []) :
    ∃ t, exec i s = .next t ∧ RegInv t := by
  have hs : RegInv s := h.inv_of_todo ht
  have same : ∃ t, (Host.Outcome.next s : Result) = .next t ∧ RegInv t := ⟨s, rfl, hs⟩
  have hl := h.lost_le
  cases i <;> cases hd
  case poll => exact same
  all_goals
    simp only [exec, execFeatureAbort, execImageViewOn, execTextViewOn, execStandby, execUserControlPressed,
      execUserControlReleased, execGiveOsdName, execSystemAudioModeRequest, execGiveAudioStatus,
      execSetSystemAudioMode, execGiveSystemAudioModeStatus, execSystemAudioModeStatus, execRoutingChange,
      execActiveSource, execGivePhysicalAddress, execReportPhysicalAddress, execRequestActiveSource,
      execSetStreamPath, execDeviceVendorId, execGiveDeviceVendorId, execMenuRequest, execGiveDevicePowerStatus,
      execGetCecVersion, execAbort, execUnrecognized]
    refine gated_safe hs ?_
  case featureAbort | imageViewOn | textViewOn | systemAudioModeStatus => exact same
  case requestActiveSource =>
    split
    · refine runActs_rule h h.keeps_eng ht ?_ (by simp [announceActive, Act.inRule]) (by simp [announceActive])
      simp [announceActive]
      omega
    · rename_i hn
      have : s.eng.lostCount + 1 ≤ 2 := by simp at hn; omega
      exact runActs_rule (acts := []) h h.keeps_eng ht (.inl this) nofun nofun
  case setSystemAudioMode =>
    split
    · exact same
    · exact runActs_rule (acts := []) h h.keeps_eng ht (.inl hl) nofun nofun
  case userControlPressed =>
    split
    · exact same
    · split
      · exact same
      · exact runActs_rule h h.keeps_eng ht (.inl hl) (by simp [Act.inRule]) (by simp)
  case setStreamPath =>
    split
    · exact same
    · split
      · exact runActs_rule h h.keeps_eng ht (.inl hl) (by simp [announceActive, Act.inRule])
          (by simp [announceActive])
      · exact same
  case activeSource =>
    split
    · exact same
    · exact runActs_rule h h.keeps_eng ht (.inl (by simp)) (by simp [Act.inRule]) (by simp)
  case routingChange | menuRequest =>
    split
    · exact same
    · exact runActs_rule h h.keeps_eng ht (.inl hl) (by simp [Act.inRule]) (by simp)
  all_goals exact runActs_rule h h.keeps_eng ht (.inl hl) (by simp [Act.inRule]) (by simp)

/-! ### Transmitted messages -/

/-- Every transmitted row answers a next state that meets the invariant (41 R129, 43 R147, R157). -/
theorem exec_transmitted_safe {i : Instr} (hd : i.direction = .tx) (h : EngineQuiet s.eng.todo s) :
    ∃ t, exec i s = .next t ∧ RegInv t := by
  by_cases hw : withheld i s
  · cases i with
    | reportPhysicalAddressTx =>
      have hr : EngineQuiet s.eng.todo (record .noPa s) :=
        h.of_keeps h.keeps_eng h.inRule h.sendsOnly h.lost
      exact ⟨_, if_pos hw, hr.inv⟩
    | _ => exact hw.elim
  · obtain ⟨c, -, e⟩ | ⟨-, e⟩ := exec_transmitted hd hw <;> rw [e]
    · obtain ⟨more, u, hu, ht, hi⟩ := codecSend_safe (encode i) h
      refine ⟨pushActs more u, by rw [hu]; rfl, ?_⟩
      rw [← ht] at hi
      exact hi
    · exact transmit_safe i h

/-! ### The engine's step (43_protocol_engine R142 to R144) -/

/-- A sane frame decodes (30_encoding R82). -/
theorem decode_rx_of_sane {bytes : List Byte} (h : sane bytes = true) : ∃ i, decode .rx bytes = .ok i := by
  match bytes with
  | [] => cases h
  | [_] => exact ⟨_, rfl⟩
  | b :: op :: ops =>
    simp only [sane, Bool.and_eq_true, decide_eq_true_eq] at h
    exact ⟨_, (if_neg (Nat.not_lt.2 h.1)).trans (if_neg h.2)⟩

/-- The frame just received is dropped, or executed, and the invariant is kept (41 R130). -/
theorem engReceived_safe {n : Nat} (h : EngineQuiet [] s) (ht : s.eng.todo = []) (hf : memFilled s.eng.fbuf n) :
    ∃ t, engReceived n s = .next t ∧ RegInv t := by
  obtain ⟨bytes, hb, -⟩ := bufTake_ok hf (Nat.le_refl n)
  cases hs : sane bytes with
  | false =>
    have hq : EngineQuiet [] (rejectFrame bytes s) := h.of_keeps ⟨rfl, rfl, rfl, rfl, h.keyq⟩ nofun nofun h.lost
    exact ⟨_, engReceived_insane hb hs, hq.inv_of_todo ht⟩
  | true =>
    have hq : EngineQuiet [] (acceptFrame n s) :=
      h.of_keeps h.keeps_eng nofun nofun h.lost
    obtain ⟨i, hd⟩ := decode_rx_of_sane hs
    rw [engReceived_decodes hb hd]
    exact exec_received_safe (decode_rx_direction hd) hq ht

/-- With a frame in the mailbox it is copied out, else the engine waits for one (40 R123). -/
theorem engReceive_safe (h : EngineQuiet [] s) : ∃ t, engReceive s = .next t ∧ RegInv t := by
  unfold engReceive copyOut
  split
  · obtain ⟨h1, h16, hf⟩ := h.rx.mailbox ‹_›
    obtain ⟨bytes, hb, hbytes⟩ := bufTake_ok hf (Nat.le_refl _)
    rw [hb]
    refine ⟨_, rfl, { h.mem with fbuf := wf_memStore bytes (by omega) h.mem.fbuf }, { h.rx with mailbox := nofun },
      txInv_idle h.phase,
      ⟨fun hn => absurd h.phase hn, fun hv => ?_, nofun, ?_, by simp, fun _ _ => h.enabled, fun _ => h.enabled,
        h.published, .inl h.lost_le, h.keyq⟩⟩
    · cases h.evTx.symm.trans hv
    · rintro n rest ⟨⟩
      exact ⟨rfl, by omega, memFilled_memStore _ bytes⟩
  · exact ⟨_, rfl, (h.single rfl (by simp)).setTodo_inv⟩

/-- What is left to do, taken off and put back. -/
theorem pushActs_setTodo_nil (ht : s.eng.todo = acts) : pushActs acts (setTodo [] s) = s := by
  subst ht
  simp [pushActs, setTodo, updEng]

/-- The wait for a send ends once the send has, and the rule goes on (40 R105). -/
theorem sendWait_safe (h : RegInv s) (ht : s.eng.todo = .sendWait :: rest) :
    ∃ t, runFrom .sendWait rest (setTodo [] s) = .next t ∧ RegInv t := by
  cases hv : s.drv.evTx with
  | false =>
    have hr : runAct .sendWait (setTodo [] s) = .stop (setTodo [] s) [.sendWait] := by
      simp [runAct, sendWaitStep, waitFlag, hv]
    refine ⟨_, runFrom_stop hr, ?_⟩
    rw [List.singleton_append, pushActs_setTodo_nil ht]
    exact h
  | true =>
    let u := updEng (fun e => { e with ret := s.drv.txResult })
      (updDrv (fun d => { d with evTx := false }) (setTodo [] s))
    have hr : runAct .sendWait (setTodo [] s) = .done u := by
      simp [runAct, sendWaitStep, waitFlag, hv, u]
    obtain ⟨hw, hi, hl⟩ := h.rest_quiet ht (by simp)
    have hq : EngineQuiet rest u :=
      ⟨{ h.mem with }, { h.rx with }, (h.eng.woken hv).1, rfl, h.eng.running (by simp [ht]) (by simp [ht]), hw, hi,
        h.eng.published, hl, h.eng.keyq⟩
    rw [runFrom_done hr]
    exact hq.runActs_last rfl

/-- The end of the driver's enable, and the rest of the startup's step (40 R89). -/
theorem enable_safe (h : RegInv s) (ht : s.eng.todo = .enable :: rest) :
    ∃ t, runFrom .enable rest (setTodo [] s) = .next t ∧ RegInv t := by
  obtain ⟨hp, hv⟩ := h.noSend (by simp [waitsForSend, ht])
  obtain ⟨hw, hi, hl⟩ := h.rest_quiet ht (by simp)
  rw [runFrom_done rfl]
  refine EngineQuiet.runActs_last ?_ rfl
  exact ⟨{ h.mem with }, { h.rx with acking := fun hk => ⟨rfl, (h.rx.acking hk).2⟩ }, hp, hv, rfl, hw, hi,
    h.eng.published, hl, h.eng.keyq⟩

/-- An action of a rule, and the actions after it. -/
theorem runFrom_inRule_safe (h : RegInv s) (ht : s.eng.todo = a :: rest) (ha : a.inRule = true) :
    ∃ t, runFrom a rest (setTodo [] s) = .next t ∧ RegInv t :=
  runFrom_safe (by simpa using (h.quiet_cons ht ha).setTodo []) runActs_safe

/-- The engine's step inside a rule. -/
theorem engineStep_todo_safe (h : RegInv s) (ht : s.eng.todo = a :: rest) :
    ∃ t, engineStep s = .next t ∧ RegInv t := by
  cases a
  case instr i =>
    have hq : EngineQuiet rest (setTodo rest s) := ((h.quiet_cons ht rfl).tail (by simp)).setTodo rest
    simp only [engineStep, ht]
    exact exec_transmitted_safe (h.eng.sendsOnly i (by simp [ht])) hq
  case received n =>
    obtain ⟨rfl, -, hf⟩ := h.eng.fetched n rest ht
    obtain ⟨hp, hv⟩ := h.noSend (by simp [waitsForSend, ht])
    obtain ⟨hw, hi, hl⟩ := h.rest_quiet ht (by simp)
    have hq : EngineQuiet [] s :=
      ⟨h.mem, h.rx, hp, hv, h.eng.running (by simp [ht]) (by simp [ht]), hw, hi, h.eng.published, hl, h.eng.keyq⟩
    simp only [engineStep, ht]
    exact engReceived_safe (hq.setTodo []) rfl hf
  case sendWait =>
    simp only [engineStep, ht]
    exact sendWait_safe h ht
  case enable =>
    simp only [engineStep, ht]
    exact enable_safe h ht
  all_goals
    simp only [engineStep, ht]
    exact runFrom_inRule_safe h ht rfl

/-- A step of the startup before the driver is enabled: the position, the time of loading and the configuration. -/
theorem RegInv.startup (h : RegInv s) {c : Ctl} {cfg : Cfg} {τ : Micros}
    (hc : c = .fault ∨ c = .settle ∨ c = .init) (hm : Memory.wf keyMapSize cfg.keyMap = true) :
    RegInv { s with cfg := cfg, eng := { s.eng with ctl := c, tLoaded := τ } } := by
  refine ⟨{ h.mem with keyMap := hm }, h.rx, h.tx, { h.eng with started := fun hs => ?_ }⟩
  rcases hc with rfl | rfl | rfl <;> simp at hs

/-- A failed load keeps the invariant (43 R142). -/
theorem loadFailed_regInv (h : RegInv s) : RegInv (setCtl .fault (indicate .fault (record .configFail s))) := by
  have ho : RegInv (indicate .fault (record .configFail s)) := h.of_same rfl rfl rfl (Nat.le_refl _) rfl
  exact ho.startup (τ := s.eng.tLoaded) (.inl rfl) h.mem.keyMap

/-- The load of the configuration keeps the invariant (43 R142). -/
theorem engLoad_regInv (h : RegInv s) : RegInv (engLoad s) := by
  have hd : RegInv (drawCfg s).2 := h.of_same (by simp) (by simp) (by simp) (by simp) (by simp)
  unfold engLoad
  split
  · rename_i u e
    rw [e] at hd
    exact loadFailed_regInv hd
  · rename_i r u e
    rw [e] at hd
    split
    · exact loadFailed_regInv hd
    · exact hd.startup (.inr (.inl rfl)) (wf_memCanon _ _)

/-- The driver's enable, up to its end, keeps the invariant (40 R89). -/
theorem drvPrepare_regInv (h : RegInv s) (ht : s.eng.todo = []) (hc : s.eng.ctl = .init) :
    RegInv (setTodo [.enable] (drvPrepare s)) := by
  have hl : s.eng.lostCount ≤ 2 := h.eng.lost.resolve_right fun ⟨_, hm⟩ => by simp [ht] at hm
  refine ⟨⟨?_, ?_, ?_, ?_, ?_⟩, ⟨?_, ?_, ?_, ?_, ?_, ?_, ?_, ?_, ?_⟩, txInv_idle ?_,
    ⟨?_, ?_, ?_, ?_, ?_, ?_, ?_, ?_, .inl ?_, ?_⟩⟩ <;>
    simp [drvPrepare, h.mem.rxBuf, h.mem.mbBuf, h.mem.txBuf, h.mem.fbuf, h.mem.keyMap, h.rx.bit, memFilled_zero, hc,
      hl, h.eng.published, h.eng.keyq]

/-- The engine's step between two rules: a step of the startup, or of the loop (43 R142 to R144). -/
theorem engineStep_ctl_safe (h : RegInv s) (ht : s.eng.todo = []) : ∃ t, engineStep s = .next t ∧ RegInv t := by
  have quiet (hc : s.eng.ctl = .pa ∨ s.eng.ctl = .la ∨ s.eng.ctl = .recv ∨ s.eng.ctl = .dispatch) :
      EngineQuiet [] s := h.quiet_nil ht (h.eng.started hc)
  cases hc : s.eng.ctl <;> simp only [engineStep, ht, hc]
  case load => exact ⟨_, rfl, engLoad_regInv h⟩
  case fault => exact ⟨s, rfl, h⟩
  case settle => exact ⟨_, rfl, h.startup (.inr (.inr rfl)) h.mem.keyMap⟩
  case init => exact ⟨_, rfl, drvPrepare_regInv h ht hc⟩
  case pa =>
    have hq := quiet (by simp [hc])
    obtain ⟨hto, ho⟩ : ActSafe s [] (.done (obtainPa s)) := runAct_safe (a := .derivePa) (hq.single rfl (by simp))
    have hs : EngineQuiet [] (setCtl .la (obtainPa s)) :=
      ho.of_keeps ho.keeps_eng nofun nofun ho.lost
    exact ⟨_, rfl, hs.inv_of_todo (hto.trans ht)⟩
  case la =>
    have hq := quiet (by simp [hc])
    obtain ⟨k, -, hl, hw, hi⟩ := allocateBegin_keeps hq
    have hs : EngineQuiet ((allocateBegin s).1 ++ [.enterLoop]) (allocateBegin s).2 := by
      refine hq.of_keeps k (fun a hm => ?_) (fun i hm => hi i (by simpa using hm)) (.inl (hl ▸ hq.lost_le))
      exact (List.mem_append.1 hm).elim (hw a) fun he => by rw [List.mem_singleton.1 he]; rfl
    exact ⟨_, rfl, hs.setTodo_inv⟩
  case recv => exact engReceive_safe (quiet (by simp [hc]))
  case dispatch =>
    have hq := quiet (by simp [hc])
    have hs : EngineQuiet [] (enterRecv s) := hq.of_keeps ⟨rfl, rfl, rfl, rfl, hq.keyq⟩ nofun nofun hq.lost
    exact ⟨_, rfl, hs.inv_of_todo ht⟩

/-- An engine step from a state that meets the invariant never faults, and keeps it. -/
theorem engineStep_safe (h : RegInv s) : ∃ t, engineStep s = .next t ∧ RegInv t := by
  cases ht : s.eng.todo with
  | nil => exact engineStep_ctl_safe h ht
  | cons a rest => exact engineStep_todo_safe h ht

/-! ### The other agents, and the machine's step -/

theorem envStep_regInv (h : RegInv s) (he : envStep s = .next t) : RegInv t := by
  unfold envStep at he
  split at he
  · cases he
    exact h.of_same (by simp) (by simp) (by simp) (by simp) (by simp)
  · rename_i e rest _
    cases he
    cases e with
    | line low => refine h.of_same ?_ ?_ ?_ ?_ ?_ <;> simp [envEvent]
    | pop => exact h.of_same rfl rfl rfl (by simp [envEvent]) rfl
  · cases he
  · cases he

theorem advance_regInv (h : RegInv s) : RegInv (advance s) := by
  unfold advance
  split
  · exact h
  · split
    · exact h.of_same rfl rfl rfl (Nat.le_refl _) rfl
    · exact h.of_same (by simp) (by simp) (by simp) (by simp) (by simp)

/-- Every agent's step keeps the invariant of the registers. -/
theorem runAgent_regInv {ag : Agent} (h : RegInv s) (ha : runAgent ag s = .next t) : RegInv t := by
  have handler (src : Source) (hs : ofExcept (takeInterrupt src s) = .next t) : RegInv t := by
    obtain ⟨u, hu, hi⟩ := takeInterrupt_regInv h src
    cases hu.symm.trans (ofExcept_next hs)
    exact hi
  cases ag with
  | engine =>
    obtain ⟨u, hu, hi⟩ := engineStep_safe h
    cases hu.symm.trans ha
    exact hi
  | edge => exact handler .edge ha
  | alarmTx => exact handler (.alarm .tx) ha
  | alarmAck => exact handler (.alarm .ack) ha
  | env => exact envStep_regInv h ha
  | time =>
    cases ha
    exact advance_regInv h

theorem pick_regInv (h : RegInv s) : RegInv (pick s).2 := by
  rw [pick_eq s]
  exact h.of_same rfl rfl rfl (Nat.le_refl _) rfl

end Invariant

/-- Settles O12: every agent keeps the invariant of the registers, and a step after which a timestamp no longer fits
ends the run. -/
theorem invEveryStep : Obligations.InvEveryStep := by
  intro s t h hs
  obtain ⟨ha, hf⟩ := step_next hs
  exact ⟨runAgent_regInv (pick_regInv h.toRegInv) ha, hf⟩

end Sys2Proof.Machine
end

section
/-! PROOF. The outputs through every step of the machine (60_exceptions R193, 43_protocol_engine R151). -/

namespace Sys2Proof.Machine

/-- Settles O59: the indicator's calls and the observation trace are among what every step only grows. -/
theorem outputsOnlyGrow : Obligations.OutputsOnlyGrow := by
  intro s t h
  have grown {α : Type} {l m : List α} : l <+: m → ∃ e, m = l ++ e := fun ⟨e, he⟩ => ⟨e, he.symm⟩
  obtain g | ⟨-, -, g⟩ | ⟨-, g⟩ := step_grows h <;> exact ⟨grown g.ind, grown g.err⟩

end Sys2Proof.Machine
end

section
/-! PROOF. The passage of time: what the scheduler's next time is, and that no other agent moves the time base
(10_state R23, 60_exceptions R203, R208). -/

namespace Sys2Proof.Machine

/-! ### The earliest of some times -/

/-- `o` is the least time with the property `P`, and none if no time has it. -/
def EarliestOf (o : Option Micros) (P : Micros → Prop) : Prop :=
  match o with
  | none => ∀ x, ¬P x
  | some τ => IsLeast {x | P x} τ

theorem earliestOf_some {o : Option Micros} : EarliestOf o fun x => o = some x := by
  cases o with
  | none => exact nofun
  | some τ => exact ⟨rfl, fun x hx => by cases hx; exact Nat.le_refl _⟩

theorem EarliestOf.congr {o : Option Micros} {P Q : Micros → Prop} (h : EarliestOf o P) (he : ∀ x, P x ↔ Q x) :
    EarliestOf o Q := by
  rwa [← funext fun x => propext (he x)]

/-- The earliest time is the least one with the property. -/
theorem EarliestOf.eq_some {o : Option Micros} {P : Micros → Prop} (h : EarliestOf o P) {τ : Micros}
    (hτ : IsLeast {x | P x} τ) : o = some τ := by
  cases o with
  | none => exact absurd hτ.1 (h τ)
  | some σ => rw [IsLeast.unique h hτ]

/-- The earlier of the earliest times of two kinds is the earliest of both. -/
theorem EarliestOf.earlier {a b : Option Micros} {P Q : Micros → Prop} (ha : EarliestOf a P) (hb : EarliestOf b Q) :
    EarliestOf (earlier a b) fun x => P x ∨ Q x := by
  cases a with
  | none => exact hb.congr fun x => by simp [ha x]
  | some σ =>
    cases b with
    | none => exact ha.congr fun x => by simp [hb x]
    | some τ => exact IsLeast.union ha hb

/-- The earliest time, if it lies ahead. -/
theorem earliestOf_future (now : Micros) (o : Option Micros) :
    EarliestOf (future now o) fun x => now < x ∧ o = some x := by
  cases o with
  | none => exact fun x hx => by cases hx.2
  | some τ =>
    unfold future
    dsimp only
    split
    · rename_i hn
      exact ⟨⟨hn, rfl⟩, fun x hx => by cases hx.2; exact Nat.le_refl _⟩
    · rintro x ⟨hx, e⟩
      cases e
      exact absurd hx ‹_›

section Deadlines

variable {s t : State} {τ : Micros}

/-! ### The deadlines the scheduler knows -/

theorem engineDeadline_eq_some :
    engineDeadline s = some τ ↔ (∃ b rest, s.eng.todo = .keyWait b τ :: rest) ∨
      (s.eng.todo = [] ∧ s.eng.ctl = .settle ∧ τ = settleDeadline s) := by
  unfold engineDeadline
  split
  · simp_all
  · simp_all
  · rename_i h
    by_cases hc : s.eng.ctl = .settle
    · simp only [h, hc, if_true, Option.some.injEq]
      simpa using eq_comm
    · simp [h, hc]

theorem scriptTime_eq_some : scriptTime s = some τ ↔ ∃ i rest, s.env.script = (τ, i) :: rest := by
  unfold scriptTime
  split
  · simp_all
  · rename_i e rest h
    simp [h, Prod.ext_iff]

/-- Something becomes due at `τ`: an alarm, the engine's wait for room or for the end of the settling time, an input
(60_exceptions R208). -/
def Deadline (s : State) (τ : Micros) : Prop :=
  s.drv.alarmTx = some τ ∨ s.drv.alarmAck = some τ ∨ (∃ b rest, s.eng.todo = .keyWait b τ :: rest) ∨
  (s.eng.todo = [] ∧ s.eng.ctl = .settle ∧ τ = settleDeadline s) ∨ ∃ i rest, s.env.script = (τ, i) :: rest

/-- The latency of the pending handlers ends at the earliest at this time (R203). -/
theorem latencyLimit_earliest (s : State) :
    EarliestOf (latencyLimit s) fun x => ∃ p ∈ pendingTimes s, x = p + s.par.isrLatencyMaxUs := by
  unfold latencyLimit
  induction pendingTimes s with
  | nil => exact fun x hx => by simp at hx
  | cons p ps ih => exact (earliestOf_some.earlier ih).congr fun x => by simp [eq_comm]

/-- The next time is the earliest deadline or end of latency that lies ahead. -/
theorem nextTime_earliest (s : State) :
    EarliestOf (nextTime s) fun x => s.now < x ∧ (Deadline s x ∨ latencyLimit s = some x) := by
  have f := earliestOf_future s.now
  refine (((f s.drv.alarmTx).earlier (f s.drv.alarmAck)).earlier ((f (engineDeadline s)).earlier
    ((f (scriptTime s)).earlier (f (latencyLimit s))))).congr fun x => ?_
  simp only [Deadline, engineDeadline_eq_some, scriptTime_eq_some, ← and_or_left, or_assoc]

/-! ### The pending handlers -/

theorem edge_pending {e : Micros × Level} {es : List (Micros × Level)} (h : s.edges = e :: es) :
    e.1 ∈ pendingTimes s := by
  simp [pendingTimes, h]

theorem alarmTx_pending (h : s.drv.alarmTx = some τ) (hd : τ ≤ s.now) : max τ s.armedTx ∈ pendingTimes s := by
  simp [pendingTimes, alarmPendingSince, h, hd]

theorem alarmAck_pending (h : s.drv.alarmAck = some τ) (hd : τ ≤ s.now) : max τ s.armedAck ∈ pendingTimes s := by
  simp [pendingTimes, alarmPendingSince, h, hd]

theorem alarmPendingSince_eq_nil {d : Option Micros} {armed now : Micros} :
    alarmPendingSince d armed now = [] ↔ alarmDue d now = false := by
  cases d <;> simp [alarmPendingSince, alarmDue]

/-- A handler is pending exactly when one has become so at some time (R196). -/
theorem pendingTimes_eq_nil : pendingTimes s = [] ↔ pendingHandlers s = [] := by
  cases he : s.edges <;> simp [pendingTimes, pendingHandlers, he, alarmPendingSince_eq_nil]

/-- With latency left, the end of every pending handler's latency lies ahead. -/
theorem latencyLimit_ahead (hm : mayDelay s = true) {p : Micros} (hp : p ∈ pendingTimes s) :
    ∃ x, latencyLimit s = some x ∧ s.now < x ∧ x ≤ p + s.par.isrLatencyMaxUs := by
  have hl := latencyLimit_earliest s
  cases he : latencyLimit s with
  | none =>
    rw [he] at hl
    exact absurd ⟨p, hp, rfl⟩ (hl _)
  | some x =>
    rw [he] at hl
    obtain ⟨⟨q, hq, rfl⟩, hle⟩ := hl
    exact ⟨_, rfl, by simpa using List.all_eq_true.1 hm q hq, hle ⟨p, hp, rfl⟩⟩

/-! ### The passage of time -/

/-- A drawn part of a stretch of time is at least one microsecond, and at most the whole. -/
theorem drawn_between {now τ : Nat} (r : Nat) (h : now < τ) :
    now < now + 1 + r % (τ - now) ∧ now + 1 + r % (τ - now) ≤ τ := by
  have := Nat.mod_lt r (Nat.sub_pos_of_lt h)
  omega

/-- Time passes at least by one microsecond, and no further than the next time; with no handler pending, to it. -/
theorem advance_cases (s : State) :
    (nextTime s = none ∧ advance s = s) ∨
    ∃ τ, nextTime s = some τ ∧ s.now < (advance s).now ∧ (advance s).now ≤ τ ∧
      (pendingTimes s = [] → advance s = { s with now := τ }) := by
  have hn := nextTime_earliest s
  unfold advance
  cases h : nextTime s with
  | none => exact .inl ⟨rfl, rfl⟩
  | some τ =>
    rw [h] at hn
    have hlt : s.now < τ := hn.1.1
    refine .inr ⟨τ, rfl, ?_⟩
    dsimp only
    split
    · exact ⟨hlt, Nat.le_refl _, fun _ => rfl⟩
    · rename_i hp
      obtain ⟨h1, h2⟩ := drawn_between (drawOrder s).1 hlt
      exact ⟨h1, h2, by simp [hp]⟩

/-! ### The machine's step -/

/-- The draw that picks the agent changes nothing the scheduler's times depend on. -/
theorem pick_script (s : State) : (pick s).2.env.script = s.env.script := by
  unfold pick
  split
  · rfl
  · rfl
  · unfold drawOrder
    split <;> rfl

theorem envStep_now (h : envStep s = .next t) : t.now = s.now := by
  unfold envStep at h
  split at h
  · cases h
    simp
  · rename_i e rest _
    cases h
    cases e <;> simp [envEvent]
  · cases h
  · cases h

/-- No agent but time itself moves the time base (60_exceptions R208). -/
theorem runAgent_now {a : Agent} (ha : a ≠ .time) (h : runAgent a s = .next t) : t.now = s.now := by
  cases a with
  | engine => exact (engineStep_lineMoves h).now
  | edge | alarmTx | alarmAck => exact (takeInterrupt_frame (ofExcept_next h)).now
  | env => exact envStep_now h
  | time => exact absurd rfl ha

/-- Time's turn is that of the state the agent was picked from: the draw changes none of the scheduler's times. -/
theorem advance_pick_cases (s : State) :
    (nextTime s = none ∧ advance (pick s).2 = (pick s).2) ∨
    ∃ τ, nextTime s = some τ ∧ s.now < (advance (pick s).2).now ∧ (advance (pick s).2).now ≤ τ ∧
      (pendingTimes s = [] → advance (pick s).2 = { (pick s).2 with now := τ }) := by
  have hs := pick_script s
  have he := pick_eq s
  have hnow : (pick s).2.now = s.now := by rw [he]
  have hp : pendingTimes (pick s).2 = pendingTimes s := by rw [he]; rfl
  have hscript : scriptTime (pick s).2 = scriptTime s := by simp only [scriptTime, hs]
  have hn : nextTime (pick s).2 = nextTime s := by
    unfold nextTime
    rw [hscript, he]
    rfl
  have h := advance_cases (pick s).2
  rwa [hn, hp, hnow] at h

theorem step_of_pick_time (h : (pick s).1 = .time) : step s = withinRun (.next (advance (pick s).2)) := by
  simp only [step, stepOnce, h, runAgent]

/-- The time base stays, or it is time's turn and time passes, no further than the next time (R208). -/
theorem step_now_cases (h : step s = .next t) :
    t.now = s.now ∨ ((pick s).1 = .time ∧ s.now < t.now ∧ ∃ τ, nextTime s = some τ ∧ t.now ≤ τ) := by
  have hnow : (pick s).2.now = s.now := by rw [pick_eq s]
  by_cases hp : (pick s).1 = .time
  · rw [step_of_pick_time hp, withinRun_next] at h
    obtain ⟨⟨⟩, -⟩ := h
    obtain ⟨-, e⟩ | ⟨τ, hτ, hlt, hle, -⟩ := advance_pick_cases s
    · exact .inl (by rw [e, hnow])
    · exact .inr ⟨hp, hlt, τ, hτ, hle⟩
  · exact .inl ((runAgent_now hp (step_next h).1).trans hnow)

theorem step_now_ge (h : step s = .next t) : s.now ≤ t.now := by
  obtain e | ⟨-, hlt, -⟩ := step_now_cases h
  · rw [e]
  · exact Nat.le_of_lt hlt

/-- Time never passes beyond a deadline that lies ahead, nor beyond the end of a latency (R203, R208). -/
theorem step_now_le (h : step s = .next t) (hτ : s.now < τ) (hd : Deadline s τ ∨ latencyLimit s = some τ) :
    t.now ≤ τ := by
  obtain e | ⟨-, -, σ, hσ, hle⟩ := step_now_cases h
  · rw [e]
    exact Nat.le_of_lt hτ
  · have hn := nextTime_earliest s
    rw [hσ] at hn
    exact hle.trans (hn.2 ⟨hτ, hd⟩)

/-- Time passes only when it may. -/
theorem timeReady_of_passed (h : step s = .next t) (hlt : s.now < t.now) :
    engineReady s = false ∧ envReady s = false ∧ mayDelay s = true := by
  obtain e | ⟨hp, -⟩ := step_now_cases h
  · exact absurd hlt (by rw [e]; exact Nat.lt_irrefl _)
  · simpa [timeReady, and_assoc] using timeReady_of_pick hp

/-- Time that passes leaves every pending handler within its latency (R203). -/
theorem step_now_le_latency (h : step s = .next t) (hlt : s.now < t.now) {p : Micros} (hp : p ∈ pendingTimes s) :
    t.now ≤ p + s.par.isrLatencyMaxUs := by
  obtain ⟨x, hx, hlx, hle⟩ := latencyLimit_ahead (timeReady_of_passed h hlt).2.2 hp
  exact (step_now_le h hlx (.inr hx)).trans hle

theorem now_lt_of_timesFit (h : timesFit t = true) : t.now < 2 ^ 64 := by
  simp only [timesFit, List.all_eq_true, decide_eq_true_eq] at h
  exact h t.now (by simp [timestamps])

/-! ### Time's turn -/

/-- With no handler pending the next time is the earliest deadline ahead. -/
theorem nextTime_idle (hn : pendingHandlers s = []) : EarliestOf (nextTime s) fun x => s.now < x ∧ Deadline s x := by
  have hl : latencyLimit s = none := by simp [latencyLimit, pendingTimes_eq_nil.2 hn]
  exact (nextTime_earliest s).congr fun x => by simp [hl]

/-- With no handler pending time passes to the earliest deadline ahead. -/
theorem step_time_to_earliest (hp : (pick s).1 = .time) (hn : pendingHandlers s = [])
    (hτ : IsLeast {x | s.now < x ∧ Deadline s x} τ) : step s = withinRun (.next { (pick s).2 with now := τ }) := by
  have hσ := (nextTime_idle hn).eq_some hτ
  rw [step_of_pick_time hp]
  obtain ⟨e, -⟩ | ⟨σ, e, -, -, ha⟩ := advance_pick_cases s <;> cases hσ.symm.trans e
  rw [ha (pendingTimes_eq_nil.2 hn)]

/-- With no handler pending and nothing ahead time stands. -/
theorem step_time_stands (hp : (pick s).1 = .time) (hn : pendingHandlers s = [])
    (hx : ∀ x, ¬(s.now < x ∧ Deadline s x)) : step s = withinRun (.next (pick s).2) := by
  rw [step_of_pick_time hp]
  obtain ⟨-, e⟩ | ⟨τ, e, -⟩ := advance_pick_cases s
  · rw [e]
  · have hl := nextTime_idle hn
    rw [e] at hl
    exact absurd hl.1 (hx τ)

/-- With a handler pending time passes by at least one microsecond. -/
theorem step_time_passes (hp : (pick s).1 = .time) (hn : pendingHandlers s ≠ []) (h : step s = .next t) :
    s.now < t.now := by
  have hm : mayDelay s = true := by
    have ht := timeReady_of_pick hp
    simp only [timeReady, Bool.and_eq_true] at ht
    exact ht.2
  obtain ⟨p, hmem⟩ := List.exists_mem_of_ne_nil _ (mt pendingTimes_eq_nil.1 hn)
  obtain ⟨x, hx, hlx, -⟩ := latencyLimit_ahead hm hmem
  rw [step_of_pick_time hp, withinRun_next] at h
  obtain ⟨⟨⟩, -⟩ := h
  obtain ⟨e, -⟩ | ⟨τ, -, hlt, -⟩ := advance_pick_cases s
  · have hl := nextTime_earliest s
    rw [e] at hl
    exact absurd ⟨hlx, .inr hx⟩ (hl x)
  · exact hlt

end Deadlines

/-- Settles O60: only time moves the time base, and to no later than the earliest of the scheduler's times. -/
theorem timePassesToDeadlines : Obligations.TimePassesToDeadlines := by
  refine ⟨fun s t h => ⟨step_now_ge h, now_lt_of_timesFit (step_next h).2, fun hlt => ?_,
    fun d hd hn => step_now_le h hn (.inl (.inl hd)),
    fun d hd hn => step_now_le h hn (.inl (.inr (.inl hd))),
    fun b d rest hd hn => step_now_le h hn (.inl (.inr (.inr (.inl ⟨b, rest, hd⟩)))),
    fun ht hc hn => step_now_le h hn (.inl (.inr (.inr (.inr (.inl ⟨ht, hc, rfl⟩))))),
    fun τ i rest hd hn => step_now_le h hn (.inl (.inr (.inr (.inr (.inr ⟨i, rest, hd⟩)))))⟩,
    fun s hp => ⟨fun τ hn h1 h2 => step_time_to_earliest hp hn ⟨h1, h2⟩, step_time_stands hp,
      fun t => step_time_passes hp⟩⟩
  obtain ⟨h1, h2, h3⟩ := timeReady_of_passed h hlt
  exact ⟨h1, h2, .inr h3, fun e es he => step_now_le_latency h hlt (edge_pending he),
    fun d hd hn => step_now_le_latency h hlt (alarmTx_pending hd hn),
    fun d hd hn => step_now_le_latency h hlt (alarmAck_pending hd hn)⟩

end Sys2Proof.Machine
end

section
/-! PROOF. The codec's two directions: what a frame decodes to, and the frame of an instruction (30_encoding R72 to
R84, 41_frame_codec R126 to R133). -/

namespace Sys2Proof.Machine

/-! ### The opcode table by direction -/

/-- The message of an opcode and its operands: the received rows have one for every opcode, the transmitted ones for
their own opcodes and lengths (30_encoding R80, R82). -/
def rowOf : Direction → La → La → Byte → List Byte → Except DecodeError Instr
  | .rx, init, dest, op, ops => .ok (rxRow init dest op ops)
  | .tx, init, dest, op, ops => txRow init dest op ops

section Codec

variable {dir : Direction} {init dest : La} {op : Byte} {ops : List Byte} {i : Instr}

/-- Every byte is a header. -/
theorem exists_header (b : Byte) : ∃ init dest, header init dest = b := ⟨_, _, header_headerInit_headerDest b⟩

theorem sane_message_iff :
    sane (message init dest op ops) = true ↔ ops.length + 2 ≤ maxFrame ∧ init ≠ dest := by
  simp [sane, message, Nat.succ_le_iff]

/-- A message is an instruction exactly when it is sane and its row gives one (41_frame_codec R128). -/
theorem decode_message_eq_ok :
    decode dir (message init dest op ops) = .ok i ↔
      sane (message init dest op ops) = true ∧ rowOf dir init dest op ops = .ok i := by
  have hd : decode dir (message init dest op ops) =
      if maxFrame < ops.length + 2 then .error .tooLong
      else if init = dest then .error .selfAddressed
      else rowOf dir init dest op ops := by
    cases dir <;> simp [decode, decodeRx, decodeTx, message, rowOf]
  rw [hd, sane_message_iff]
  split
  · simp [Nat.not_le.2 ‹_›]
  · split
    · simp [*]
    · simp [*, Nat.not_lt.1 ‹¬maxFrame < _›]

theorem decode_rx_header : decode .rx [header init dest] = .ok (.poll init dest) := by
  simp [decode, decodeRx]

/-- A transmitted header alone is a poll of one address, in both nibbles (30_encoding R74). -/
theorem decode_tx_header_eq_ok : decode .tx [header init dest] = .ok i ↔ init = dest ∧ i = .pollTx init := by
  simp only [decode, decodeTx, headerInit_header, headerDest_header]
  split <;> simp [*, eq_comm]

/-! ### What a row's message encodes to -/

/-- An opcode's received row encodes back to the opcode and its operands. -/
theorem encode_rxRow : encode (rxRow init dest op ops) = message init dest op ops := by
  by_cases h : op ∈ rxOpcodes
  · fin_cases h <;> rfl
  · rw [rxRow_unrecognized _ _ _ h]
    rfl

/-- A received message is well formed by its header and length alone, whatever its opcode's row. -/
theorem wellFormed_rxRow : (rxRow init dest op ops).wellFormed = rxWellFormed init dest ops := by
  by_cases h : op ∈ rxOpcodes
  · fin_cases h <;> rfl
  · simp [rxRow_unrecognized _ _ _ h, Instr.wellFormed, h]

/-- If the answer is an instruction, it is a transmitted one with the frame `bytes`. -/
def TransmitsAs (bytes : List Byte) (r : Except DecodeError Instr) : Prop :=
  ∀ i, r = .ok i → i.direction = .tx ∧ encode i = bytes

theorem TransmitsAs.ok {bytes : List Byte} (hd : i.direction = .tx) (he : encode i = bytes) :
    TransmitsAs bytes (.ok i) := by
  rintro _ ⟨⟩
  exact ⟨hd, he⟩

theorem TransmitsAs.error {bytes : List Byte} {e : DecodeError} : TransmitsAs bytes (.error e) := nofun

theorem TransmitsAs.ite {bytes : List Byte} {c : Prop} [Decidable c] {r r' : Except DecodeError Instr}
    (hr : c → TransmitsAs bytes r) (hr' : TransmitsAs bytes r') : TransmitsAs bytes (if c then r else r') :=
  iteInduction hr fun _ => hr'

/-- A transmitted row that takes the operands encodes back to its opcode and them. -/
theorem txRow_transmitsAs : TransmitsAs (message init dest op ops) (txRow init dest op ops) := by
  unfold txRow
  refine .ite ?_ <| .ite ?_ <| .ite ?_ <| .ite ?_ <| .ite ?_ <| .ite ?_ <| .ite ?_ <| .ite ?_ <| .ite ?_ <|
    .ite ?_ <| .ite ?_ <| .ite ?_ <| .error
  all_goals
    rintro rfl
    split
    · exact .ok rfl rfl
    · exact .error

theorem rowOf_eq_ok (h : rowOf dir init dest op ops = .ok i) :
    i.direction = dir ∧ encode i = message init dest op ops ∧
      (dir = .rx → i.wellFormed = rxWellFormed init dest ops) := by
  cases dir with
  | rx =>
    cases h
    exact ⟨rxRow_direction _ _ _ _, encode_rxRow, fun _ => wellFormed_rxRow⟩
  | tx =>
    obtain ⟨hd, he⟩ := txRow_transmitsAs i h
    exact ⟨hd, he, nofun⟩

/-! ### The frame of a well-formed instruction -/

/-- The frame of every well-formed instruction is sane (41_frame_codec R128). -/
theorem encode_sane (hw : i.wellFormed = true) : sane (encode i) = true := by
  cases i with
  | poll => rfl
  | unrecognized => exact Laws.EncodeSane.unrecognized _ _ _ _ hw
  | featureAbortTx => exact Laws.EncodeSane.featureAbortTx _ _ _ _ hw
  | imageViewOnTx => exact Laws.EncodeSane.imageViewOnTx _ _ hw
  | setOsdNameTx => exact Laws.EncodeSane.setOsdNameTx _ _ _ hw
  | setSystemAudioModeTx => exact Laws.EncodeSane.setSystemAudioModeTx _ _ _ hw
  | reportAudioStatusTx => exact Laws.EncodeSane.reportAudioStatusTx _ _ _ hw
  | systemAudioModeStatusTx => exact Laws.EncodeSane.systemAudioModeStatusTx _ _ _ hw
  | activeSourceTx => exact Laws.EncodeSane.activeSourceTx _ _ _ _ hw
  | reportPhysicalAddressTx => exact Laws.EncodeSane.reportPhysicalAddressTx _ _ _ _ _ hw
  | deviceVendorIdTx => exact Laws.EncodeSane.deviceVendorIdTx _ _ _ _ _ hw
  | menuStatusTx => exact Laws.EncodeSane.menuStatusTx _ _ _ hw
  | reportPowerStatusTx => exact Laws.EncodeSane.reportPowerStatusTx _ _ _ hw
  | cecVersionTx => exact Laws.EncodeSane.cecVersionTx _ _ _ hw
  | pollTx => rfl
  | _ => exact Laws.EncodeSane.of_rx hw

theorem wellFormed_unrecognized (hw : (Instr.unrecognized init dest op ops).wellFormed = true) :
    op ∉ rxOpcodes := by
  simp only [Instr.wellFormed, Bool.and_eq_true] at hw
  simpa using hw.2

theorem wellFormed_setOsdNameTx {name : List Byte} (hw : (Instr.setOsdNameTx init dest name).wellFormed = true) :
    name = osdName := by
  simp only [Instr.wellFormed, Bool.and_eq_true, decide_eq_true_eq] at hw
  exact hw.2

end Codec

/-! ### The obligations -/

/-- Settles O2: the frame is sane, and its opcode's row is the instruction's own. -/
theorem decodeEncode : Obligations.DecodeEncode := by
  intro i hw
  have hs := encode_sane hw
  cases i with
  | poll => exact decode_rx_header
  | pollTx => exact decode_tx_header_eq_ok.2 ⟨rfl, rfl⟩
  | unrecognized =>
    exact decode_message_eq_ok.2 ⟨hs, congrArg _ (rxRow_unrecognized _ _ _ (wellFormed_unrecognized hw))⟩
  | setOsdNameTx =>
    cases wellFormed_setOsdNameTx hw
    exact decode_message_eq_ok.2 ⟨hs, rfl⟩
  | _ => exact decode_message_eq_ok.2 ⟨hs, rfl⟩

/-- Settles O3: a poll by its one byte, a longer frame by the row of its opcode. -/
theorem encodeDecode : Obligations.EncodeDecode := by
  intro dir bytes i h
  match bytes with
  | [] => cases dir <;> cases h
  | [b] =>
    obtain ⟨init, dest, rfl⟩ := exists_header b
    cases dir with
    | rx =>
      cases decode_rx_header.symm.trans h
      exact ⟨rfl, rfl, fun _ => rfl⟩
    | tx =>
      obtain ⟨rfl, rfl⟩ := decode_tx_header_eq_ok.1 h
      exact ⟨rfl, rfl, nofun⟩
  | b :: op :: ops =>
    obtain ⟨init, dest, rfl⟩ := exists_header b
    obtain ⟨hs, hr⟩ := decode_message_eq_ok.1 h
    obtain ⟨hd, he, hw⟩ := rowOf_eq_ok hr
    obtain ⟨hl, hn⟩ := sane_message_iff.1 hs
    exact ⟨hd, he, fun hx => by simp [hw hx, rxWellFormed, hl, hn]⟩

/-- Settles O4: the sanity limits written out, and the decoder's two checks are theirs. -/
theorem saneFramesDecode : Obligations.SaneFramesDecode := by
  refine fun bytes => ⟨?_, decode_rx_of_sane, fun ⟨_, h⟩ => sane_of_decode h⟩
  match bytes with
  | [] => simp [sane]
  | [b] => simp [sane]
  | b :: op :: ops => simp [sane, maxFrame]

/-- Settles O5: each frame is closed, and the decoder computes. -/
theorem decodeWords : Obligations.DecodeWords := by
  unfold Obligations.DecodeWords
  decide

end Sys2Proof.Machine
end

section
/-! PROOF. The transmitted rows: the request each sets up, the fault of a send out of turn, and their frame
(40_bit_timing_driver R105, R106, R108, 41_frame_codec R129, 43_protocol_engine R147, R157). -/

namespace Sys2Proof.Machine

section Sending

variable {s : State} {i : Instr} {bytes : List Byte}

/-- The state in which `send_frame` waits: the request is set up and the wait for a free bus begun (40 R105, R108). -/
def sendBegun (bytes : List Byte) (s : State) : State :=
  beginWait (updDrv (fun d => { d with
    txBuf := memStore d.txBuf 0 bytes, txLen := bytes.length, txResult := TxResult.none, txUsedBus := false,
    txAttempt := 1, txFreeReq := freeSelect .first s }) s)

/-- What the end of the send's wait leaves to do: a message meets the loop test of `tx`, a poll does not (43 R147). -/
def loopTest : Instr → List Act
  | .pollTx _ => []
  | i => [.txLoop (encode i) 1]

theorem codecSend_begins (hs : sane bytes = true) (he : s.drv.enabled = true) (hp : s.drv.txPhase = .idle) :
    codecSend bytes s = .ok ([.sendWait], sendBegun bytes s) :=
  codecSend_sane hs (sendFrame_ok bytes he hp)

theorem codecSend_busy (hs : sane bytes = true) (h : ¬(s.drv.enabled = true ∧ s.drv.txPhase = .idle)) :
    codecSend bytes s = .error .txBusy := by
  simp [codecSend, hs, sendFrame_busy bytes h]

/-- When the wait of a first attempt ends if no edge comes before (40 R106, R107). -/
theorem waitDeadline_first (s : State) :
    waitDeadline (updDrv (fun d => { d with
      txFreeReq := freeSelect .first s, txWaitStart := s.now, txPhase := .wait }) s) =
      if s.drv.lineLevel = .high then
        min (s.drv.tLastEdge + if s.drv.justTransmitted then 7200 else 16800) (s.now + s.par.sendIdleTimeoutUs)
      else s.now + s.par.sendIdleTimeoutUs := by
  simp only [waitDeadline, freeSelect, updDrv_drv, updDrv_par]
  cases s.drv.justTransmitted <;> rfl

/-- The driver once a send has begun. -/
theorem sendBegun_drv : (sendBegun bytes s).drv = { s.drv with
    txBuf := memStore s.drv.txBuf 0 bytes, txLen := bytes.length, txResult := ⟨false, false, false⟩,
    txUsedBus := false, txAttempt := 1, txFreeReq := if s.drv.justTransmitted then .afterTx else .first,
    txWaitStart := s.now, txPhase := .wait
    alarmTx := some
      (if s.drv.lineLevel = .high then
        min (s.drv.tLastEdge + if s.drv.justTransmitted then 7200 else 16800) (s.now + s.par.sendIdleTimeoutUs)
       else s.now + s.par.sendIdleTimeoutUs) } := by
  rw [← waitDeadline_first s]
  rfl

/-- Outside the driver the begin of a send writes only when the wait's alarm was armed. -/
theorem sendBegun_eq : sendBegun bytes s = { s with armedTx := s.now, drv := (sendBegun bytes s).drv } := rfl

/-! ### The rows -/

/-- A transmitted row hands its frame to the codec, and a message meets the loop test when its send has ended. -/
theorem exec_codecSend (hd : i.direction = .tx) (hw : ¬withheld i s) :
    exec i s = ofEngine ((codecSend (encode i) s).map fun p => (p.1 ++ loopTest i, p.2)) := by
  obtain ⟨c, rfl, e⟩ | ⟨hn, e⟩ := exec_transmitted hd hw
  · rw [e]
    cases codecSend (encode (.pollTx c)) s <;> simp [Except.map, loopTest]
  · have hl : loopTest i = [.txLoop (encode i) 1] := by
      unfold loopTest
      split
      · exact absurd rfl (hn _)
      · rfl
    rw [e, hl, transmit, txCall]
    cases codecSend (encode i) s <;> rfl

theorem exec_begins (hd : i.direction = .tx) (hw : ¬withheld i s) (hs : sane (encode i) = true)
    (he : s.drv.enabled = true) (hp : s.drv.txPhase = .idle) :
    exec i s = .next (pushActs (.sendWait :: loopTest i) (sendBegun (encode i) s)) := by
  rw [exec_codecSend hd hw, codecSend_begins hs he hp]
  rfl

theorem exec_busy (hd : i.direction = .tx) (hw : ¬withheld i s) (hs : sane (encode i) = true)
    (h : ¬(s.drv.enabled = true ∧ s.drv.txPhase = .idle)) : exec i s = .fault .txBusy := by
  rw [exec_codecSend hd hw, codecSend_busy hs h]
  rfl

theorem exec_insane (hd : i.direction = .tx) (hw : ¬withheld i s) (hs : sane (encode i) = false) :
    exec i s = .next (pushActs (loopTest i)
      (updEng (fun e => { e with ret := TxResult.none }) (record (.codecReject (encode i)) s))) := by
  rw [exec_codecSend hd hw, codecSend_insane hs]
  rfl

theorem exec_withheld (hw : withheld i s) : exec i s = .next (record .noPa s) := by
  cases i with
  | reportPhysicalAddressTx => exact if_pos hw
  | _ => exact hw.elim

end Sending

/-- Settles O35: the row begins its send, and the registers are those of the request. -/
theorem transmitBeginsSend : Obligations.TransmitBeginsSend := by
  intro i s hd hw hs he hp
  refine ⟨_, exec_begins hd hw hs he hp, ?_⟩
  simp only [pushActs_drv, sendBegun_drv, true_and]
  refine ⟨memGet_memStore_zero _ _, ?_⟩
  cases i <;> rfl

/-- Settles O37: of the row's four outcomes only the send out of turn is a fault. -/
theorem busySendFaults : Obligations.BusySendFaults := by
  intro i s f hd
  by_cases hw : withheld i s
  · simp [exec_withheld hw, hw]
  cases hs : sane (encode i) with
  | false => simp [exec_insane hd hw hs]
  | true =>
    by_cases hr : s.drv.enabled = true ∧ s.drv.txPhase = .idle
    · simp [exec_begins hd hw hs hr.1 hr.2, hr]
    · simpa [exec_busy hd hw hs hr, hw, hr] using eq_comm

/-- A row that sends nothing keeps to its frame: it records why, and its position moves. -/
theorem txRowFrame_unsent {i : Instr} {s t : State} (h : sane (encode i) = false ∨ withheld i s)
    (ht : t = { s with err := t.err, eng := { s.eng with todo := t.eng.todo, ret := t.eng.ret } }) :
    TxRowFrame i s t := by
  have not_both (hs : sane (encode i) = true) (hw : ¬withheld i s) : False := h.elim (by simp [hs]) hw
  generalize t.err = err, t.eng.todo = todo, t.eng.ret = ret at ht
  subst ht
  exact {
    now := rfl, edges := rfl, armedAck := rfl, armedTx := .inl rfl, cfg := rfl, par := rfl, env := rfl, keyq := rfl
    ind := rfl, err := fun hs hw => (not_both hs hw).elim, eng := rfl, drv := rfl, refused := fun _ => ⟨rfl, rfl⟩
    rxBuf := fun _ => rfl, mbBuf := fun _ => rfl, fbuf := fun _ => rfl, keyMap := fun _ => rfl
    stored := fun hs hw => (not_both hs hw).elim }

/-- A row that begins its send keeps to its frame: the request, its wait, and the bytes of the frame. -/
theorem txRowFrame_sent {i : Instr} {s : State} {acts : List Act} (hs : sane (encode i) = true) (hw : ¬withheld i s) :
    TxRowFrame i s (pushActs acts (sendBegun (encode i) s)) := by
  rw [sendBegun_eq, sendBegun_drv]
  constructor
  case armedTx => exact .inr rfl
  case err => exact fun _ _ => rfl
  case refused => exact fun h => absurd h (by simp [hs, hw])
  case rxBuf | mbBuf | fbuf | keyMap => exact fun _ => rfl
  case stored => exact fun _ _ => memGet_memStore_zero _ _
  all_goals rfl

/-- Settles O38: the row sends, or it is refused or withheld. -/
theorem transmittedRowFrames : Obligations.TransmittedRowFrames := by
  intro i s t hd h
  by_cases hw : withheld i s
  · cases (exec_withheld hw).symm.trans h
    exact txRowFrame_unsent (.inr hw) rfl
  cases hs : sane (encode i) with
  | false =>
    cases (exec_insane hd hw hs).symm.trans h
    exact txRowFrame_unsent (.inl hs) rfl
  | true =>
    by_cases hr : s.drv.enabled = true ∧ s.drv.txPhase = .idle
    · cases (exec_begins hd hw hs hr.1 hr.2).symm.trans h
      exact txRowFrame_sent hs hw
    · cases (exec_busy hd hw hs hr).symm.trans h

end Sys2Proof.Machine
end

section
/-! PROOF. The engine's waits and its loop: the end of a send and the retry of `tx`, the receive loop, and the startup
(40_bit_timing_driver R89, R105, R123, 41_frame_codec R130, R131, 43_protocol_engine R143, R144, R147). -/

namespace Sys2Proof.Machine

section EngineLoop

variable {s : State} {a : Act} {rest : List Act} {bytes : List Byte}

/-- Inside a rule the engine can step when its next action can go on (60 R207). -/
theorem engineReady_act (h : s.eng.todo = a :: rest) : engineReady s = actReady a s := by
  simp only [engineReady, h]

/-- In `E_SETTLE` it can step once the settle time is over (43 R143). -/
theorem engineReady_settle (h : s.eng.todo = []) (hc : s.eng.ctl = .settle) :
    engineReady s = decide (settleDeadline s ≤ s.now) := by
  simp only [engineReady, h, hc]

/-- Between two rules the step is that of the engine's control state (43 R143, R144). -/
theorem engineStep_settle (h : s.eng.todo = []) (hc : s.eng.ctl = .settle) : engineStep s = .next (setCtl .init s) := by
  simp only [engineStep, h, hc]

theorem engineStep_init (h : s.eng.todo = []) (hc : s.eng.ctl = .init) :
    engineStep s = .next (setTodo [.enable] (drvPrepare s)) := by
  simp only [engineStep, h, hc]

theorem engineStep_pa (h : s.eng.todo = []) (hc : s.eng.ctl = .pa) :
    engineStep s = .next (setCtl .la (obtainPa s)) := by
  simp only [engineStep, h, hc]

theorem engineStep_la (h : s.eng.todo = []) (hc : s.eng.ctl = .la) : engineStep s = .next (engAllocate s) := by
  simp only [engineStep, h, hc]

theorem engineStep_recv (h : s.eng.todo = []) (hc : s.eng.ctl = .recv) : engineStep s = engReceive s := by
  simp only [engineStep, h, hc]

theorem engineStep_dispatch (h : s.eng.todo = []) (hc : s.eng.ctl = .dispatch) : engineStep s = .next (enterRecv s) := by
  simp only [engineStep, h, hc]

/-- The wait for a send that has ended returns the driver's result, and the rule goes on (40 R105). -/
theorem engineStep_sendWait (h : s.eng.todo = .sendWait :: rest) (hv : s.drv.evTx = true) :
    engineStep s = runActs rest
      { s with drv := { s.drv with evTx := false }, eng := { s.eng with ret := s.drv.txResult, todo := [] } } := by
  simp only [engineStep, h]
  refine runFrom_done ?_
  simp only [runAct, sendWaitStep, waitFlag, setTodo_drv, hv]
  rfl

/-- `tx` sends again after arbitration loss, a direct frame, up to five calls (43 R147). -/
theorem txAgain_iff (calls : Nat) :
    txAgain bytes calls s = true ↔
      s.eng.ret.arbitrationLost = true ∧ (∃ b bs, bytes = b :: bs ∧ headerDest b ≠ 15#4) ∧ calls < 5 := by
  cases bytes with
  | nil => simp [txAgain]
  | cons b bs =>
    have direct : (∃ b' bs', b :: bs = b' :: bs' ∧ headerDest b' ≠ 15#4) ↔ headerDest b ≠ laBroadcast := by
      simp [laBroadcast]
    simp only [txAgain, direct, Bool.and_eq_true, decide_eq_true_eq, and_assoc]
    exact Iff.rfl

/-- The loop test that fails ends `tx` (43 R147). -/
theorem engineStep_txLoop_done {calls : Nat} (h : s.eng.todo = .txLoop bytes calls :: rest)
    (hn : txAgain bytes calls s = false) : engineStep s = runActs rest { s with eng := { s.eng with todo := [] } } := by
  simp only [engineStep, h]
  refine runFrom_done (s1 := setTodo [] s) ?_
  exact if_neg (Bool.not_eq_true _ ▸ hn)

/-- The loop test that succeeds sends the same bytes as the next call (43 R147). -/
theorem engineStep_txLoop_again {calls : Nat} (h : s.eng.todo = .txLoop bytes calls :: rest)
    (ha : txAgain bytes calls s = true) (hs : sane bytes = true) (he : s.drv.enabled = true)
    (hp : s.drv.txPhase = .idle) :
    engineStep s =
      .next (pushActs (.sendWait :: .txLoop bytes (calls + 1) :: rest) (sendBegun bytes (setTodo [] s))) := by
  simp only [engineStep, h]
  refine runFrom_stop (more := [.sendWait, .txLoop bytes (calls + 1)]) ?_
  have hb : codecSend bytes (setTodo [] s) = .ok ([.sendWait], sendBegun bytes (setTodo [] s)) :=
    codecSend_begins hs he hp
  simp only [runAct, txCall, hb]
  exact if_pos ha

/-! ### The receive loop (40 R123, 43 R144) -/

/-- With a frame in the mailbox it is copied out, with its ACK bits, and the step ends (40 R123, 60 R202). -/
theorem engineStep_copyOut (h : s.eng.todo = []) (hc : s.eng.ctl = .recv) (hm : s.drv.mbFull = true)
    (hb : bufTake s.drv.mbBuf s.drv.mbLen s.drv.mbLen = .ok bytes) :
    engineStep s = .next { s with
      drv := { s.drv with mbFull := false }
      eng := { s.eng with
        fbuf := memStore s.eng.fbuf 0 bytes, fackbits := s.drv.mbAckbit, todo := [.received bytes.length] } } := by
  rw [engineStep_recv h hc, engReceive, if_pos hm, copyOut, hb]
  rfl

/-- With none the engine waits for one (40 R123). -/
theorem engineStep_emptyMailbox (h : s.eng.todo = []) (hc : s.eng.ctl = .recv) (hm : s.drv.mbFull = false) :
    engineStep s = .next { s with eng := { s.eng with todo := [.recvWait] } } := by
  rw [engineStep_recv h hc, engReceive, if_neg (by simp [hm])]
  rfl

/-- A received frame that is not sane is dropped, and the engine is at the loop's beginning again (41 R130). -/
theorem engineStep_received_insane {n : Nat} (h : s.eng.todo = .received n :: rest)
    (hb : bufTake s.eng.fbuf n n = .ok bytes) (hs : sane bytes = false) :
    engineStep s = .next { s with
      drv := { s.drv with selfLa := s.eng.selfLa }
      eng := { s.eng with ctl := .recv, fbuf := [], flen := 0, todo := rest }
      err := s.err ++ [(s.now, .codecReject bytes)] } := by
  simp only [engineStep, h]
  exact engReceived_insane (s := setTodo rest s) hb hs

/-- The wait for a frame ends once its flag is set, and the rest goes on (40 R123, 60 R206). -/
theorem engineStep_recvWait (h : s.eng.todo = .recvWait :: rest) (hv : s.drv.evRx = true) :
    engineStep s = runActs rest
      { s with drv := { s.drv with evRx := false }, eng := { s.eng with todo := [] } } := by
  simp only [engineStep, h]
  refine runFrom_done ?_
  simp only [runAct, recvWaitStep, waitFlag, setTodo_drv, hv]
  rfl

/-- The frame record of a frame in `ENG.fbuf` (41 R131). -/
theorem frameRecord_eq {b : Byte} (hb : bufTake s.eng.fbuf s.eng.flen s.eng.flen = .ok (b :: bytes)) :
    frameRecord s = .ok
      { len := s.eng.flen, init := headerInit b, dest := headerDest b, isPoll := decide (s.eng.flen = 1),
        bytes := b :: bytes, operands := bytes.drop 1, ackbits := s.eng.fackbits, direction := .rx } := by
  simp only [frameRecord, hb]

/-! ### Startup (43 R143) -/

/-- The startup gives up the logical address; then a configured one is claimed, or the first candidate polled, before
the loop is entered (42 R138). -/
theorem engineStep_allocates (h : s.eng.todo = []) (hc : s.eng.ctl = .la) :
    engineStep s = .next { s with
      drv := { s.drv with selfLa := 15#4 }
      eng := { s.eng with
        selfLa := 15#4
        todo :=
          if 1 ≤ s.cfg.la.toNat ∧ s.cfg.la.toNat ≤ 14 then [.claim (BitVec.ofNat 4 s.cfg.la.toNat), .enterLoop]
          else if candidate s.cfg.deviceType 0 = laBroadcast then [.enterLoop]
          else [.instr (.pollTx (candidate s.cfg.deviceType 0)), .verdict (candidate s.cfg.deviceType 0) 0,
            .enterLoop] } } := by
  rw [engineStep_la h hc, engAllocate, allocateBegin_eq]
  simp only [laOverride_iff]
  by_cases hl : 1 ≤ s.cfg.la.toNat ∧ s.cfg.la.toNat ≤ 14
  · rw [if_pos hl, if_pos hl]
    rfl
  rw [if_neg hl, if_neg hl]
  by_cases hf : candidate s.cfg.deviceType 0 = laBroadcast
  · rw [if_pos hf, if_pos hf]
    rfl
  · rw [if_neg hf, if_neg hf]
    rfl

/-- The address obtained is the configured one, else the EDID reader's answer (42 R136). -/
theorem obtainPa_configured (h : s.cfg.pa ≠ 0#16) :
    obtainPa s = { s with eng := { s.eng with selfPa := s.cfg.pa } } := by
  simp only [obtainPa, derivePa, if_pos h]
  rfl

theorem obtainPa_queued {pa : Pa} {edid : List Pa} (h : s.cfg.pa = 0#16) (hq : s.env.edid = pa :: edid) :
    obtainPa s = { s with eng := { s.eng with selfPa := pa }, env := { s.env with edid := edid } } := by
  simp only [obtainPa, derivePa, h, drawEdid, hq]
  rfl

/-- The prepared driver: the line is released and every register of a send or a frame in progress is cleared (40
R89). -/
theorem drvPrepare_drv : (drvPrepare s).drv = { s.drv with
    drive := .released, lineLevel := (if s.env.extLow then .low else .high), tLastEdge := s.now,
    rxState := .idle, rxLen := 0, rxAcking := false, txPhase := .idle, mbFull := false, evRx := false,
    evTx := false, justTransmitted := false, alarmTx := none, alarmAck := none } := by
  simp [drvPrepare, lineNow, lineLevel]

theorem drvPrepare_eng : (drvPrepare s).eng = s.eng := by
  simp [drvPrepare]

end EngineLoop

/-- Settles O39: the wait, and the two outcomes of the loop test. -/
theorem sendEndsAndRetries : Obligations.SendEndsAndRetries := by
  refine ⟨fun rest s h => ⟨fun hv => ?_, fun hv => ⟨?_, engineStep_sendWait h hv⟩⟩, fun bytes calls rest s h => ?_⟩
  · exact (engineReady_act h).trans hv
  · exact (engineReady_act h).trans hv
  · refine ⟨engineReady_act h, fun hn => engineStep_txLoop_done h ?_, fun ha hs he hp =>
      ⟨_, engineStep_txLoop_again h ((txAgain_iff calls).2 ha) hs he hp, by simp [sendBegun], ?_⟩⟩
    · rwa [← txAgain_iff, Bool.not_eq_true] at hn
    · simp only [pushActs_drv, sendBegun_drv, true_and]
      intro k hk
      rw [memGet_memStore_zero, if_pos hk]

/-- Settles O8: one law for each position of the engine in the loop. -/
theorem receiveLoop : Obligations.ReceiveLoop := by
  intro s rest b bytes
  refine ⟨fun h hc => ?_, engineStep_copyOut, fun n h => ⟨engineReady_act h, engineStep_received_insane h⟩,
    engineStep_emptyMailbox, fun h hv => (engineReady_act h).trans hv,
    fun h hv => ⟨(engineReady_act h).trans hv, engineStep_recvWait h hv⟩, frameRecord_eq, fun h hc => ?_⟩
  · obtain hc | hc := hc <;> simp only [engineReady, h, hc]
  · exact engineStep_dispatch h hc

/-- Settles O41: one law for each point of the startup. -/
theorem startupSequence : Obligations.StartupSequence := by
  intro s h
  refine ⟨fun hc hn => ?_, fun hc hn => ?_, fun hc => ?_, fun hc => ?_, fun hc => ?_, rfl, fun hc => ?_,
    engineStep_allocates h⟩
  · exact (engineReady_settle h hc).trans (decide_eq_false (Nat.not_le_of_lt hn))
  · exact (engineReady_settle h hc).trans (decide_eq_true hn)
  · exact engineStep_settle h hc
  · obtain hc | hc | hc := hc <;> simp only [engineReady, h, hc]
  · refine ⟨setTodo [.enable] (drvPrepare s), engineStep_init h hc, ?_, drvPrepare_drv⟩
    rw [setTodo_eng, drvPrepare_eng]
  · refine ⟨_, engineStep_pa h hc, rfl, fun hp => ?_, fun pa rest hp hq => ?_⟩
    · rw [obtainPa_configured hp]
      rfl
    · rw [obtainPa_queued hp hq]
      rfl

end Sys2Proof.Machine
end

section
/-! PROOF. The receiver and the send: an edge's receive path neither reads nor writes the send's registers, so an edge
while a send waits does to the receiver what it does with no send (40_bit_timing_driver R90, R107, R109). -/

namespace Sys2Proof.Machine

/-- The driver's registers that a wait for the bus reads, replaced by those of `d` (40 R107 to R109). -/
def withSend (d : Drv) (s : State) : State :=
  { s with drv := { s.drv with
      lineLevel := d.lineLevel, tLastEdge := d.tLastEdge, txPhase := d.txPhase, txWaitStart := d.txWaitStart,
      txFreeReq := d.txFreeReq } }

/-- A function of a choice, where each branch is known. -/
theorem apply_ite_eq {α β : Type} {c : Prop} [Decidable c] {f : α → β} {a b : α} {a' b' : β} (ha : f a = a')
    (hb : f b = b') : f (if c then a else b) = if c then a' else b' := by
  rw [apply_ite f, ha, hb]

section ReceiverApart

variable {s u : State} {t : Micros} {lvl : Level} (d : Drv)

theorem withSend_setDrive (drive : Drive) (s : State) :
    withSend d (setDrive drive s) = setDrive drive (withSend d s) := apply_ite_eq rfl rfl

theorem withSend_rxDropAck (s : State) : withSend d (rxDropAck s) = rxDropAck (withSend d s) :=
  congrArg (updDrv fun e => { e with rxAcking := false }) (withSend_setDrive d .released s)

theorem withSend_rxMalformed (s : State) : withSend d (rxMalformed lvl t s) = rxMalformed lvl t (withSend d s) := by
  have released (s1 : State) :
      withSend d (if s1.drv.rxAcking then cancel .ack (rxDropAck s1) else s1) =
        if s1.drv.rxAcking then cancel .ack (rxDropAck (withSend d s1)) else withSend d s1 :=
    apply_ite_eq (congrArg (cancel .ack) (withSend_rxDropAck d s1)) rfl
  have h := released (updDrv (fun e => { e with rxLen := 0 }) s)
  cases lvl with
  | low => exact congrArg (fun s2 => record (.malformed t)
      (updDrv (fun e => { e with rxTFall := t, rxState := .startLow }) s2)) h
  | high => exact congrArg (fun s2 => record (.malformed t) (updDrv (fun e => { e with rxState := .idle }) s2)) h

theorem withSend_rxEnterCell (s : State) : withSend d (rxEnterCell t s) = rxEnterCell t (withSend d s) := by
  refine apply_ite_eq ?_ rfl
  exact congrArg (fun s2 => arm .ack (t + tZeroLow) (updDrv (fun e => { e with rxAcking := true }) s2))
    (withSend_setDrive d .low (updDrv (fun e => { e with rxTFall := t, rxState := .bitLow }) s))

theorem withSend_rxStartLowRise (s : State) : withSend d (rxStartLowRise t s) = rxStartLowRise t (withSend d s) :=
  apply_ite_eq rfl (withSend_rxMalformed d s)

theorem withSend_rxStartHighFall (s : State) : withSend d (rxStartHighFall t s) = rxStartHighFall t (withSend d s) :=
  apply_ite_eq rfl (withSend_rxMalformed d s)

theorem withSend_rxBitHighFall (s : State) : withSend d (rxBitHighFall t s) = rxBitHighFall t (withSend d s) :=
  apply_ite_eq
    (apply_ite_eq (apply_ite_eq rfl (withSend_rxEnterCell d _)) (withSend_rxEnterCell d _))
    (withSend_rxMalformed d s)

theorem withSend_rxAckDecision (s : State) : (rxAckDecision s).map (withSend d) = rxAckDecision (withSend d s) := by
  unfold rxAckDecision
  simp only [withSend]
  cases bufRead s.drv.rxBuf s.drv.rxLen 0 <;> rfl

theorem withSend_rxByteComplete (s : State) :
    (rxByteComplete s).map (withSend d) = rxByteComplete (withSend d s) := by
  cases h : bufWrite s.drv.rxBuf s.drv.rxLen s.drv.rxShift with
  | error _ => simp only [rxByteComplete, withSend, h, Except.map]
  | ok m =>
    have stored (x : State) (hx : bufWrite x.drv.rxBuf x.drv.rxLen x.drv.rxShift = .ok m) : rxByteComplete x =
        let s1 := updDrv (fun e => { e with rxBuf := m, rxLen := e.rxLen + 1 }) x
        if s1.drv.rxLen = 1 then rxAckDecision s1 else .ok s1 := by
      rw [rxByteComplete, hx]
    rw [stored s h, stored (withSend d s) h]
    exact apply_ite_eq (withSend_rxAckDecision d _) rfl

theorem withSend_rxDeliver (s : State) : (rxDeliver s).map (withSend d) = rxDeliver (withSend d s) := by
  refine apply_ite_eq rfl ?_
  simp only [withSend]
  cases bufTake s.drv.rxBuf s.drv.rxLen s.drv.rxLen <;> rfl

/-- Two changes of the state that commute do so through an answer. -/
theorem map_comm (f g : State → State) (h : ∀ x, f (g x) = g (f x)) (r : Except Fault State) :
    (r.map g).map f = (r.map f).map g := by
  cases r with
  | error _ => rfl
  | ok x => exact congrArg Except.ok (h x)

theorem withSend_rxFrameComplete (s : State) :
    (rxFrameComplete s).map (withSend d) = rxFrameComplete (withSend d s) := by
  cases h : bufRead s.drv.rxBuf s.drv.rxLen 0 with
  | error _ => simp only [rxFrameComplete, withSend, h, Except.map]
  | ok b =>
    have ended (x : State) (hx : bufRead x.drv.rxBuf x.drv.rxLen 0 = .ok b) : rxFrameComplete x =
        let s1 := updDrv (fun e => { e with rxState := .idle }) x
        (if s1.drv.rxAckOwed || isBroadcast (headerDest b) then rxDeliver s1 else .ok s1).map
          (updDrv fun e => { e with rxLen := 0 }) := by
      rw [rxFrameComplete, hx]
      dsimp only
      split <;> (rename_i e; rw [e]; rfl)
    rw [ended s h, ended (withSend d s) h]
    refine (map_comm (withSend d) (updDrv fun e => { e with rxLen := 0 }) (fun _ => rfl) _).trans ?_
    exact congrArg (Except.map _) (apply_ite_eq (f := Except.map (withSend d)) (withSend_rxDeliver d _) rfl)

theorem withSend_rxDataBit (b : Bool) (s : State) : (rxDataBit b s).map (withSend d) = rxDataBit b (withSend d s) := by
  refine apply_ite_eq ?_ rfl
  exact (map_comm (withSend d) rxCellHigh (fun _ => rfl) _).trans
    (congrArg (Except.map rxCellHigh) (withSend_rxByteComplete d (rxShiftIn b s)))

theorem withSend_rxAckBit (b : Bool) (s : State) : (rxAckBit b s).map (withSend d) = rxAckBit b (withSend d s) := by
  unfold rxAckBit
  have h : (withSend d s).drv.rxLen = s.drv.rxLen := rfl
  rw [h]
  cases s.drv.rxLen with
  | zero => rfl
  | succ n => exact apply_ite_eq (withSend_rxFrameComplete d _) rfl

theorem withSend_rxTakeBit (b : Bool) (s : State) : (rxTakeBit b s).map (withSend d) = rxTakeBit b (withSend d s) :=
  apply_ite_eq (withSend_rxDataBit d b s) (apply_ite_eq rfl (withSend_rxAckBit d b s))

theorem withSend_rxBitLowRise (s : State) : (rxBitLowRise t s).map (withSend d) = rxBitLowRise t (withSend d s) := by
  unfold rxBitLowRise
  have h : classifyLow (t - (withSend d s).drv.rxTFall) = classifyLow (t - s.drv.rxTFall) := rfl
  rw [h]
  cases classifyLow (t - s.drv.rxTFall) with
  | bit b => exact withSend_rxTakeBit d b s
  | start => rfl
  | bad => exact congrArg Except.ok (withSend_rxMalformed d s)

/-- The receive path neither reads nor writes the send's registers. -/
theorem withSend_rxDispatch (s : State) : (rxDispatch t lvl s).map (withSend d) = rxDispatch t lvl (withSend d s) := by
  unfold rxDispatch
  have h : (withSend d s).drv.rxState = s.drv.rxState := rfl
  rw [h]
  cases s.drv.rxState <;> cases lvl
  case idle.high | idle.low => rfl
  case startLow.high => exact congrArg Except.ok (withSend_rxStartLowRise d s)
  case startHigh.low => exact congrArg Except.ok (withSend_rxStartHighFall d s)
  case bitLow.high => exact withSend_rxBitLowRise d s
  case bitHigh.low => exact congrArg Except.ok (withSend_rxBitHighFall d s)
  all_goals exact congrArg Except.ok (withSend_rxMalformed d s)

/-- It leaves them as they are. -/
theorem rxDispatch_keepsSend (h : rxDispatch t lvl s = .ok u) : withSend s.drv u = u := by
  have hs : withSend s.drv s = s := rfl
  have hw := withSend_rxDispatch (t := t) (lvl := lvl) s.drv s
  rw [hs, h] at hw
  exact Except.ok.inj hw

/-- With no send in progress an edge is the receiver's alone (40 R90). -/
theorem edgeIsr_eq_rxDispatch (he : s.drv.enabled = true) (hp : s.drv.txPhase = .idle) :
    edgeIsr t lvl s = rxDispatch t lvl (clearJustTransmitted lvl (noteLine t lvl s)) := by
  rw [edgeIsr_receiving he (by rw [hp]; rfl)]
  cases h : rxDispatch t lvl (clearJustTransmitted lvl (noteLine t lvl s)) with
  | error _ => rfl
  | ok u =>
    have hu : u.drv.txPhase = .idle := by
      rw [← rxDispatch_keepsSend h]
      cases lvl <;> exact hp
    exact congrArg Except.ok (if_neg (by simp [hu]))

/-- While a send waits for the bus, what the receiver made of an edge, with the wait's alarm armed again (40 R109). -/
theorem txRearmWait_withSend (hw : d.txPhase = .wait) :
    txRearmWait (withSend d s) =
      { withSend d s with
        armedTx := s.now
        drv := { (withSend d s).drv with alarmTx := some (waitDeadline (withSend d s)) } } :=
  if_pos hw

end ReceiverApart

/-- Settles O43: the receiver's part is the same, and the wait's deadline is read from registers it leaves alone. -/
theorem edgeWhileWaiting : Obligations.EdgeWhileWaiting := by
  intro t lvl s he hp need late
  let s0 : State := { s with drv := { s.drv with txPhase := .idle } }
  let r (x : State) : State := clearJustTransmitted lvl (noteLine t lvl x)
  let d : Drv := { (r s0).drv with txPhase := .wait }
  have hr : r s = withSend d (r s0) := by
    cases lvl <;> simp only [r, d, s0, withSend, clearJustTransmitted, noteLine, updDrv, ← hp]
  have h1 : edgeIsr t lvl s = (rxDispatch t lvl (r s)).map txRearmWait :=
    edgeIsr_receiving he (by rw [hp]; rfl) t lvl
  have h0 : edgeIsr t lvl s0 = rxDispatch t lvl (r s0) := edgeIsr_eq_rxDispatch he rfl
  rw [h1, hr, ← withSend_rxDispatch, h0]
  cases h : rxDispatch t lvl (r s0) with
  | error _ => rfl
  | ok v =>
    have hf := rxDispatch_frame h
    have hnow : v.now = s.now := hf.now.trans (by cases lvl <;> rfl)
    have hpar : v.par = s.par := hf.par.trans (by cases lvl <;> rfl)
    have hd : d.lineLevel = lvl ∧ d.tLastEdge = t ∧ d.txFreeReq = s.drv.txFreeReq ∧
        d.txWaitStart = s.drv.txWaitStart := by cases lvl <;> exact ⟨rfl, rfl, rfl, rfl⟩
    have hdead : waitDeadline (withSend d v) = if lvl = .high then min (t + need) late else late := by
      obtain ⟨hl, ht, hq, hs⟩ := hd
      simp only [waitDeadline, withSend, hl, ht, hq, hs, hpar, freeMicros_eq]
      rfl
    refine congrArg Except.ok ((txRearmWait_withSend d rfl).trans ?_)
    rw [hdead, hnow, ← rxDispatch_keepsSend h]
    rfl

end Sys2Proof.Machine
end

section
/-! PROOF. What an edge does inside a bit cell of an idle driver's receiver: the bit it ends, the cell it begins, the
frame it completes, and the ACK it finds driven (40_bit_timing_driver R95 to R103). -/

namespace Sys2Proof.Machine

section Cells

variable {s u : State} {t : Micros} {b : Bool}

/-! ### The bit a rising edge ends (40 R95 to R97) -/

/-- The end of a cell's low time is a bit taken (40 R95). -/
theorem edgeIsr_bit (he : s.drv.enabled = true) (hp : s.drv.txPhase = .idle) (hs : s.drv.rxState = .bitLow)
    (hc : classifyLow (t - s.drv.rxTFall) = .bit b) : edgeIsr t .high s = rxTakeBit b (noteLine t .high s) := by
  rw [edgeIsr_eq_rxDispatch he hp]
  simp only [rxDispatch, clearJustTransmitted, noteLine, updDrv_drv, hs, rxBitLowRise, hc]

/-- The byte in progress with one more bit at its low end (40 R95, 20_memory R48). -/
def shiftedIn (b : Bool) (byte : Byte) : Byte := (byte <<< 1) ||| (if b then 1#8 else 0#8)

/-- One of the first seven data bits is shifted in (40 R95). -/
theorem rxTakeBit_data (h : s.drv.rxBit < 7) :
    rxTakeBit b s =
      .ok (updDrv (fun d => { d with rxShift := shiftedIn b d.rxShift, rxState := .bitHigh }) s) := by
  rw [rxTakeBit, if_pos (by omega), rxDataBit, if_neg (by omega)]
  rfl

/-- An ACK is owed for a frame to this node's own address (40 R97). -/
theorem ackOwed_eq (dest self : La) : ackOwed dest self = decide (dest = self ∧ self ≠ 15#4) :=
  (Bool.decide_and _ _).symm

/-- The stored byte reads back at its index (10_state R24, 20_memory R46). -/
theorem bufRead_memSet (m : Memory) {n i : Nat} (byte : Byte) (h : i < n) : bufRead (memSet m i byte) n i = .ok byte := by
  simp only [bufRead, if_pos h, memGet_memSet_same]

/-- A complete byte is stored at the frame's length, and the first one decides the ACK (40 R96, R97). -/
theorem rxByteComplete_eq (hl : s.drv.rxLen < 16) :
    rxByteComplete s = .ok (updDrv (fun d => { d with
      rxLen := d.rxLen + 1, rxBuf := memSet d.rxBuf d.rxLen d.rxShift
      rxAckOwed := if d.rxLen = 0 then ackOwed (headerDest d.rxShift) d.selfLa else d.rxAckOwed }) s) := by
  have hw : bufWrite s.drv.rxBuf s.drv.rxLen s.drv.rxShift = .ok (memSet s.drv.rxBuf s.drv.rxLen s.drv.rxShift) :=
    if_pos hl
  rw [rxByteComplete, hw]
  by_cases h0 : s.drv.rxLen = 0
  · have hr : bufRead (memSet s.drv.rxBuf s.drv.rxLen s.drv.rxShift) (s.drv.rxLen + 1) 0 = .ok s.drv.rxShift := by
      rw [h0]
      exact bufRead_memSet _ _ Nat.one_pos
    refine (if_pos (congrArg (· + 1) h0)).trans ?_
    simp only [rxAckDecision, hr, updDrv, if_pos h0]
  · refine (if_neg (mt Nat.succ.inj h0)).trans ?_
    simp only [updDrv, if_neg h0]

/-- The eighth data bit completes the byte (40 R95, R96). -/
theorem rxTakeBit_byte (h : s.drv.rxBit = 7) (hl : s.drv.rxLen < 16) :
    rxTakeBit b s = .ok (updDrv (fun d => { d with
      rxShift := shiftedIn b d.rxShift, rxState := .bitHigh, rxLen := d.rxLen + 1
      rxBuf := memSet d.rxBuf d.rxLen (shiftedIn b d.rxShift)
      rxAckOwed := if d.rxLen = 0 then ackOwed (headerDest (shiftedIn b d.rxShift)) d.selfLa else d.rxAckOwed }) s) := by
  rw [rxTakeBit, if_pos (by omega), rxDataBit, if_pos h, rxByteComplete_eq (s := rxShiftIn b s) hl]
  rfl

/-- The ninth bit is EOM (40 R95). -/
theorem rxTakeBit_eom (h : s.drv.rxBit = 8) :
    rxTakeBit b s = .ok (updDrv (fun d => { d with rxEom := b, rxState := .bitHigh }) s) := by
  rw [rxTakeBit, if_neg (by omega), if_pos h]
  rfl

/-- The tenth is the ACK bit of the byte just stored; EOM 1 makes it the end of the frame (40 R95, R100). -/
theorem rxTakeBit_ack (h : s.drv.rxBit = 9) (hl : 1 ≤ s.drv.rxLen) :
    let s1 := updDrv (fun d => { d with rxAckbit := setAckbit d.rxAckbit (s.drv.rxLen - 1) b }) s
    rxTakeBit b s = if s.drv.rxEom then rxFrameComplete s1 else .ok (rxCellHigh s1) := by
  rw [rxTakeBit, if_neg (by omega), if_neg (by omega), rxAckBit]
  split
  · omega
  · rename_i n hn
    rw [hn]
    rfl

/-! ### The frame a last ACK bit completes (40 R100, R101) -/

/-- A completed frame ends the reception; it is delivered if an ACK is owed or it is a broadcast, and the mailbox is
empty (40 R100, R101). -/
theorem rxFrameComplete_cases {hdr : Byte} (hl : 1 ≤ s.drv.rxLen) (hf : memFilled s.drv.rxBuf s.drv.rxLen)
    (hh : memGet s.drv.rxBuf 0 = some hdr) :
    let accepted := (s.drv.rxAckOwed = true ∨ headerDest hdr = laBroadcast) ∧ s.drv.mbFull = false
    (accepted → ∃ bytes, bytes.length = s.drv.rxLen ∧ (∀ k < s.drv.rxLen, memGet s.drv.rxBuf k = bytes[k]?) ∧
      rxFrameComplete s = .ok (updDrv (fun d => { d with
        rxState := .idle, rxLen := 0, mbBuf := memStore d.mbBuf 0 bytes
        mbAckbit := copyAckbits d.rxLen d.rxAckbit d.mbAckbit, mbLen := d.rxLen, mbFull := true, evRx := true }) s)) ∧
    (¬accepted → rxFrameComplete s = .ok (updDrv (fun d => { d with rxState := .idle, rxLen := 0 }) s)) := by
  intro accepted
  have hr : bufRead s.drv.rxBuf s.drv.rxLen 0 = .ok hdr := by
    rw [bufRead, if_pos (show 0 < s.drv.rxLen from hl), hh]
  have hwanted : (s.drv.rxAckOwed || isBroadcast (headerDest hdr)) = true ↔
      s.drv.rxAckOwed = true ∨ headerDest hdr = laBroadcast := by
    simp only [isBroadcast, Bool.or_eq_true, decide_eq_true_eq]
  let s1 := updDrv (fun d => { d with rxState := .idle }) s
  have hd := rxDeliver_ok (s := s1) hf
  constructor
  · rintro ⟨hw, hm⟩
    obtain ⟨hm', -⟩ | ⟨bytes, hlen, hbytes, e⟩ := hd
    · cases hm.symm.trans hm'
    · refine ⟨bytes, hlen, hbytes, ?_⟩
      rw [rxFrameComplete, hr]
      simp only [updDrv_drv, hwanted.2 hw, if_true]
      rw [e]
      rfl
  · intro hn
    rw [rxFrameComplete, hr]
    by_cases hw : s.drv.rxAckOwed = true ∨ headerDest hdr = laBroadcast
    · have hm : s.drv.mbFull = true := by simpa [accepted, hw] using hn
      simp only [updDrv_drv, hwanted.2 hw, if_true, rxDeliver, hm]
      rfl
    · simp only [updDrv_drv, mt hwanted.1 hw]
      rfl

/-! ### The cell a falling edge begins (40 R98, R103) -/

/-- The end of a cell's high time (40 R98). -/
theorem edgeIsr_low_bitHigh (he : s.drv.enabled = true) (hp : s.drv.txPhase = .idle) (hs : s.drv.rxState = .bitHigh) :
    edgeIsr t .low s = .ok (rxBitHighFall t (clearJustTransmitted .low (noteLine t .low s))) := by
  rw [edgeIsr_eq_rxDispatch he hp]
  simp only [rxDispatch, clearJustTransmitted, noteLine, updDrv_drv, hs]

/-- A new cell that is not the ACK cell of a frame for this node (40 R98). -/
theorem rxEnterCell_plain (h : ¬(s.drv.rxBit = 9 ∧ s.drv.rxAckOwed = true)) :
    rxEnterCell t s = updDrv (fun d => { d with rxTFall := t, rxState := .bitLow }) s := if_neg h

/-- The ACK cell of a frame for this node is driven (40 R98). -/
theorem rxEnterCell_ack_drv (h : s.drv.rxBit = 9 ∧ s.drv.rxAckOwed = true) :
    (rxEnterCell t s).drv = { s.drv with
      rxTFall := t, rxState := .bitLow, drive := .low, rxAcking := true, alarmAck := some (t + 1500) } := by
  have hd : rxEnterCell t s = rxDriveAck t (updDrv (fun d => { d with rxTFall := t, rxState := .bitLow }) s) := if_pos h
  simp [hd, rxDriveAck, tZeroLow]

/-- Inside a block the next cell is the next bit's (40 R98). -/
theorem rxBitHighFall_next (hw : 2000 ≤ t - s.drv.rxTFall ∧ t - s.drv.rxTFall ≤ 2800) (h : s.drv.rxBit ≠ 9) :
    rxBitHighFall t s = rxEnterCell t (updDrv (fun d => { d with rxBit := d.rxBit + 1 }) s) := by
  rw [rxBitHighFall, if_pos ((bitPeriodOk_iff _).2 hw), if_neg h]

/-- After a block's ACK cell the next block begins (40 R98). -/
theorem rxBitHighFall_block (hw : 2000 ≤ t - s.drv.rxTFall ∧ t - s.drv.rxTFall ≤ 2800) (h : s.drv.rxBit = 9)
    (hl : s.drv.rxLen < maxFrame) :
    rxBitHighFall t s = updDrv (fun d => { d with
      rxBit := 0, rxShift := 0#8, rxEom := false, rxTFall := t, rxState := .bitLow }) s := by
  rw [rxBitHighFall, if_pos ((bitPeriodOk_iff _).2 hw), if_pos h, if_neg (Nat.ne_of_lt hl), rxEnterCell_plain (by simp)]
  rfl

/-- A 17th block discards the frame (40 R103). -/
theorem rxBitHighFall_overlong (hw : 2000 ≤ t - s.drv.rxTFall ∧ t - s.drv.rxTFall ≤ 2800) (h : s.drv.rxBit = 9)
    (hl : s.drv.rxLen = maxFrame) :
    rxBitHighFall t s = record (.malformed t) (updDrv (fun d => { d with rxLen := 0, rxState := .idle }) s) := by
  rw [rxBitHighFall, if_pos ((bitPeriodOk_iff _).2 hw), if_pos h, if_pos hl]
  rfl

/-! ### A driven ACK (40 R99, R102) -/

/-- The end of a driven ACK (40 R99). -/
theorem rxDropAck_drv : (rxDropAck s).drv = { s.drv with drive := .released, rxAcking := false } := by
  simp [rxDropAck]

/-- A malformed edge releases a driven ACK and disarms its alarm (40 R102). -/
theorem rxMalformed_acking {lvl : Level} (ha : s.drv.rxAcking = true) :
    (rxMalformed lvl t s).err = s.err ++ [(s.now, .malformed t)] ∧
    (rxMalformed lvl t s).drv =
      let released : Drv := { s.drv with rxLen := 0, drive := .released, rxAcking := false, alarmAck := none }
      match lvl with
      | .low => { released with rxTFall := t, rxState := .startLow }
      | .high => { released with rxState := .idle } := by
  cases lvl <;> simp [rxMalformed, ha, rxDropAck]

end Cells

/-- Settles O45: one law for each bit of a block. -/
theorem dataBitsAssembleBytes : Obligations.DataBitsAssembleBytes := by
  intro t b s he hp hs hc
  rw [edgeIsr_bit he hp hs hc]
  let s1 := noteLine t .high s
  refine ⟨rxTakeBit_data (s := s1), fun h hl => ?_, rxTakeBit_eom (s := s1), fun h heom hl hl' => ?_⟩
  · exact ⟨_, rxTakeBit_byte (s := s1) h hl, rfl, memGet_memSet _ _ _, if_congr Iff.rfl (ackOwed_eq _ _) rfl⟩
  · have hk := (rxTakeBit_ack (s := s1) (b := b) h hl).trans (if_neg (Bool.eq_false_iff.1 heom))
    exact ⟨_, hk, rfl, fun a ha => setAckbit_bit (i := s.drv.rxLen - 1) _ b (by omega) ha⟩

/-- Settles O46: one law for each cell that can begin; a period outside its window is a malformed edge. -/
theorem nextCellBegins : Obligations.NextCellBegins := by
  intro t s he hp hs ha _
  let s1 := clearJustTransmitted .low (noteLine t .low s)
  refine ⟨fun hw => ?_, fun hw => edgeIsr_malformed_low he hp ha (by simpa only [malformedEdge, hs] using hw)⟩
  rw [edgeIsr_low_bitHigh he hp hs]
  refine ⟨fun h => ?_, fun h ho => ?_, fun h hl => congrArg Except.ok (rxBitHighFall_block (s := s1) hw h hl),
    fun h hl => congrArg Except.ok (rxBitHighFall_overlong (s := s1) hw h hl)⟩
  · have h9 : s.drv.rxBit ≠ 9 := by omega
    have hplain : ¬(s.drv.rxBit + 1 = 9 ∧ s.drv.rxAckOwed = true) := by
      rintro ⟨h8, ho⟩
      obtain h | ⟨-, h⟩ := h
      · omega
      · simp [ho] at h
    exact congrArg Except.ok ((rxBitHighFall_next (s := s1) hw h9).trans (rxEnterCell_plain hplain))
  · have h9 : s.drv.rxBit ≠ 9 := by omega
    refine ⟨_, congrArg Except.ok (rxBitHighFall_next (s := s1) hw h9), ?_⟩
    rw [rxEnterCell_ack_drv (s := updDrv (fun d => { d with rxBit := d.rxBit + 1 }) s1) ⟨congrArg (· + 1) h, ho⟩]
    simp only [updDrv_drv, s1, clearJustTransmitted, noteLine, h]

/-- Settles O47: the alarm's release, and the malformed edge's. -/
theorem drivenAckReleased : Obligations.DrivenAckReleased := by
  intro s he ha
  refine ⟨fun d hd hn => ⟨_, takeInterrupt_of_alarmAck he hd hn, ?_⟩, fun t lvl hp hm => ?_⟩
  · rw [if_pos ha, rxDropAck_drv]
    rfl
  · let s1 := clearJustTransmitted lvl (noteLine t lvl s)
    have same : s1.drv.rxAcking = true ∧ malformedEdge t lvl s1.drv ∧ s1.err = s.err ∧ s1.now = s.now := by
      cases lvl <;> exact ⟨ha, hm, rfl, rfl⟩
    obtain ⟨ha1, hm1, herr, hnow⟩ := same
    obtain ⟨h1, h2⟩ := rxMalformed_acking (t := t) (lvl := lvl) ha1
    refine ⟨_, (edgeIsr_eq_rxDispatch he hp).trans (rxDispatch_malformed hm1), by rw [h1, herr, hnow], ?_⟩
    rw [h2]
    cases lvl <;> rfl

/-- Settles O48: the last ACK bit, then the two fates of the frame it completes. -/
theorem frameDelivered : Obligations.FrameDelivered := by
  intro t b hdr s he hp hs h9 heom hc hl hl' hf hh
  let s1 := updDrv (fun d => { d with rxAckbit := setAckbit d.rxAckbit (s.drv.rxLen - 1) b }) (noteLine t .high s)
  have last : edgeIsr t .high s = rxFrameComplete s1 :=
    (edgeIsr_bit he hp hs hc).trans ((rxTakeBit_ack (s := noteLine t .high s) h9 hl).trans (if_pos heom))
  have ackbit (k : Nat) (hk : k < s.drv.rxLen) :
      (copyAckbits s.drv.rxLen (setAckbit s.drv.rxAckbit (s.drv.rxLen - 1) b) s.drv.mbAckbit).getLsbD k =
        if k = s.drv.rxLen - 1 then b else s.drv.rxAckbit.getLsbD k := by
    rw [copyAckbits_below _ _ hl' hk, setAckbit_bit _ _ (by omega) (by omega)]
  obtain ⟨hyes, hno⟩ := rxFrameComplete_cases (s := s1) hl hf hh
  rw [last]
  by_cases hacc : (s.drv.rxAckOwed = true ∨ headerDest hdr = 15#4) ∧ s.drv.mbFull = false
  · obtain ⟨bytes, hlen, hbytes, e⟩ := hyes hacc
    refine ⟨_, e, rfl, rfl, fun _ => ⟨rfl, rfl, rfl, fun a => ?_, ?_, fun a ha => ?_⟩, fun h => absurd hacc h⟩
    · have hlen : bytes.length = s.drv.rxLen := hlen
      refine (memGet_memStore_zero bytes s.drv.mbBuf a).trans ?_
      rw [hlen]
      split
      · exact (hbytes a ‹_›).symm
      · rfl
    · exact (ackbit _ (by omega)).trans (if_pos rfl)
    · exact (ackbit a (by omega)).trans (if_neg (by omega))
  · exact ⟨_, hno hacc, rfl, rfl, fun h => absurd h hacc, fun _ => ⟨rfl, rfl, rfl, rfl, rfl⟩⟩

end Sys2Proof.Machine
end

section
/-! PROOF. The handlers' entry, and what the transmit alarm does in each phase of a send (40_bit_timing_driver R107 to
R120, R121, 60_exceptions R197, R200). -/

namespace Sys2Proof.Machine

section TransmitAlarm

variable {s u : State} {t : Micros}

/-! ### Entry (60 R197, R200) -/

/-- An alarm that is not due does nothing. -/
theorem takeInterrupt_alarmTx_early {d : Micros} (h : s.drv.alarmTx = some d) (hd : s.now < d) :
    takeInterrupt (.alarm .tx) s = .ok s := by
  rw [takeInterrupt_tx, h]
  exact if_neg (by simpa [alarmDue] using hd)

theorem takeInterrupt_alarmAck_early {d : Micros} (h : s.drv.alarmAck = some d) (hd : s.now < d) :
    takeInterrupt (.alarm .ack) s = .ok s := by
  rw [takeInterrupt_ack, h]
  exact if_neg (by simpa [alarmDue] using hd)

/-- A due alarm is disarmed, and does no more before the driver is enabled or with no send in progress (60 R197). -/
theorem takeInterrupt_alarmTx_quiet {d : Micros} (h : s.drv.alarmTx = some d) (hd : d ≤ s.now)
    (hq : s.drv.enabled = false ∨ s.drv.txPhase = .idle) : takeInterrupt (.alarm .tx) s = .ok (cancel .tx s) := by
  cases he : s.drv.enabled with
  | false =>
    rw [takeInterrupt_tx, h]
    refine (if_pos (decide_eq_true hd)).trans (if_neg ?_)
    simp [he]
  | true =>
    have hp : s.drv.txPhase = .idle := hq.resolve_left (by simp [he])
    rw [takeInterrupt_of_alarmTx he h hd, txAlarm]
    simp only [cancelTx_drv, hp]

theorem takeInterrupt_alarmAck_quiet {d : Micros} (h : s.drv.alarmAck = some d) (hd : d ≤ s.now)
    (hq : s.drv.enabled = false ∨ s.drv.rxAcking = false) : takeInterrupt (.alarm .ack) s = .ok (cancel .ack s) := by
  cases he : s.drv.enabled with
  | false =>
    rw [takeInterrupt_ack, h]
    refine (if_pos (decide_eq_true hd)).trans (if_neg ?_)
    simp [he]
  | true =>
    have ha : s.drv.rxAcking = false := hq.resolve_left (by simp [he])
    rw [takeInterrupt_of_alarmAck he h hd, if_neg (by simp [ha])]

/-! ### The wait for the bus (40 R107, R110, R111, R120) -/

/-- An attempt begun: the start bit's low time is driven (40 R111). -/
theorem txStartAttempt_drv : (txStartAttempt t s).drv = { s.drv with
    rxState := .idle, rxLen := 0, txUsedBus := true, txByte := 0, txBit := 0, txCellStart := t,
    drive := .low, txPhase := .startLow, alarmTx := some (t + 3700) } := by
  simp [txStartAttempt, tStartLow]

/-- The end of a send but by arbitration loss (40 R120). -/
theorem txFinish_drv : (txFinish s).drv = { s.drv with
    drive := .released, alarmTx := none, txPhase := .idle, rxState := .idle, rxLen := 0
    justTransmitted := s.drv.justTransmitted || s.drv.txUsedBus, evTx := true } := by
  simp [txFinish]

theorem txFinish_err : (txFinish s).err = s.err := by
  simp [txFinish]

/-- The wait's deadline (40 R107). -/
theorem waitDeadline_eq : waitDeadline s =
    if s.drv.lineLevel = .high then
      min (s.drv.tLastEdge + freeMicros s.drv.txFreeReq) (s.drv.txWaitStart + s.par.sendIdleTimeoutUs)
    else s.drv.txWaitStart + s.par.sendIdleTimeoutUs := rfl

/-! ### Cells (40 R112 to R115) -/

/-- `bit_value` is the spec's (40 R114). -/
theorem txBitValue_eq {k j : Nat} {byte : Byte} (hk : k < s.drv.txLen) (hb : memGet s.drv.txBuf k = some byte) :
    txBitValue k j s = .ok (bitValue byte s.drv.txLen k j) := by
  unfold txBitValue bitValue
  split
  · simp only [bufRead, if_pos hk, hb]
  · split
    · exact congrArg Except.ok (decide_eq_decide.2 (by omega))
    · rfl

/-- A cell begun at byte `k` and bit `j` (40 R114). -/
theorem txBeginCell_drv {byte : Byte} (hk : s.drv.txByte < s.drv.txLen)
    (hb : memGet s.drv.txBuf s.drv.txByte = some byte) :
    ∃ u, txBeginCell t s = .ok u ∧ u.drv = cellBegun byte s.drv.txByte s.drv.txBit t s.drv := by
  refine ⟨_, by rw [txBeginCell, txBitValue_eq hk hb], ?_⟩
  cases hv : bitValue byte s.drv.txLen s.drv.txByte s.drv.txBit <;>
    simp [cellBegun, hv, txDriveCell, lowTime, tOneLow, tZeroLow]

/-- The end of a cell's low time (40 R115). -/
theorem txBitRelease_drv : (txBitRelease s).drv = { s.drv with
    drive := .released
    txPhase := if s.drv.txValue then .bitPresample else .bitHigh
    alarmTx := some (s.drv.txCellStart + if s.drv.txValue then 1050 else 2400) } := by
  cases hv : s.drv.txValue <;> simp [txBitRelease, hv, tSample, tBit]

end TransmitAlarm

section PhaseLaws

variable {s : State} {d : Micros} (he : s.drv.enabled = true) (ha : s.drv.alarmTx = some d) (hd : d ≤ s.now)
include he ha hd

/-- The due alarm of a send runs the handler of its phase (60 R197). -/
theorem takeInterrupt_wait (hp : s.drv.txPhase = .wait) :
    takeInterrupt (.alarm .tx) s = .ok (txWaitAlarm s.now (cancel .tx s)) := by
  rw [takeInterrupt_of_alarmTx he ha hd, txAlarm]
  simp only [cancelTx_drv, hp]

theorem takeInterrupt_startLow (hp : s.drv.txPhase = .startLow) :
    takeInterrupt (.alarm .tx) s = .ok (txStartRelease (cancel .tx s)) := by
  rw [takeInterrupt_of_alarmTx he ha hd, txAlarm]
  simp only [cancelTx_drv, hp]

theorem takeInterrupt_startHigh (hp : s.drv.txPhase = .startHigh) :
    takeInterrupt (.alarm .tx) s = txBeginCell s.now (cancel .tx s) := by
  rw [takeInterrupt_of_alarmTx he ha hd, txAlarm]
  simp only [cancelTx_drv, hp, txStartEnd]

theorem takeInterrupt_bitLow (hp : s.drv.txPhase = .bitLow) :
    takeInterrupt (.alarm .tx) s = .ok (txBitRelease (cancel .tx s)) := by
  rw [takeInterrupt_of_alarmTx he ha hd, txAlarm]
  simp only [cancelTx_drv, hp]

theorem takeInterrupt_bitPresample (hp : s.drv.txPhase = .bitPresample) :
    takeInterrupt (.alarm .tx) s = txSample (cancel .tx s) := by
  rw [takeInterrupt_of_alarmTx he ha hd, txAlarm]
  simp only [cancelTx_drv, hp]

theorem takeInterrupt_bitHigh (hp : s.drv.txPhase = .bitHigh) :
    takeInterrupt (.alarm .tx) s = txCellEnd s.now (cancel .tx s) := by
  rw [takeInterrupt_of_alarmTx he ha hd, txAlarm]
  simp only [cancelTx_drv, hp]

end PhaseLaws

/-- Settles O42: the edge and the two alarms, each by its entry. -/
theorem handlerEntry : Obligations.HandlerEntry := by
  intro s
  refine ⟨fun t lvl es h => ⟨takeInterrupt_of_edge h, fun he => ?_, fun he hi hw => ?_⟩,
    fun d h => ⟨fun hd hq => takeInterrupt_alarmTx_quiet h hd hq, takeInterrupt_alarmTx_early h⟩,
    fun d h => ⟨fun hd hq => takeInterrupt_alarmAck_quiet h hd hq, takeInterrupt_alarmAck_early h⟩⟩
  · rw [takeInterrupt_of_edge h]
    exact if_neg (by simp [he])
  · have ho : onLine s.drv.txPhase = true := by
      cases hp : s.drv.txPhase <;> simp_all [onLine]
    exact (takeInterrupt_of_edge h).trans (edgeIsr_transmitting (s := { s with edges := es }) he ho t lvl)

/-- Settles O49: the wait ends in an attempt, in a timeout, or goes on. -/
theorem busWaitAlarm : Obligations.BusWaitAlarm := by
  intro d s he hp ha hd need free late
  rw [takeInterrupt_wait he ha hd hp]
  have hfree : busFree s.now (cancel .tx s) = true ↔ free :=
    (busFree_iff _).trans (by rw [freeMicros_eq]; exact Iff.rfl)
  refine ⟨fun hf => ⟨_, congrArg Except.ok (if_pos (hfree.2 hf)), txStartAttempt_drv⟩, fun hf hl => ?_, fun hf hl => ?_⟩
  · refine ⟨_, congrArg Except.ok ((if_neg (mt hfree.1 hf)).trans (if_pos hl)), ?_, ?_⟩
    · rw [txTimeout, txFinish_err]
      rfl
    · rw [txTimeout, txFinish_drv]
      rfl
  · refine congrArg Except.ok (((if_neg (mt hfree.1 hf)).trans (if_neg hl)).trans ?_)
    rw [waitDeadline_eq, freeMicros_eq]
    rfl

/-- Settles O50: the handler of the start bit's low time. -/
theorem startBitReleased : Obligations.StartBitReleased := by
  intro d s he hp ha hd
  refine ⟨_, takeInterrupt_startLow he ha hd hp, ?_⟩
  simp [txStartRelease, tStart]

/-- Settles O51: the first cell begun, and a cell's low time ended. -/
theorem cellDrivenAndReleased : Obligations.CellDrivenAndReleased := by
  intro d byte s he ha hd
  refine ⟨fun hp hk hb => ?_, fun hp => ?_⟩
  · rw [takeInterrupt_startHigh he ha hd hp]
    exact txBeginCell_drv (s := cancel .tx s) hk hb
  · rw [takeInterrupt_bitLow he ha hd hp]
    exact ⟨_, rfl, txBitRelease_drv⟩

section SampleAndCellEnd

variable {s : State}

/-! ### The sample point (40 R116, R119) -/

/-- The level the ACK cell is sampled at acknowledges a direct frame when LOW, and a broadcast when HIGH (40 R116). -/
theorem ackOk_eq (dest : La) {low : Prop} [Decidable low] (h : lineNow s = .low ↔ low) :
    ackOk dest (lineNow s) = if dest = 15#4 then decide ¬low else decide low := by
  have hhigh : lineNow s = .high ↔ ¬low := by
    rw [← h]
    cases lineNow s <;> simp
  exact if_congr Iff.rfl (decide_eq_decide.2 hhigh) (decide_eq_decide.2 h)

/-- The end of the cell is awaited (40 R116). -/
theorem txAwaitCellEnd_eq : txAwaitCellEnd s = { s with
    armedTx := s.now, drv := { s.drv with txPhase := .bitHigh, alarmTx := some (s.drv.txCellStart + 2400) } } := rfl

/-- At the sample point of the ACK cell the block is acknowledged or not (40 R116). -/
theorem txSample_ack {hdr : Byte} (h9 : s.drv.txBit = 9) (hk : s.drv.txByte < s.drv.txLen)
    (hh : memGet s.drv.txBuf 0 = some hdr) :
    txSample s = .ok (txAwaitCellEnd
      (updDrv (fun d => { d with txBlockOk := ackOk (headerDest hdr) (lineNow s) }) s)) := by
  have hr : bufRead s.drv.txBuf s.drv.txLen 0 = .ok hdr := by
    rw [bufRead, if_pos (Nat.zero_lt_of_lt hk), hh]
  rw [txSample, if_pos h9, hr]

/-- In any other cell HIGH goes on (40 R116). -/
theorem txSample_high (h9 : s.drv.txBit ≠ 9) (h : lineNow s ≠ .low) : txSample s = .ok (txAwaitCellEnd s) := by
  rw [txSample, if_neg h9, if_neg h]

/-- LOW there is arbitration lost (40 R116). -/
theorem txSample_low (h9 : s.drv.txBit ≠ 9) (h : lineNow s = .low) : txSample s = txArbLost s := by
  rw [txSample, if_neg h9, if_pos h]

/-- R119 with the bytes it reads: the header, the complete bytes sent, and the byte in progress. -/
theorem txArbLost_eq {hdr cur : Byte} (hf : memFilled s.drv.txBuf s.drv.txLen) (hk : s.drv.txByte < s.drv.txLen)
    (hh : memGet s.drv.txBuf 0 = some hdr) (hc : memGet s.drv.txBuf s.drv.txByte = some cur) :
    ∃ sent, sent.length = s.drv.txByte ∧ (∀ a < s.drv.txByte, memGet s.drv.txBuf a = sent[a]?) ∧
      txArbLost s = .ok (txEndLost (txHandOff hdr sent cur (record (.arbLost s.drv.txByte s.drv.txBit) s))) := by
  obtain ⟨hdr', sent, cur', hl, h1, h2, h3, e⟩ := txArbLost_ok hf hk
  obtain rfl : hdr' = hdr := Option.some.inj ((bufRead_eq_ok h1).2.symm.trans hh)
  obtain rfl : cur' = cur := Option.some.inj ((bufRead_eq_ok h3).2.symm.trans hc)
  exact ⟨sent, hl, (bufTake_eq_ok h2).2, e⟩

/-- The complete bytes handed over read as the request's (40 R119). -/
theorem sentBytes_get {sent : List Byte} {cur : Byte} {m : Memory} (j : Nat)
    (hs : ∀ a < sent.length, memGet m a = sent[a]?) (hc : memGet m sent.length = some cur) :
    ∀ a < (sentBytes j sent cur).length, (sentBytes j sent cur)[a]? = memGet m a := by
  intro a ha
  rw [sentBytes_length] at ha
  unfold sentBytes
  split at ha
  · rw [if_pos ‹_›, hs a ha]
  · rw [if_neg ‹_›]
    obtain h | rfl := Nat.lt_succ_iff_lt_or_eq.1 ha
    · rw [List.getElem?_append_left h, hs a h]
    · rw [List.getElem?_concat_length, hc]

/-- Every ACK bit handed over is that of a broadcast not rejected, or of a direct block acknowledged (40 R119). -/
theorem handedAcks_bit (dest : La) {a : Nat} (ha : a < 16) :
    (if isBroadcast dest then BitVec.allOnes 16 else 0#16).getLsbD a = decide (dest = 15#4) := by
  by_cases h : dest = 15#4
  · rw [if_pos (show isBroadcast dest = true from decide_eq_true h), BitVec.getLsbD_allOnes, decide_eq_true h]
    exact decide_eq_true ha
  · rw [if_neg (show ¬isBroadcast dest = true from mt of_decide_eq_true h), decide_eq_false h]
    exact BitVec.getLsbD_zero

/-! ### The end of a cell (40 R117, R118, R120) -/

/-- An attempt that failed is made again, with the signal-free time of a retry (40 R118). -/
theorem txAttemptFailed_retry (h : s.drv.txAttempt < 5) :
    txAttemptFailed s = beginWait (updDrv (fun d => { d with
      txAttempt := d.txAttempt + 1, txFreeReq := .retry }) (record (.nack s.drv.txAttempt) s)) := if_pos h

/-- The driver while it waits for a retry (40 R107, R108, R118). -/
theorem txAttemptFailed_retry_drv (h : s.drv.txAttempt < 5) : (txAttemptFailed s).drv = { s.drv with
    txAttempt := s.drv.txAttempt + 1, txFreeReq := .retry, txPhase := .wait, txWaitStart := s.now
    alarmTx := some
      (if s.drv.lineLevel = .high then min (s.drv.tLastEdge + 12000) (s.now + s.par.sendIdleTimeoutUs)
       else s.now + s.par.sendIdleTimeoutUs) } := by
  rw [txAttemptFailed_retry h, beginWait_drv, waitDeadline_eq]
  rfl

/-- The fifth failed attempt ends the send (40 R118). -/
theorem txAttemptFailed_last (h : 5 ≤ s.drv.txAttempt) :
    txAttemptFailed s = txFinish (record (.nack s.drv.txAttempt) s) := if_neg (Nat.not_lt.2 h)

/-- Inside a block the next bit's cell begins (40 R117). -/
theorem txCellEnd_bit {t : Micros} (h : s.drv.txBit < 9) :
    txCellEnd t s = txBeginCell t (updDrv (fun d => { d with txBit := d.txBit + 1 }) s) := by
  rw [txCellEnd, if_pos h]

/-- An unacknowledged block ends the attempt (40 R117). -/
theorem txCellEnd_nack {t : Micros} (h : s.drv.txBit = 9) (hb : s.drv.txBlockOk = false) :
    txCellEnd t s = .ok (txAttemptFailed s) := by
  rw [txCellEnd, if_neg (by omega), if_pos hb]

/-- The last block acknowledged ends the send (40 R117, R120). -/
theorem txCellEnd_last {t : Micros} (h : s.drv.txBit = 9) (hb : s.drv.txBlockOk = true)
    (hk : s.drv.txByte + 1 = s.drv.txLen) :
    txCellEnd t s = .ok (txFinish (updDrv (fun d => { d with txResult := { d.txResult with acked := true } }) s)) := by
  rw [txCellEnd, if_neg (by omega), if_neg (by simp [hb]), if_pos hk]

/-- After any other block acknowledged the next byte's first cell begins (40 R117). -/
theorem txCellEnd_byte {t : Micros} (h : s.drv.txBit = 9) (hb : s.drv.txBlockOk = true)
    (hk : s.drv.txByte + 1 < s.drv.txLen) :
    txCellEnd t s = txBeginCell t (updDrv (fun d => { d with txByte := d.txByte + 1, txBit := 0 }) s) := by
  rw [txCellEnd, if_neg (by omega), if_neg (by simp [hb]), if_neg (by omega)]

end SampleAndCellEnd

/-- Settles O52: the ACK cell's sample, and the two of any other cell. -/
theorem samplePoint : Obligations.SamplePoint := by
  intro d hdr s he hp ha hd hk hf hh low on
  have hlow : lineNow (cancel .tx s) = .low ↔ low := lineNow_low
  rw [takeInterrupt_bitPresample he ha hd hp]
  refine ⟨fun h9 => ?_, fun h9 hn => ?_, fun h9 hl => ?_⟩
  · rw [txSample_ack (s := cancel .tx s) h9 hk hh, ackOk_eq _ hlow, txAwaitCellEnd_eq]
    rfl
  · rw [txSample_high (s := cancel .tx s) h9 (mt hlow.1 hn), txAwaitCellEnd_eq]
    rfl
  · obtain ⟨cur, hc⟩ := hf _ hk
    obtain ⟨sent, -, -, e⟩ := txArbLost_eq (s := cancel .tx s) hf hk hh hc
    rw [txSample_low (s := cancel .tx s) h9 (hlow.2 hl)]
    exact ⟨_, e, rfl, rfl, rfl, rfl⟩

/-- Settles O53: the registers the hand-off writes. -/
theorem arbitrationHandOff : Obligations.ArbitrationHandOff := by
  intro d hdr cur s he hp ha hd hk hf hlen hh hc hj hl n
  obtain ⟨sent, hs, hget, e⟩ := txArbLost_eq (s := cancel .tx s) hf hk hh hc
  have h9 : s.drv.txBit ≠ 9 := by omega
  rw [takeInterrupt_bitPresample he ha hd hp, txSample_low (s := cancel .tx s) h9 (lineNow_low.2 hl)]
  have hs : sent.length = s.drv.txByte := hs
  have hn : (sentBytes s.drv.txBit sent cur).length = n := by rw [sentBytes_length, hs]
  have hbytes := sentBytes_get (m := s.drv.txBuf) (cur := cur) s.drv.txBit (hs ▸ hget) (hs ▸ hc)
  refine ⟨_, e, rfl, rfl, hn, rfl, rfl, rfl, rfl, rfl, fun a hlt => ?_, fun a hlt => ?_, fun h7 => if_pos h7, ?_⟩
  · have hlt' : a < (sentBytes s.drv.txBit sent cur).length := hn.symm ▸ hlt
    exact (memGet_memStore_zero _ _ a).trans ((if_pos hlt').trans (hbytes a hlt'))
  · exact (copyAckbits_below _ _ (by omega) hlt).trans (handedAcks_bit _ (by omega))
  · refine (congrArg₂ (· && ·) (decide_eq_decide.2 (by rw [← hn]; rfl)) (ackOwed_eq _ _)).trans (Bool.decide_and _ _).symm

/-- Settles O54: the five ends of a cell. -/
theorem cellEnd : Obligations.CellEnd := by
  intro d byte s he hp ha hd hk hf ended late
  rw [takeInterrupt_bitHigh he ha hd hp]
  let s1 := cancel .tx s
  refine ⟨fun h9 hb => ?_, fun h9 hok hlt hb => ?_, fun h9 hok hlast => ?_, fun h9 hok hat => ?_, fun h9 hok hat => ?_⟩
  · rw [txCellEnd_bit (s := s1) h9]
    obtain ⟨u, hu, hdrv⟩ := txBeginCell_drv (t := s.now)
      (s := updDrv (fun d => { d with txBit := d.txBit + 1 }) s1) hk hb
    exact ⟨u, hu, hdrv⟩
  · rw [txCellEnd_byte (s := s1) h9 hok hlt]
    obtain ⟨u, hu, hdrv⟩ := txBeginCell_drv (t := s.now)
      (s := updDrv (fun d => { d with txByte := d.txByte + 1, txBit := 0 }) s1) hlt hb
    exact ⟨u, hu, hdrv⟩
  · rw [txCellEnd_last (s := s1) h9 hok hlast]
    exact ⟨_, rfl, txFinish_drv⟩
  · rw [txCellEnd_nack (s := s1) h9 hok]
    refine ⟨_, rfl, ?_, txAttemptFailed_retry_drv (s := s1) hat⟩
    rw [txAttemptFailed_retry (s := s1) hat]
    rfl
  · rw [txCellEnd_nack (s := s1) h9 hok, txAttemptFailed_last (s := s1) hat]
    exact ⟨_, rfl, txFinish_err, txFinish_drv⟩

end Sys2Proof.Machine
end

section
/-! PROOF. The line's level and its pending edges through every step of the machine (40_bit_timing_driver R87, R88,
60_exceptions R196). -/

namespace Sys2Proof.Machine

section LineEdges

variable {s t : State}

/-- Noting an edge writes the pending edges only. -/
theorem noteEdge_eq (before : Level) (s : State) : noteEdge before s = { s with edges := (noteEdge before s).edges } := by
  unfold noteEdge
  split <;> rfl

/-- A change of this node's drive writes the drive and the pending edges only (40 R88). -/
theorem setDrive_eq (drive : Drive) (s : State) :
    setDrive drive s = { s with drv := { s.drv with drive := drive }, edges := (setDrive drive s).edges } :=
  noteEdge_eq _ _

/-- A change of the others' drive writes that drive and the pending edges only (10_state R43). -/
theorem setExtLow_eq (low : Bool) (s : State) :
    setExtLow low s = { s with env := { s.env with extLow := low }, edges := (setExtLow low s).edges } :=
  noteEdge_eq _ _

/-- The draw that picks the agent leaves the line alone. -/
theorem pick_lineSame (s : State) : LineSame s (pick s).2 := by
  unfold pick
  split
  · exact .refl s
  · exact .refl s
  · exact drawOrder_lineSame s

/-- The passage of time leaves the line and its pending edges alone. -/
theorem advance_line (s : State) : (advance s).edges = s.edges ∧ lineNow (advance s) = lineNow s := by
  unfold advance
  split
  · exact ⟨rfl, rfl⟩
  · split
    · exact ⟨rfl, rfl⟩
    · have h := drawOrder_lineSame s
      exact ⟨h.edges, h.line⟩

/-- An agent's step takes the pending edge it serves, and gains one at the end exactly when it changes the line. -/
theorem runAgent_edges {a : Agent} (h : runAgent a s = .next t) :
    t.edges = (if a = .edge then s.edges.tail else s.edges) ++
      (if lineNow t = lineNow s then [] else [(s.now, lineNow t)]) := by
  cases a with
  | engine => exact (engineStep_lineMoves h).edges
  | edge | alarmTx | alarmAck => exact takeInterrupt_edges (ofExcept_next h)
  | env => exact envStep_edges h
  | time =>
    cases h
    obtain ⟨he, hl⟩ := advance_line s
    simp [he, hl]

end LineEdges

/-- Settles O56: the two drives, and the agents' steps. -/
theorem lineChangesMakeEdges : Obligations.LineChangesMakeEdges := by
  refine ⟨fun _ => rfl, fun drive s => ⟨setDrive_eq drive s, (LineMoves.of_setDrive drive s).edges⟩,
    fun low s => ⟨setExtLow_eq low s, setExtLow_edges low s⟩, fun s t h => ?_⟩
  have hp := pick_lineSame s
  rw [runAgent_edges (step_next h).1, hp.edges, hp.line, hp.now]

end Sys2Proof.Machine
end

section
/-! PROOF. The frame codec and the engine's turn: the header byte's value, the frames that are not sent, and the step
that executes one instruction (41_frame_codec R126 to R133, 43_protocol_engine R144, R157). -/

namespace Sys2Proof.Machine

section FrameCodec

variable {s : State} {i : Instr} {rest : List Act} {bytes : List Byte}

/-- The initiator's nibble weighs 16 in the header byte (41_frame_codec R126). -/
theorem header_toNat (init dest : La) : (header init dest).toNat = init.toNat * 16 + dest.toNat := by
  rw [header, BitVec.toNat_append, ← Nat.shiftLeft_add_eq_or_of_lt dest.isLt, Nat.shiftLeft_eq]

theorem headerInit_toNat (b : Byte) : (headerInit b).toNat = b.toNat / 16 := by
  have hb := b.isLt
  rw [headerInit, BitVec.extractLsb'_toNat, Nat.shiftRight_eq_div_pow]
  omega

theorem headerDest_toNat (b : Byte) : (headerDest b).toNat = b.toNat % 16 := BitVec.extractLsb'_toNat 0 4 b

/-- When it is the engine's turn the step is the engine's. -/
theorem step_of_pick_engine (h : (pick s).1 = .engine) : step s = withinRun (engineStep (pick s).2) := by
  simp only [step, stepOnce, h, runAgent]

/-- A message next in a rule is executed with the rest still to do. -/
theorem engineStep_instr (h : s.eng.todo = .instr i :: rest) : engineStep s = exec i (setTodo rest s) := by
  simp only [engineStep, h]

/-- A received frame that decodes is executed, its length written and the engine in `E_DISPATCH` (43 R144). -/
theorem engineStep_received {n : Nat} (h : s.eng.todo = .received n :: rest)
    (hb : bufTake s.eng.fbuf n n = .ok bytes) (hd : decode .rx bytes = .ok i) :
    engineStep s = exec i (acceptFrame n (setTodo rest s)) := by
  simp only [engineStep, h]
  exact engReceived_decodes (s := setTodo rest s) hb hd

end FrameCodec

/-- Settles O36: a refused frame is recorded and leaves its loop test to do; a withheld one is recorded only. -/
theorem unsentMessages : Obligations.UnsentMessages := by
  refine ⟨fun i s hd hw hs => ?_, fun init dest hi lo dt s hpa => exec_withheld hpa⟩
  rw [exec_insane hd hw hs]
  cases i <;> rfl

/-- Settles O1: both nibbles of the header, and the polling frame read back. -/
theorem headerAndPollFrame : Obligations.HeaderAndPollFrame :=
  ⟨fun i d => ⟨header_toNat i d, headerInit_header i d, headerDest_header i d⟩,
    fun b => ⟨headerInit_toNat b, headerDest_toNat b⟩, fun _ => ⟨rfl, rfl, decode_tx_header_eq_ok.2 ⟨rfl, rfl⟩⟩⟩

/-- Settles O6: the engine's step on a frame and on a message, in the state the scheduler's draw leaves. -/
theorem stepRunsInstruction : Obligations.StepRunsInstruction := by
  refine ⟨fun s i hp => ?_, fun _ => rfl, fun _ => rfl, fun _ => rfl⟩
  obtain ⟨-, heng, -⟩ := pick_keeps s
  rw [step_of_pick_engine hp, ← heng]
  refine ⟨fun n rest bytes ht hb hd => ?_, fun rest ht => ?_⟩
  · rw [engineStep_received ht hb hd]
    rfl
  · rw [engineStep_instr ht]
    rfl

end Sys2Proof.Machine
end

section
/-! PROOF. Addressing, and the engine's actions one by one: the candidates, the physical address, the probe's verdict,
what each action of a rule does, and where a step ends (42_addressing R135 to R140, 43_protocol_engine R147 to R184,
60_exceptions R202). -/

namespace Sys2Proof.Machine

section Actions

variable {s u : State} {a : Act} {rest more : List Act} {i : Nat}

/-! ### A step that begins with an action -/

/-- But for an instruction and a received frame, the engine runs the action that comes first. -/
theorem engineStep_act (h : s.eng.todo = a :: rest) (hi : ∀ i, a ≠ .instr i) (hn : ∀ n, a ≠ .received n) :
    engineStep s = runFrom a rest (setTodo [] s) := by
  unfold engineStep
  rw [h]
  split
  · cases ‹_ :: _ = _›
    exact absurd rfl (hi _)
  · cases ‹_ :: _ = _›
    exact absurd rfl (hn _)
  · cases ‹_ :: _ = _›
    rfl
  · cases ‹_ :: _ = _›

/-- After an action that is done the rest goes on. -/
theorem engineStep_done (h : s.eng.todo = a :: rest) (hr : runAct a (setTodo [] s) = .done u) :
    engineStep s = runActs rest u := by
  refine (engineStep_act h ?_ ?_).trans (runFrom_done hr) <;> (rintro _ rfl; cases hr)

/-- An action that stops leaves what must come first before the rest. -/
theorem engineStep_stop (h : s.eng.todo = a :: rest) (hr : runAct a (setTodo [] s) = .stop u more)
    (hi : ∀ i, a ≠ .instr i) (hn : ∀ n, a ≠ .received n) (ht : u.eng.todo = [] := by rfl) :
    engineStep s = .next (setTodo (more ++ rest) u) := by
  rw [engineStep_act h hi hn, runFrom_stop hr, pushActs, ht, List.append_nil]
  rfl

/-- An action that no handler can see is run in the step it comes up in, as if a step began with it (60 R202). -/
theorem runActs_eq_engineStep (ht : s.eng.todo = []) (h : a.startsStep = false) :
    runActs (a :: rest) s = engineStep { s with eng := { s.eng with todo := a :: rest } } := by
  have hs : setTodo [] { s with eng := { s.eng with todo := a :: rest } } = s := by
    rw [← pushActs_setTodo_nil ht]
    rfl
  rw [runActs_runs _ _ h, engineStep_act rfl, hs] <;> (rintro _ rfl; cases h)

/-- Only the waits and the push to a full key queue block (60 R207). -/
theorem actReady_of_no_wait (h1 : a ≠ .sendWait) (h2 : a ≠ .recvWait) (h3 : ∀ b d, a ≠ .keyWait b d) :
    actReady a s = true := by
  unfold actReady
  split
  · exact absurd rfl h1
  · exact absurd rfl h2
  · exact absurd rfl (h3 _ _)
  all_goals rfl

theorem startsStep_iff : a.startsStep = true ↔
    (∃ i, a = .instr i) ∨ a = .sendWait ∨ (∃ bytes n, a = .txLoop bytes n) ∨ (∃ b d, a = .keyWait b d) ∨
    a = .allocate ∨ (∃ c i, a = .verdict c i) ∨ (∃ la, a = .claim la) ∨ a = .enterLoop ∨ a = .recvWait ∨
    (∃ n, a = .received n) ∨ a = .enable := by
  cases a <;> simp [Act.startsStep]

/-! ### The key queue and the indicator (43 R150 to R152) -/

theorem keyqRoom_iff : keyqRoom s = true ↔ s.keyq.length < s.par.keyqDepth := by simp [keyqRoom]

theorem keyPush_room {b : Byte} {deadline : Micros} (h : s.keyq.length < s.par.keyqDepth) :
    keyPush b deadline s = .done (pushKey b s) := if_pos (keyqRoom_iff.2 h)

/-- With the queue full and time left the push waits. -/
theorem keyPush_full {b : Byte} {deadline : Micros} (h : ¬s.keyq.length < s.par.keyqDepth) (hd : s.now < deadline) :
    keyPush b deadline s = .stop s [.keyWait b deadline] := by
  rw [keyPush, if_neg (by rwa [keyqRoom_iff]), if_neg (Nat.not_le_of_lt hd)]

/-- The indicator is called when the selection has changed (43 R152). -/
theorem updateSelection_eq (before : Bool) (s : State) :
    updateSelection before s = { s with ind := s.ind ++
      (if before = false ∧ s.eng.activeSource = s.eng.selfPa then [.active]
       else if before = true ∧ ¬s.eng.activeSource = s.eng.selfPa then [.idle] else []) } := by
  by_cases h : s.eng.activeSource = s.eng.selfPa <;> cases before <;>
    simp [updateSelection, selected, indicate, h]

/-! ### The physical address (42 R136) -/

/-- With no address configured and no answer queued, it is a free one. -/
theorem obtainPa_drawn (h : s.cfg.pa = 0#16) (hq : s.env.edid = []) :
    obtainPa s = { s with
      eng := { s.eng with selfPa := Config.edidDraw s.env.draws }
      env := { s.env with draws := s.env.draws + 1 } } := by
  have hd : drawEdid s = (Config.edidDraw s.env.draws, countDraw s) := by simp only [drawEdid, hq]
  rw [obtainPa, derivePa, if_neg (not_not_intro h), hd]
  rfl

/-! ### The walk through the candidates (42 R137, R138) -/

/-- Past the last candidate the node stays unregistered. -/
theorem allocateAt_exhausted (h : candidate s.cfg.deviceType i = 15#4) :
    allocateAt i s = ([], publishLa 15#4 s) := if_pos h

theorem allocateAt_probes (h : candidate s.cfg.deviceType i ≠ 15#4) :
    allocateAt i s =
      ([.instr (.pollTx (candidate s.cfg.deviceType i)), .verdict (candidate s.cfg.deviceType i) i], s) := if_neg h

/-- A configured address is claimed, without a probe. -/
theorem allocateBegin_configured (h : 1 ≤ s.cfg.la.toNat ∧ s.cfg.la.toNat ≤ 14) :
    allocateBegin s = ([.claim (BitVec.ofNat 4 s.cfg.la.toNat)], publishLa 15#4 s) := if_pos ((laOverride_iff _).2 h)

/-- With none the walk begins at the first candidate. -/
theorem allocateBegin_walks (h : ¬(1 ≤ s.cfg.la.toNat ∧ s.cfg.la.toNat ≤ 14)) :
    allocateBegin s = allocateAt 0 (publishLa 15#4 s) := if_neg (by rwa [laOverride_iff])

theorem probeTaken_iff {r : TxResult} :
    probeTaken r = true ↔ r.acked = true ∨ r.arbitrationLost = true ∨ r.timeout = true := by
  simp [probeTaken, or_assoc]

/-- A free candidate is the node's address. -/
theorem probeVerdict_free {c : La} (h : ¬probeTaken s.eng.ret = true) :
    probeVerdict c i s = ([], publishLa c s) := if_neg h

/-- After a taken one the walk goes on with the next. -/
theorem probeVerdict_taken {c : La} (h : probeTaken s.eng.ret = true) :
    probeVerdict c i s = allocateAt (i + 1) s := if_pos h

end Actions

/-- Settles O9: one law for each action, then the laws of what follows it. -/
theorem engineActionsRun : Obligations.EngineActionsRun := by
  refine ⟨?_, runActs_nil, fun _ => startsStep_iff, fun a as s => runActs_starts as s,
    fun a as s => runActs_eq_engineStep⟩
  intro rest s s0 sel configured c at15
  refine ⟨fun m h => engineStep_stop h rfl nofun nofun, fun b h => engineStep_done h rfl,
    fun h => engineStep_done h rfl, fun i h => engineStep_done h rfl,
    fun h => engineStep_done h ?indicatorSelected, fun pa h => ?announceIf, fun before h => ?updateSelection,
    fun h => engineStep_done h rfl, fun h => ?allocate, fun h => engineStep_done h rfl, fun b h => ?enqueueKey,
    fun a h h1 h2 h3 => (engineReady_act h).trans (actReady_of_no_wait h1 h2 h3)⟩
  case indicatorSelected =>
    simp only [runAct, selected, decide_eq_true_eq]
    rfl
  case announceIf =>
    split
    · exact engineStep_stop h (if_pos ‹_›) nofun nofun
    · exact engineStep_done h (if_neg ‹_›)
  case updateSelection => exact engineStep_done h (congrArg _ (updateSelection_eq before s0))
  case allocate =>
    split
    · exact engineStep_stop h (congrArg actOut (allocateBegin_configured ‹_›)) nofun nofun
    have hw : allocateBegin s0 = _ := allocateBegin_walks ‹¬configured›
    split
    · exact engineStep_done h (congrArg actOut (hw.trans (allocateAt_exhausted ‹_›)))
    · exact engineStep_stop h (congrArg actOut (hw.trans (allocateAt_probes ‹_›))) nofun nofun
  case enqueueKey =>
    split
    · exact engineStep_done h (keyPush_room ‹_›)
    · exact engineStep_stop h (keyPush_full ‹_› (Nat.lt_add_of_pos_right (by decide))) nofun nofun

/-- Settles O32: the claim, the free probe, and the two ends of a taken one. -/
theorem probeVerdict_effect : Obligations.ProbeVerdict := by
  refine ⟨fun c rest s h => engineStep_done h rfl, fun c i rest s h => ?_⟩
  intro taken next at'
  have taken_iff : probeTaken (setTodo [] s).eng.ret = true ↔ taken := probeTaken_iff
  refine ⟨fun ht => ?_, fun ht hc => ?_, fun ht hc => ?_⟩
  · exact engineStep_done h (congrArg actOut (probeVerdict_free (mt taken_iff.1 ht)))
  · exact engineStep_done h
      (congrArg actOut ((probeVerdict_taken (taken_iff.2 ht)).trans (allocateAt_exhausted hc)))
  · exact engineStep_stop h
      (congrArg actOut ((probeVerdict_taken (taken_iff.2 ht)).trans (allocateAt_probes hc))) nofun nofun

/-- Settles O30: the table is closed. -/
theorem candidateTable : Obligations.CandidateTable := by
  unfold Obligations.CandidateTable
  decide

/-- Settles O31: the configured address, the queued answer and the free one. -/
theorem physicalAddressDerived : Obligations.PhysicalAddressDerived :=
  fun _ => ⟨obtainPa_configured, fun _ _ => obtainPa_queued, obtainPa_drawn⟩

end Sys2Proof.Machine
end

section
/-! PROOF. The node's addresses through every step of the machine: which action, row and control state may write them
(42_addressing R138, R140, R141). -/

namespace Sys2Proof.Machine

/-- From `s` to `t` both addresses stay. -/
structure AddressesKept (s t : State) : Prop where
  la : t.eng.selfLa = s.eng.selfLa
  pa : t.eng.selfPa = s.eng.selfPa

/-- The actions that write an address: those of the startup's `allocate()` and of a recompute (42 R138, R140). -/
def Act.readdresses : Act → Bool
  | .derivePa | .allocate | .verdict _ _ | .claim _ => true
  | _ => false

section Addresses

variable {s t u : State} {a : Act} {acts rest : List Act} {i : Instr}

/-- A state with such an action left to do is one whose addresses may change. -/
theorem readdressing_of_mem (ha : a ∈ s.eng.todo) (hr : a.readdresses = true) : readdressing s := by
  refine .inr (.inr ?_)
  cases a with
  | derivePa => exact .inl ha
  | allocate => exact .inr (.inl ha)
  | verdict c i => exact .inr (.inr (.inl ⟨c, i, ha⟩))
  | claim la => exact .inr (.inr (.inr ⟨la, ha⟩))
  | _ => cases hr

theorem AddressesKept.of_eng (h : t.eng = s.eng) : AddressesKept s t := ⟨by rw [h], by rw [h]⟩

theorem AddressesKept.trans (h : AddressesKept s u) (k : AddressesKept u t) : AddressesKept s t :=
  ⟨k.la.trans h.la, k.pa.trans h.pa⟩

/-- The answer is a state that keeps the addresses. -/
theorem AddressesKept.of_next (h : (.next u : Result) = .next t) (k : AddressesKept s u := by exact ⟨rfl, rfl⟩) :
    AddressesKept s t := by
  cases h
  exact k

/-! ### The actions of a rule -/

theorem codecSend_addresses {bytes : List Byte} (h : codecSend bytes s = .ok (acts, u)) : AddressesKept s u := by
  cases hs : sane bytes with
  | false =>
    cases (codecSend_insane hs).symm.trans h
    exact ⟨rfl, rfl⟩
  | true =>
    by_cases hr : s.drv.enabled = true ∧ s.drv.txPhase = .idle
    · cases (codecSend_begins hs hr.1 hr.2).symm.trans h
      exact ⟨rfl, rfl⟩
    · cases (codecSend_busy hs hr).symm.trans h

/-- An action's answer, done or stopped, keeps the addresses. -/
def OutAddressesKept (s : State) : ActOut → Prop
  | .done u => AddressesKept s u
  | .stop u _ => AddressesKept s u
  | .fault _ => True

theorem keyPush_addresses (b : Byte) (deadline : Micros) (s : State) : OutAddressesKept s (keyPush b deadline s) := by
  unfold keyPush
  split
  · exact ⟨rfl, rfl⟩
  · split <;> exact ⟨rfl, rfl⟩

/-- Every other action keeps the addresses. -/
theorem runAct_addresses (ha : a.readdresses = false) (s : State) : OutAddressesKept s (runAct a s) := by
  cases a with
  | derivePa | allocate | verdict _ _ | claim _ => cases ha
  | enqueueKey _ | keyWait _ _ => exact keyPush_addresses ..
  | updateSelection before => exact .of_eng (by rw [updateSelection_eq])
  | sendWait =>
    unfold runAct sendWaitStep waitFlag
    cases s.drv.evTx <;> exact ⟨rfl, rfl⟩
  | recvWait =>
    unfold runAct recvWaitStep waitFlag
    cases s.drv.evRx <;> exact ⟨rfl, rfl⟩
  | announceIf new =>
    unfold runAct
    dsimp only
    split <;> exact ⟨rfl, rfl⟩
  | txLoop bytes calls =>
    unfold runAct
    dsimp only
    split
    · split
      · trivial
      · rename_i p hp
        obtain ⟨more, hc, hl⟩ := txCall_ok hp
        have k := codecSend_addresses hc
        obtain ⟨acts, u⟩ := p
        cases acts <;> exact k
    · exact ⟨rfl, rfl⟩
  | _ => exact ⟨rfl, rfl⟩

theorem runFrom_addresses_of (ha : a.readdresses = false)
    (ih : ∀ {u}, runActs rest u = .next t → AddressesKept u t) (h : runFrom a rest s = .next t) :
    AddressesKept s t := by
  have k := runAct_addresses ha s
  cases hr : runAct a s with
  | done u =>
    rw [hr] at k
    rw [runFrom_done hr] at h
    exact AddressesKept.trans k (ih h)
  | stop u more =>
    rw [hr] at k
    rw [runFrom_stop hr] at h
    cases h
    exact AddressesKept.trans k ⟨rfl, rfl⟩
  | fault f =>
    rw [runFrom, hr] at h
    cases h

/-- A rule none of whose actions writes an address keeps both. -/
theorem runActs_addresses (hn : ∀ a ∈ acts, a.readdresses = false) (h : runActs acts s = .next t) :
    AddressesKept s t := by
  induction acts generalizing s with
  | nil =>
    cases h
    exact ⟨rfl, rfl⟩
  | cons a as ih =>
    obtain ⟨ha, has⟩ := List.forall_mem_cons.1 hn
    cases hs : a.startsStep with
    | true =>
      rw [runActs_starts as s hs] at h
      cases h
      exact ⟨rfl, rfl⟩
    | false =>
      rw [runActs_runs as s hs] at h
      exact runFrom_addresses_of ha (ih has) h

/-! ### The rows (42 R141) -/

theorem gated_addresses {mode : GateMode} {k : Nat} {init dest : La} {ops : List Byte} {rule : State → Result}
    (hr : rule s = .next t → AddressesKept s t) (h : gated mode k init dest ops s rule = .next t) :
    AddressesKept s t := by
  unfold gated at h
  split at h
  · exact hr h
  · exact .of_next h

/-- A rule that first writes registers other than the addresses. -/
theorem runActs_rule_addresses (h : runActs acts u = .next t) (hn : acts.any Act.readdresses = false := by rfl)
    (k : AddressesKept s u := by exact ⟨rfl, rfl⟩) : AddressesKept s t :=
  k.trans (runActs_addresses (by simpa using hn) h)

/-- Every received row but the two recomputes keeps the addresses. -/
theorem exec_received_addresses (hd : i.direction = .rx) (hr : recomputes i = false) (h : exec i s = .next t) :
    AddressesKept s t := by
  cases i <;> cases hd
  case routingChange | reportPhysicalAddress => cases hr
  case poll => exact .of_next h
  all_goals
    simp only [exec, execFeatureAbort, execImageViewOn, execTextViewOn, execStandby, execUserControlPressed,
      execUserControlReleased, execGiveOsdName, execSystemAudioModeRequest, execGiveAudioStatus,
      execSetSystemAudioMode, execGiveSystemAudioModeStatus, execSystemAudioModeStatus,
      execActiveSource, execGivePhysicalAddress, execRequestActiveSource,
      execSetStreamPath, execDeviceVendorId, execGiveDeviceVendorId, execMenuRequest, execGiveDevicePowerStatus,
      execGetCecVersion, execAbort, execUnrecognized] at h
    refine gated_addresses (fun h => ?_) h
  case featureAbort | imageViewOn | textViewOn | systemAudioModeStatus => exact .of_next h
  case setSystemAudioMode => split at h <;> exact .of_next h
  case userControlPressed =>
    split at h
    · exact .of_next h
    · split at h
      · exact .of_next h
      · exact runActs_rule_addresses h
  case setStreamPath =>
    split at h
    · exact .of_next h
    · split at h
      · exact runActs_rule_addresses h
      · exact .of_next h
  case activeSource | menuRequest =>
    split at h
    · exact .of_next h
    · exact runActs_rule_addresses h
  case requestActiveSource =>
    split at h
    · exact runActs_rule_addresses h
    · exact .of_next h
  all_goals exact runActs_rule_addresses h

/-- Every transmitted row keeps the addresses. -/
theorem exec_transmitted_addresses (hd : i.direction = .tx) (h : exec i s = .next t) : AddressesKept s t := by
  obtain rfl | ⟨bytes, acts, more, u, hc, rfl⟩ := exec_sends hd h
  · exact ⟨rfl, rfl⟩
  · have k := codecSend_addresses hc
    exact ⟨k.la, k.pa⟩

/-- A frame that decodes to a recompute has the opcode of Routing Change or Report Physical Address. -/
theorem opcode_of_recomputes {bytes : List Byte} (hd : decode .rx bytes = .ok i) (hr : recomputes i = true) :
    bytes[1]? = some 0x80#8 ∨ bytes[1]? = some 0x84#8 := by
  obtain ⟨-, rfl, -⟩ := encodeDecode .rx bytes i hd
  cases i with
  | routingChange => exact .inl rfl
  | reportPhysicalAddress => exact .inr rfl
  | _ => cases hr

/-! ### The engine's step (43_protocol_engine R142 to R144) -/

/-- A received frame is dropped, or executed, and changes an address only as a recompute. -/
theorem engReceived_addresses {n : Nat} (hf : memFilled s.eng.fbuf n) (h : engReceived n s = .next t) :
    AddressesKept s t ∨
    (2 ≤ n ∧ (memGet s.eng.fbuf 1 = some 0x80#8 ∨ memGet s.eng.fbuf 1 = some 0x84#8)) := by
  obtain ⟨bytes, hb, hl⟩ := bufTake_ok hf (Nat.le_refl n)
  cases hs : sane bytes with
  | false =>
    cases (engReceived_insane hb hs).symm.trans h
    exact .inl ⟨rfl, rfl⟩
  | true =>
    obtain ⟨i, hd⟩ := decode_rx_of_sane hs
    rw [engReceived_decodes hb hd] at h
    cases hr : recomputes i with
    | false =>
      have k := exec_received_addresses (decode_rx_direction hd) hr h
      exact .inl ⟨k.la, k.pa⟩
    | true =>
      have ho := opcode_of_recomputes hd hr
      have h1 : 1 < bytes.length := by
        by_contra hn
        simp [List.getElem?_eq_none (Nat.le_of_not_lt hn)] at ho
      have hn : 2 ≤ n := hl ▸ h1
      exact .inr ⟨hn, by rwa [(bufTake_eq_ok hb).2 1 hn]⟩

theorem engLoad_addresses (s : State) : AddressesKept s (engLoad s) := by
  have hd : AddressesKept s (drawCfg s).2 := .of_eng (drawCfg_eng s)
  unfold engLoad
  split
  · rename_i u e
    rw [e] at hd
    exact ⟨hd.la, hd.pa⟩
  · rename_i r u e
    rw [e] at hd
    split <;> exact ⟨hd.la, hd.pa⟩

theorem engReceive_addresses (h : engReceive s = .next t) : AddressesKept s t := by
  unfold engReceive copyOut at h
  split at h
  · split at h
    · cases h
    · rename_i hc
      split at hc <;> cases hc
      cases h
      exact ⟨rfl, rfl⟩
  · exact .of_next h

/-- An engine step keeps the addresses, but where they may change. -/
theorem engineStep_addresses (hi : RegInv s) (hn : ¬readdressing s) (h : engineStep s = .next t) :
    AddressesKept s t := by
  unfold engineStep at h
  split at h
  · rename_i i rest ht
    have k := exec_transmitted_addresses (hi.eng.sendsOnly i (by simp [ht])) h
    exact ⟨k.la, k.pa⟩
  · rename_i n rest ht
    obtain ⟨rfl, -, hf⟩ := hi.eng.fetched n rest ht
    obtain k | hr := engReceived_addresses (s := setTodo [] s) hf h
    · exact ⟨k.la, k.pa⟩
    · exact absurd (.inr (.inl ⟨n, ht, hr⟩)) hn
  · rename_i a rest _ _ ht
    have plain : ∀ b ∈ a :: rest, b.readdresses = false := fun b hb => by
      by_contra hr
      exact hn (readdressing_of_mem (ht ▸ hb) (by simpa using hr))
    obtain ⟨ha, hrest⟩ := List.forall_mem_cons.1 plain
    have k := runFrom_addresses_of ha (runActs_addresses hrest) h
    exact ⟨k.la, k.pa⟩
  · rename_i ht
    split at h
    · exact .of_next h (engLoad_addresses s)
    · exact .of_next h
    · exact .of_next h
    · cases h
      constructor <;> simp [drvPrepare_eng]
    · exact absurd (.inl ⟨ht, .inl ‹_›⟩) hn
    · exact absurd (.inl ⟨ht, .inr ‹_›⟩) hn
    · exact engReceive_addresses h
    · exact .of_next h

/-! ### The other agents, and the machine's step -/

/-- The environment writes no register of the engine. -/
theorem envStep_eng (h : envStep s = .next t) : t.eng = s.eng := by
  unfold envStep at h
  split at h
  · cases h
    exact refillScript_eng s
  · rename_i e rest _
    cases h
    cases e with
    | line low => exact setExtLow_eng _ low
    | pop => rfl
  · cases h
  · cases h

/-- Nor does the passage of time. -/
theorem advance_eng (s : State) : (advance s).eng = s.eng := by
  unfold advance
  split
  · rfl
  · split
    · rfl
    · exact drawOrder_eng s

theorem runAgent_addresses {ag : Agent} (hi : RegInv s) (hn : ¬readdressing s) (h : runAgent ag s = .next t) :
    AddressesKept s t := by
  cases ag with
  | engine => exact engineStep_addresses hi hn h
  | edge | alarmTx | alarmAck => exact .of_eng (takeInterrupt_frame (ofExcept_next h)).eng
  | env => exact .of_eng (envStep_eng h)
  | time =>
    cases h
    exact .of_eng (advance_eng s)

end Addresses

/-- Settles O33: outside those places every agent keeps both addresses. -/
theorem addressesStable : Obligations.AddressesStable := by
  intro s t hi hs hc
  by_contra hn
  have heng : (pick s).2.eng = s.eng := (pick_keeps s).2.1
  have hn' : ¬readdressing (pick s).2 := by rwa [readdressing, heng]
  have k := (AddressesKept.of_eng heng).trans
    (runAgent_addresses (pick_regInv hi.toRegInv) hn' (step_next hs).1)
  exact hc.elim (fun h => h k.la) (fun h => h k.pa)

end Sys2Proof.Machine
end

section
/-! PROOF. The received rows that keep the addresses: the bytes of every message, the gate, and what each row does when
it acts on the frame (43_protocol_engine R145, R150 to R178, R180, R181, R183 to R191). -/

namespace Sys2Proof.Machine

/-- Settles O34: each message is closed but for the engine's registers it is built from. -/
theorem messageBytes : Obligations.MessageBytes := by
  intro dst op reason s
  refine ⟨rfl, rfl, rfl, rfl, rfl, rfl, rfl, rfl, ?reportPowerStatus, rfl, rfl, rfl⟩
  simp [buildMsg, encode, message, powerStatusByte, selected]

section ReceivedRows

variable {s : State} {i : Instr} {mode : GateMode} {k : Nat} {init dest : La} {ops : List Byte} {m : Msg}

/-! ### The gate (43 R145) -/

/-- Every gated row runs its rule behind the gate it is listed with (43 R145). -/
theorem exec_eq_gated (h : rxGate i = some (mode, k, init, dest, ops)) :
    ∃ rule, ∀ s, exec i s = gated mode k init dest ops s rule := by
  cases i <;> cases h <;> exact ⟨_, fun _ => rfl⟩

/-- A row with no rule changes nothing, its gate open or closed. -/
theorem gated_next : gated mode k init dest ops s (fun s => .next s) = .next s := ite_self _

/-- A direct row acts on every frame sent to this node that brings its operands. -/
theorem gated_toSelf {rule : State → Result} (h : toSelf dest s) (hk : k ≤ ops.length) :
    gated .direct k init dest ops s rule = rule s :=
  gated_acts h hk

/-! ### What a rule does -/

/-- A rule that ends in one message makes it the next instruction, with the bytes `MessageBytes` gives. -/
theorem issues_of_send {r : Result} {bytes : List Byte} (hr : r = runActs [.send m] s)
    (hb : encode (buildMsg m s) = bytes) :
    ∃ i, i.direction = .tx ∧ encode i = bytes ∧
      r = .next { s with eng := { s.eng with todo := .instr i :: s.eng.todo } } :=
  ⟨buildMsg m s, buildMsg_direction m s, hb, hr.trans (runActs_send m [] s)⟩

/-- A key is appended when there is room, and the rule goes on; else the engine waits up to 10 ms (43 R150). -/
theorem runActs_enqueueKey (b : Byte) (as : List Act) (s : State) :
    runActs (.enqueueKey b :: as) s =
      if s.keyq.length < s.par.keyqDepth then runActs as (pushKey b s)
      else .next (pushActs (.keyWait b (s.now + 10000) :: as) s) := by
  rw [runActs_runs as s rfl]
  split
  · exact runFrom_done (keyPush_room ‹_›)
  · exact runFrom_stop (more := [.keyWait b (s.now + 10000)])
      (keyPush_full ‹_› (Nat.lt_add_of_pos_right (by decide)))

/-- The indicator shows the selection (43 R172). -/
theorem runActs_indicatorSelected (s : State) :
    runActs [.indicatorSelected] s =
      .next (indicate (if s.eng.activeSource = s.eng.selfPa then .active else .idle) s) := by
  simp [runActs, runAct, Act.startsStep, selected]

/-- When the time for the key queue is up, the byte is dropped and recorded (43 R150). -/
theorem keyPush_expired {b : Byte} {deadline : Micros} (h : ¬s.keyq.length < s.par.keyqDepth)
    (hd : deadline ≤ s.now) : keyPush b deadline s = .done (record (.keyqDrop b) s) := by
  rw [keyPush, if_neg (by rwa [keyqRoom_iff]), if_pos hd]

/-- The wait for room is over when there is room, or when its time is up (43 R150, 60 R207). -/
theorem actReady_keyWait_iff {b : Byte} {deadline : Micros} :
    actReady (.keyWait b deadline) s = true ↔ s.keyq.length < s.par.keyqDepth ∨ deadline ≤ s.now := by
  simp [actReady, keyqRoom_iff]

end ReceivedRows

/-! ### The obligations -/

/-- Settles O15: the row's gate is the one it is listed with. -/
theorem closedGateChangesNothing : Obligations.ClosedGateChangesNothing := by
  intro i mode k init dest ops s hg hn
  obtain ⟨rule, hr⟩ := exec_eq_gated hg
  rw [hr, gated_ignored hn]

/-- Settles O14: the poll has no gate, the other four no rule behind theirs. -/
theorem ignoredRows : Obligations.IgnoredRows :=
  ⟨fun _ _ _ _ => ⟨rfl, gated_next, gated_next, gated_next, gated_next⟩, fun _ => rfl⟩

/-- Settles O16: the row acts on both forms of the frame. -/
theorem standbyEffect : Obligations.StandbyEffect := by
  intro init dest ops s h
  rw [exec, execStandby, gated_acts h (Nat.zero_le _)]
  rfl

/-- Settles O17: the key map's entry decides the press, and room in the queue what becomes of a key. -/
theorem keyRowsEffect : Obligations.KeyRowsEffect := by
  intro init dest code ops s h
  have pressed : exec (.userControlPressed init dest (code :: ops)) s =
      match memGet s.cfg.keyMap code.toNat with
      | none => .next s
      | some k => runActs [.enqueueKey k, .indicator .keyPressed] s := by
    rw [exec, execUserControlPressed, gated_toSelf h (Nat.le_add_left 1 _)]
    rfl
  refine ⟨fun hn => ?_, fun k hk => ?_, ?_⟩
  · rw [pressed, hn]
  · rw [pressed, hk]
    exact runActs_enqueueKey k _ s
  · rw [exec, execUserControlReleased, gated_toSelf h (Nat.zero_le _), runActs_enqueueKey, runActs_indicatorSelected]
    rfl

/-- Settles O18: room, no room in time, and no room yet. -/
theorem keyWaitEnds : Obligations.KeyWaitEnds := by
  intro b deadline rest s h
  have ready := actReady_keyWait_iff (s := s) (b := b) (deadline := deadline)
  rw [← engineReady_act h] at ready
  refine ⟨fun hr => ⟨ready.2 (.inl hr), engineStep_done h (keyPush_room hr)⟩,
    fun hf hd => ⟨ready.2 (.inr hd), engineStep_done h (keyPush_expired hf hd)⟩, fun hf hd => ?_⟩
  rw [← Bool.not_eq_true, ready]
  exact not_or.2 ⟨hf, Nat.not_le_of_lt hd⟩

/-- Settles O19: each row's rule is its one message. -/
theorem repliesIssueOneMessage : Obligations.RepliesIssueOneMessage := by
  intro init dest ops s h
  obtain ⟨-, -, -, reportPa, -, setMode, modeStatus, audioStatus, powerStatus, version, name, -⟩ :=
    messageBytes init 0#8 0#8 s
  have hk : 0 ≤ ops.length := Nat.zero_le _
  exact ⟨issues_of_send (gated_toSelf h hk) name, issues_of_send (gated_toSelf h hk) setMode,
    issues_of_send (gated_toSelf h hk) audioStatus, issues_of_send (gated_toSelf h hk) modeStatus,
    issues_of_send (gated_toSelf h hk) reportPa, issues_of_send (gated_toSelf h hk) powerStatus,
    issues_of_send (gated_toSelf h hk) version⟩

/-- Settles O20: both rows make the same message, the mirrored one for the TV's broadcast only. -/
theorem vendorIdBroadcasts : Obligations.VendorIdBroadcasts := by
  intro init dest ops s
  obtain ⟨-, -, -, -, vendorId, -⟩ := messageBytes init 0#8 0#8 s
  have hk : 0 ≤ ops.length := Nat.zero_le _
  exact ⟨fun h => issues_of_send (gated_toSelf h hk) vendorId,
    fun h => issues_of_send (gated_acts (mode := .tvBcast) h.symm hk) vendorId,
    fun h => gated_ignored (mode := .tvBcast) fun hg => h hg.1.symm⟩

/-- Settles O21: the row's gate decides. -/
theorem setSystemAudioModeEffect : Obligations.SetSystemAudioModeEffect := by
  intro init dest m ops s
  rw [exec, execSetSystemAudioMode]
  refine ⟨fun h => ?_, fun h => gated_ignored fun hg => h hg.1⟩
  rw [gated_acts (mode := .directB) h (Nat.le_add_left 1 _)]
  rfl

/-- Settles O22: the indicator compares the selection before the row's write with the one after it. -/
theorem activeSourceReceived : Obligations.ActiveSourceReceived := by
  intro init dest hi lo ops s h
  rw [exec, execActiveSource, gated_toSelf h (Nat.le_add_left 2 _)]
  refine (congrArg Host.Outcome.next (updateSelection_eq _ _)).trans ?_
  simp [selected]

/-- Settles O23: the count after the row's own decides. -/
theorem requestActiveSourceEffect : Obligations.RequestActiveSourceEffect := by
  intro init dest ops s h
  rw [exec, execRequestActiveSource, gated_toSelf h (Nat.zero_le _)]
  rfl

/-- Settles O24: the address of the frame decides. -/
theorem setStreamPathEffect : Obligations.SetStreamPathEffect := by
  intro init dest hi lo ops s h
  rw [exec, execSetStreamPath, gated_toSelf h (Nat.le_add_left 2 _)]
  rfl

/-- Settles O25: the status is built after the menu's write. -/
theorem menuRequestEffect : Obligations.MenuRequestEffect := by
  intro init dest t ops s h active
  obtain ⟨-, -, status, -⟩ := messageBytes init 0#8 0#8 (updEng (fun e => { e with menuActive := active }) s)
  refine issues_of_send ?_ status
  rw [exec, execMenuRequest, gated_toSelf h (Nat.le_add_left 1 _)]
  rfl

/-- Settles O26: the answer is built after the record. -/
theorem abortAndUnrecognizedEffect : Obligations.AbortAndUnrecognizedEffect := by
  intro init dest op ops s h
  refine ⟨issues_of_send (m := .featureAbort init opAbort reasonRefused) (s := record (.refused opAbort) s) ?_ rfl,
    issues_of_send (m := .featureAbort init op reasonUnrecognized) (s := record (.unrecognized op) s) ?_ rfl⟩
  · rw [exec, execAbort, gated_toSelf h (Nat.zero_le _)]
  · rw [exec, execUnrecognized, gated_toSelf h (Nat.zero_le _)]

end Sys2Proof.Machine
end

section
/-! PROOF. The two rows that recompute the node's addresses, and the step of `allocate()` that comes after them
(42_addressing R136, R138, R140, 43_protocol_engine R152, R179, R182). -/

namespace Sys2Proof.Machine

section Recompute

variable {s : State} {rest : List Act}

/-- The address obtained, and the EDID answer it may have taken, are all that changes (42 R136). -/
theorem obtainPa_eq (s : State) : ∃ pa edid draws,
    obtainPa s = { s with
      eng := { s.eng with selfPa := pa }, env := { s.env with edid := edid, draws := draws } } := by
  by_cases hp : s.cfg.pa = 0#16
  · cases hq : s.env.edid with
    | nil => exact ⟨_, s.env.edid, _, obtainPa_drawn hp hq⟩
    | cons pa edid => exact ⟨_, _, s.env.draws, obtainPa_queued hp hq⟩
  · exact ⟨_, s.env.edid, s.env.draws, obtainPa_configured hp⟩

@[simp] theorem obtainPa_todo (s : State) : (obtainPa s).eng.todo = s.eng.todo := by
  obtain ⟨pa, edid, draws, h⟩ := obtainPa_eq s
  rw [h]

/-- A recompute obtains the physical address; the logical one is for a step of its own (42 R140, 60 R202). -/
theorem runActs_recompute (rest : List Act) (s : State) :
    runActs (.derivePa :: .allocate :: rest) s = .next (pushActs (.allocate :: rest) (obtainPa s)) := rfl

/-- The step of `allocate()` gives the logical address up, then claims the configured one, goes on with the rest of the
rule, or polls the first candidate before it (42 R138). -/
theorem engineStep_allocate (ht : s.eng.todo = []) :
    engineStep (pushActs (.allocate :: rest) s) =
      if 1 ≤ s.cfg.la.toNat ∧ s.cfg.la.toNat ≤ 14 then
        .next (pushActs (.claim (BitVec.ofNat 4 s.cfg.la.toNat) :: rest) (publishLa 15#4 s))
      else if candidate s.cfg.deviceType 0 = 15#4 then runActs rest (publishLa 15#4 s)
      else .next (pushActs (.instr (.pollTx (candidate s.cfg.deviceType 0)) ::
        .verdict (candidate s.cfg.deviceType 0) 0 :: rest) (publishLa 15#4 s)) := by
  have first : (pushActs (.allocate :: rest) s).eng.todo = .allocate :: rest := by simp [ht]
  have begun : setTodo [] (pushActs (.allocate :: rest) s) = s := by
    rw [← pushActs_setTodo_nil ht]
    rfl
  rw [engineStep_act first nofun nofun, begun]
  split
  · exact runFrom_stop (more := [_]) (congrArg actOut (allocateBegin_configured ‹_›))
  have walk := allocateBegin_walks ‹¬(1 ≤ s.cfg.la.toNat ∧ _)›
  split
  · exact runFrom_done (congrArg actOut (walk.trans (allocateAt_exhausted ‹_›)))
  · exact runFrom_stop (more := [_, _]) (congrArg actOut (walk.trans (allocateAt_probes ‹_›)))

/-- A rule that ends with its announcement, if it is due, and the indicator (43 R152, R179). -/
theorem runActs_announceIf (new : Pa) (before : Bool) (s : State) :
    runActs [.announceIf new, .updateSelection before] s =
      if new = s.eng.selfPa then
        .next (pushActs [.send .imageViewOn, .send .activeSource, .updateSelection before] s)
      else .next (updateSelection before s) := by
  rw [runActs_runs _ _ rfl]
  split
  · exact runFrom_stop (more := [_, _]) (if_pos ‹_›)
  · exact runFrom_done (if_neg ‹_›)

end Recompute

/-- Settles O27: the row runs up to `allocate()`, whose step goes on with the announcement. -/
theorem routingChangeEffect : Obligations.RoutingChangeEffect := by
  intro init dest o1 o2 hi lo ops s h before configured first s1 s2 rest
  have hc : s1.cfg = s.cfg := obtainPa_cfg _
  refine ⟨?_, fun ht => ?_⟩
  · rw [exec, execRoutingChange, gated_toSelf h (Nat.le_add_left 4 _)]
    rfl
  · rw [engineStep_allocate (s := s1) ((obtainPa_todo _).trans ht), hc, runActs_announceIf]

/-- Settles O28: the same for the TV's broadcast, whose step goes on with the report. -/
theorem reportPhysicalAddressMirrored : Obligations.ReportPhysicalAddressMirrored := by
  intro init dest ops s before configured first s1 s2 rest
  have hc : s1.cfg = s.cfg := obtainPa_cfg _
  rw [exec, execReportPhysicalAddress]
  refine ⟨fun h => gated_ignored fun hg => h hg.1.symm, fun h => ⟨?_, fun ht => ?_⟩⟩
  · rw [gated_acts (mode := .tvBcast) h.symm (Nat.zero_le _)]
    rfl
  · have report : buildMsg .reportPa s2 = .reportPhysicalAddressTx 15#4 15#4 (s2.eng.selfPa.extractLsb' 8 8)
        (s2.eng.selfPa.extractLsb' 0 8) s.cfg.deviceType := by
      rw [← hc]
      rfl
    rw [engineStep_allocate (s := s1) ((obtainPa_todo _).trans ht), hc, runActs_send, report]

end Sys2Proof.Machine
end

section
/-! PROOF. The frame of every received row (43_protocol_engine R145 and the rows' own lists of writes). -/

namespace Sys2Proof.Machine

section Frames

variable {s t : State} {i : Instr} {mode : GateMode} {k : Nat} {init dest : La} {ops : List Byte}

/-- A row that writes no more than rows may, and of that what its own rule lists: by default nothing but the engine's
position. -/
theorem rxRowFrame_of_writes
    (same : t = { s with
      eng := { s.eng with
        selfPa := t.eng.selfPa, activeSource := t.eng.activeSource, audioMode := t.eng.audioMode,
        menuActive := t.eng.menuActive, lostCount := t.eng.lostCount, todo := t.eng.todo }
      keyq := t.keyq, ind := t.ind, err := t.err
      env := { s.env with edid := t.env.edid, draws := t.env.draws } } := by rfl)
    (address : recomputes i = false → t.eng.selfPa = s.eng.selfPa ∧ t.env = s.env := by exact fun _ => ⟨rfl, rfl⟩)
    (activeSource : writesActiveSource i = false → t.eng.activeSource = s.eng.activeSource := by exact fun _ => rfl)
    (audioMode : writesAudioMode i = false → t.eng.audioMode = s.eng.audioMode := by exact fun _ => rfl)
    (menuActive : writesMenu i = false → t.eng.menuActive = s.eng.menuActive := by exact fun _ => rfl)
    (lostCount : writesLostCount i = false → t.eng.lostCount = s.eng.lostCount := by exact fun _ => rfl)
    (keyq : writesKeyq i = false → t.keyq = s.keyq := by exact fun _ => rfl)
    (ind : writesInd i = false → t.ind = s.ind := by exact fun _ => rfl)
    (err : writesErr i = false → t.err = s.err := by exact fun _ => rfl) : RxRowFrame i s t where
  now := by rw [same]
  edges := by rw [same]
  armed := by rw [same]; exact ⟨rfl, rfl⟩
  cfg := by rw [same]
  par := by rw [same]
  drv := by rw [same]
  bytes := by rw [same]; exact ⟨fun _ => rfl, fun _ => rfl, fun _ => rfl, fun _ => rfl, fun _ => rfl⟩
  ctl := by rw [same]
  flen := by rw [same]
  fackbits := by rw [same]
  tLoaded := by rw [same]
  ret := by rw [same]
  env := by rw [same]
  addresses h := ⟨by rw [same], (address h).1, by rw [same], (address h).2⟩
  activeSource := activeSource
  audioMode := audioMode
  menuActive := menuActive
  lostCount := lostCount
  keyq := keyq
  ind := ind
  err := err

/-- A row's answer, if it is a state, keeps to the row's frame. -/
def AnswersInFrame (i : Instr) (s : State) (r : Result) : Prop := ∀ t, r = .next t → RxRowFrame i s t

theorem AnswersInFrame.of_next (h : RxRowFrame i s t) : AnswersInFrame i s (.next t) := by
  rintro _ ⟨⟩
  exact h

/-- A row that changes nothing keeps to every frame. -/
theorem AnswersInFrame.unchanged : AnswersInFrame i s (.next s) := .of_next rxRowFrame_of_writes

/-- A gated row keeps to its frame if its rule does. -/
theorem AnswersInFrame.of_rule {rule : State → Result} (hr : ∀ u, exec i u = gated mode k init dest ops u rule)
    (h : AnswersInFrame i s (rule s)) : AnswersInFrame i s (exec i s) :=
  hr s ▸ iteInduction (fun _ => h) fun _ => .unchanged

/-- A rule that pushes a key and then calls the indicator writes those two at most. -/
theorem AnswersInFrame.of_enqueueKey {a : Act} {b : Byte} {n : Indicator} (hk : writesKeyq i = true)
    (hi : writesInd i = true) (ha : runActs [a] (pushKey b s) = .next (indicate n (pushKey b s))) :
    AnswersInFrame i s (runActs [.enqueueKey b, a] s) := by
  rw [runActs_enqueueKey, ha]
  split
  · exact .of_next (rxRowFrame_of_writes (keyq := by simp [hk]) (ind := by simp [hi]))
  · exact .of_next rxRowFrame_of_writes

/-- A rule that recomputes the addresses, after it wrote the active source at most. -/
theorem AnswersInFrame.of_recompute {as : List Act} {pa : Pa} (hr : recomputes i = true)
    (ha : writesActiveSource i = false → pa = s.eng.activeSource) :
    AnswersInFrame i s
      (runActs (.derivePa :: .allocate :: as) { s with eng := { s.eng with activeSource := pa } }) := by
  obtain ⟨own, edid, draws, h⟩ := obtainPa_eq { s with eng := { s.eng with activeSource := pa } }
  rw [runActs_recompute, h]
  exact .of_next (rxRowFrame_of_writes (address := by simp [hr]) (activeSource := ha))

end Frames

/-- Settles O29: row by row, what the rule writes. -/
theorem receivedRowFrames : Obligations.ReceivedRowFrames := by
  intro i s t hd
  revert t
  show AnswersInFrame i s (exec i s)
  cases i <;> cases hd
  case poll => exact .unchanged
  all_goals refine .of_rule (fun _ => rfl) ?_
  case featureAbort | imageViewOn | textViewOn | systemAudioModeStatus => exact .unchanged
  case standby => exact .of_next (rxRowFrame_of_writes (activeSource := nofun) (ind := nofun))
  case abort | unrecognized => exact .of_next (rxRowFrame_of_writes (err := nofun))
  case userControlPressed =>
    split
    · exact .unchanged
    · split
      · exact .unchanged
      · exact .of_enqueueKey rfl rfl rfl
  case userControlReleased => exact .of_enqueueKey rfl rfl (runActs_indicatorSelected _)
  case setSystemAudioMode =>
    split
    · exact .unchanged
    · exact .of_next (rxRowFrame_of_writes (audioMode := nofun))
  case menuRequest =>
    split
    · exact .unchanged
    · exact .of_next (rxRowFrame_of_writes (menuActive := nofun))
  case activeSource =>
    split
    · exact .unchanged
    · refine .of_next (t := updateSelection _ _) ?_
      rw [updateSelection_eq]
      exact rxRowFrame_of_writes (activeSource := nofun) (lostCount := nofun) (ind := nofun)
  case requestActiveSource =>
    exact iteInduction (fun _ => .of_next (rxRowFrame_of_writes (lostCount := nofun)))
      fun _ => .of_next (rxRowFrame_of_writes (lostCount := nofun))
  case setStreamPath =>
    split
    · exact .unchanged
    · split
      · exact .of_next (rxRowFrame_of_writes (activeSource := nofun))
      · exact .unchanged
  case routingChange =>
    split
    · exact .unchanged
    · exact .of_recompute rfl nofun
  case reportPhysicalAddress => exact .of_recompute (pa := s.eng.activeSource) rfl fun _ => rfl
  -- The rows left answer with one message, which moves the engine's position only.
  all_goals exact .of_next rxRowFrame_of_writes

end Sys2Proof.Machine
end

section
/-! PROOF. The load of the configuration, and the engine stopped in `E_FAULT` (43_protocol_engine R142, 60_exceptions
R207, R212). -/

namespace Sys2Proof.Machine

section Load

variable {s : State}

/-- The configuration store's answer is the first one queued, or, with none queued, a free one (log entry 2). -/
theorem drawCfg_answer {answer : Option CfgAnswer}
    (h : (∃ rest, s.env.cfg = answer :: rest) ∨ (s.env.cfg = [] ∧ answer = Config.cfgDraw s.env.draws)) :
    (drawCfg s).1 = answer := by
  obtain ⟨rest, hq⟩ | ⟨hq, rfl⟩ := h <;> simp only [drawCfg, hq]

/-- An answer with a device type that has a row is loaded, its key map in canonical form (43 R142). -/
theorem engLoad_loaded {r : CfgAnswer} (h : (drawCfg s).1 = some r) (hd : r.deviceType.toNat ≤ 5) :
    engLoad s = { (drawCfg s).2 with
      cfg := { deviceType := r.deviceType, la := r.la, pa := r.pa, edidDelayMs := r.edidDelayMs,
               keyMap := memCanon keyMapSize r.keyMap }
      eng := { (drawCfg s).2.eng with ctl := .settle, tLoaded := (drawCfg s).2.now } } := by
  unfold engLoad
  generalize drawCfg s = drawn at h
  obtain ⟨answer, u⟩ := drawn
  cases h
  exact if_neg (Nat.not_lt.2 hd)

/-- A failure, or an answer with any other device type, is recorded and shown, and stops the engine (43 R142). -/
theorem engLoad_failed (h : ∀ r, (drawCfg s).1 = some r → 5 < r.deviceType.toNat) :
    engLoad s = setCtl .fault (indicate .fault (record .configFail (drawCfg s).2)) := by
  unfold engLoad
  generalize drawCfg s = drawn at h
  obtain ⟨_ | r, u⟩ := drawn
  · rfl
  · exact if_pos (h r rfl)

theorem engineStep_load (h : s.eng.todo = []) (hc : s.eng.ctl = .load) : engineStep s = .next (engLoad s) := by
  simp only [engineStep, h, hc]

theorem engineStep_fault (h : s.eng.todo = []) (hc : s.eng.ctl = .fault) : engineStep s = .next s := by
  simp only [engineStep, h, hc]

/-- No agent changes the engine once it is stopped (43 R142). -/
theorem runAgent_eng_of_fault {a : Agent} {t : State} (h : s.eng.todo = []) (hc : s.eng.ctl = .fault)
    (hr : runAgent a s = .next t) : t.eng = s.eng := by
  cases a with
  | engine =>
    cases (engineStep_fault h hc).symm.trans hr
    rfl
  | edge | alarmTx | alarmAck => exact (takeInterrupt_frame (ofExcept_next hr)).eng
  | env => exact envStep_eng hr
  | time =>
    cases hr
    exact advance_eng s

end Load

/-- Settles O40: the answer loaded, the failure, and the stop it leaves. -/
theorem configurationLoaded : Obligations.ConfigurationLoaded := by
  refine ⟨fun answer s h hc ha => ⟨?_, fun r hr hd => ?_, fun hf => ?_⟩, fun s h hc => ⟨?_, fun t hs => ?_⟩⟩
  · simp only [engineReady, h, hc]
  · refine ⟨_, engineStep_load h hc, ?_⟩
    rw [engLoad_loaded ((drawCfg_answer ha).trans hr) hd]
    simp [memGet_memCanon, keyMapSize]
  · refine ⟨_, engineStep_load h hc, ?_⟩
    rw [engLoad_failed (by rwa [drawCfg_answer ha])]
    simp
  · simp only [engineReady, h, hc]
  · have heng : (pick s).2.eng = s.eng := (pick_keeps s).2.1
    rw [← heng] at h hc ⊢
    exact runAgent_eng_of_fault h hc (step_next hs).1

end Sys2Proof.Machine
end

section
/-! PROOF. Whose turn it is: the agent picked, the agents that are ready, and the step as the picked agent's
(60_exceptions R196, R199, R200, R208). -/

namespace Sys2Proof.Machine

section Turns

variable {s : State} {a : Agent}

/-! ### The draw -/

/-- The agent picked is the one at the drawn place among the ready ones. -/
theorem pick_agent (s : State) : (pick s).1 = (ready s).getD ((drawOrder s).1 % (ready s).length) .time := by
  unfold pick
  split
  · rename_i h
    simp [h]
  · rename_i h
    simp [h, Nat.mod_one]
  · rename_i a b rest h
    have hl : (drawOrder s).1 % (a :: b :: rest).length < (a :: b :: rest).length := Nat.mod_lt _ (by simp)
    simp only [h, List.getD_eq_getElem _ _ hl]

/-- Every ready agent is the choice of a draw, which comes before those still queued (R199). -/
theorem exists_draw_of_mem_ready (h : a ∈ ready s) :
    ∃ k, (pick { s with env := { s.env with order := k :: s.env.order } }).1 = a := by
  obtain ⟨k, hk, rfl⟩ := List.getElem_of_mem h
  refine ⟨k, ?_⟩
  have hr : ready { s with env := { s.env with order := k :: s.env.order } } = ready s := rfl
  have hd : (drawOrder { s with env := { s.env with order := k :: s.env.order } }).1 = k := rfl
  rw [pick_agent, hr, hd, Nat.mod_eq_of_lt hk, List.getD_eq_getElem _ _ hk]

/-- A choice takes from the queued draws, or counts a free one. -/
theorem pick_draws (s : State) :
    ∃ order draws, (pick s).2 = { s with env := { s.env with order := order, draws := draws } } := by
  unfold pick
  split
  · exact ⟨_, _, rfl⟩
  · exact ⟨_, _, rfl⟩
  · unfold drawOrder
    split <;> exact ⟨_, _, rfl⟩

/-! ### Who is ready -/

theorem alarmDue_iff {d : Option Micros} {now : Micros} : alarmDue d now = true ↔ ∃ τ, d = some τ ∧ τ ≤ now := by
  cases d <;> simp [alarmDue]

theorem envReady_iff : envReady s = true ↔ ∃ τ i rest, s.env.script = (τ, i) :: rest ∧ τ ≤ s.now := by
  simp only [envReady, alarmDue_iff, scriptTime_eq_some]
  exact exists_congr fun τ => by simp only [← exists_and_right]

theorem engine_mem_ready : Agent.engine ∈ ready s ↔ engineReady s = true := by
  simp [ready, pendingHandlers]

theorem edge_mem_ready : Agent.edge ∈ ready s ↔ s.edges ≠ [] := by
  simp [ready, pendingHandlers]

theorem alarmTx_mem_ready : Agent.alarmTx ∈ ready s ↔ alarmDue s.drv.alarmTx s.now = true := by
  simp [ready, pendingHandlers]

theorem alarmAck_mem_ready : Agent.alarmAck ∈ ready s ↔ alarmDue s.drv.alarmAck s.now = true := by
  simp [ready, pendingHandlers]

theorem time_mem_ready : Agent.time ∈ ready s ↔ engineReady s = false ∧ envReady s = false ∧ mayDelay s = true := by
  simp [ready, pendingHandlers, timeReady, and_assoc]

/-! ### The step -/

/-- The step is the picked agent's, within the run's time base (log entries 1 and 4). -/
theorem step_of_pick (h : (pick s).1 = a) : step s = withinRun (runAgent a (pick s).2) := by
  subst h
  rfl

end Turns

/-- Settles O7: the draw's agent, each agent's readiness, and the step as the agent's own. -/
theorem agentTurns : Obligations.AgentTurns := fun s =>
  ⟨pick_mem s, fun _ => exists_draw_of_mem_ready,
    ⟨engine_mem_ready, edge_mem_ready, alarmTx_mem_ready.trans alarmDue_iff, alarmAck_mem_ready.trans alarmDue_iff,
      env_mem_ready.trans (or_comm.trans (or_congr_right envReady_iff)), time_mem_ready⟩,
    pick_draws s, step_of_pick, step_of_pick, step_of_pick, step_of_pick, step_of_pick, step_of_pick,
    fun _ => rfl, fun _ => rfl⟩

end Sys2Proof.Machine
end

section
/-! PROOF. No agent's step from a state that meets the invariant is a model fault (60_exceptions R192). -/

namespace Sys2Proof.Machine

theorem envStep_ne_fault (s : State) (f : Fault) : envStep s ≠ .fault f := by
  unfold envStep
  split <;> exact nofun

/-- No agent's step from a state whose registers meet the invariant is a model fault. -/
theorem runAgent_ne_fault {s : State} (h : RegInv s) (a : Agent) (f : Fault) : runAgent a s ≠ .fault f := by
  have handler (src : Source) : ofExcept (takeInterrupt src s) ≠ .fault f := by
    obtain ⟨u, hu, -⟩ := takeInterrupt_regInv h src
    rw [hu]
    exact nofun
  cases a with
  | engine =>
    obtain ⟨t, ht, -⟩ := engineStep_safe h
    rw [runAgent, ht]
    exact nofun
  | edge => exact handler .edge
  | alarmTx => exact handler (.alarm .tx)
  | alarmAck => exact handler (.alarm .ack)
  | env => exact envStep_ne_fault s f
  | time => exact nofun

/-- Settles O13: the end of the time base is no fault, and no agent's step is one. -/
theorem stepNeverFaults : Obligations.StepNeverFaults := fun _ f h hs =>
  runAgent_ne_fault (pick_regInv h.toRegInv) _ f (withinRun_fault.1 hs)

end Sys2Proof.Machine
end

section
/-! PROOF. The handlers and the engine task: a handler reads none of the task's own fields, so that it does the same
whatever they hold, and the engine never drives the line LOW (60_exceptions R205, 40_bit_timing_driver R87, R88). -/

namespace Sys2Proof.Machine

section TaskApart

variable (e : Eng) (c : Cfg) (k : List Byte) (n : List Indicator) {s : State} {t : Micros} {lvl : Level} {b : Bool}

/-! ### The operations the handlers are made of -/

@[simp] theorem withTask_now : (withTask e c k n s).now = s.now := rfl
@[simp] theorem withTask_drv : (withTask e c k n s).drv = s.drv := rfl
@[simp] theorem withTask_edges : (withTask e c k n s).edges = s.edges := rfl
@[simp] theorem withTask_par : (withTask e c k n s).par = s.par := rfl

@[simp] theorem lineNow_withTask : lineNow (withTask e c k n s) = lineNow s := rfl
@[simp] theorem busFree_withTask : busFree t (withTask e c k n s) = busFree t s := rfl
@[simp] theorem waitDeadline_withTask : waitDeadline (withTask e c k n s) = waitDeadline s := rfl

@[simp] theorem updDrv_withTask (f : Drv → Drv) :
    updDrv f (withTask e c k n s) = withTask e c k n (updDrv f s) := rfl

@[simp] theorem record_withTask (err : Err) :
    record err (withTask e c k n s) = withTask e c k n (record err s) := rfl

@[simp] theorem arm_withTask (ch : Channel) : arm ch t (withTask e c k n s) = withTask e c k n (arm ch t s) := by
  cases ch <;> rfl

@[simp] theorem cancel_withTask (ch : Channel) :
    cancel ch (withTask e c k n s) = withTask e c k n (cancel ch s) := by
  cases ch <;> rfl

@[simp] theorem signal_withTask (ev : WakeFlag) :
    signal ev (withTask e c k n s) = withTask e c k n (signal ev s) := by
  cases ev <;> rfl

@[simp] theorem noteEdge_withTask (before : Level) :
    noteEdge before (withTask e c k n s) = withTask e c k n (noteEdge before s) :=
  (apply_ite (withTask e c k n) (lineNow s = before) s { s with edges := s.edges ++ [(s.now, lineNow s)] }).symm

@[simp] theorem setDrive_withTask (drive : Drive) :
    setDrive drive (withTask e c k n s) = withTask e c k n (setDrive drive s) := by
  simp [setDrive]

@[simp] theorem beginWait_withTask : beginWait (withTask e c k n s) = withTask e c k n (beginWait s) := rfl

/-! ### The receive path (40_bit_timing_driver R90 to R104, R109) -/

@[simp] theorem rxDropAck_withTask : rxDropAck (withTask e c k n s) = withTask e c k n (rxDropAck s) := by
  simp [rxDropAck]

@[simp] theorem rxMalformed_withTask :
    rxMalformed lvl t (withTask e c k n s) = withTask e c k n (rxMalformed lvl t s) := by
  cases lvl <;> by_cases ha : s.drv.rxAcking = true <;> simp [rxMalformed, ha]

@[simp] theorem rxStartLowRise_withTask :
    rxStartLowRise t (withTask e c k n s) = withTask e c k n (rxStartLowRise t s) := by
  by_cases hw : startLowOk (t - s.drv.rxTFall) = true <;> simp [rxStartLowRise, hw]

@[simp] theorem rxStartHighFall_withTask :
    rxStartHighFall t (withTask e c k n s) = withTask e c k n (rxStartHighFall t s) := by
  by_cases hw : startPeriodOk (t - s.drv.rxTFall) = true <;> simp [rxStartHighFall, hw]

@[simp] theorem rxEnterCell_withTask :
    rxEnterCell t (withTask e c k n s) = withTask e c k n (rxEnterCell t s) := by
  by_cases ha : s.drv.rxBit = 9 ∧ s.drv.rxAckOwed = true <;> simp [rxEnterCell, rxDriveAck, ha]

@[simp] theorem rxBitHighFall_withTask :
    rxBitHighFall t (withTask e c k n s) = withTask e c k n (rxBitHighFall t s) := by
  by_cases hw : bitPeriodOk (t - s.drv.rxTFall) = true
  · by_cases h9 : s.drv.rxBit = 9
    · by_cases hl : s.drv.rxLen = maxFrame <;> simp [rxBitHighFall, rxOverlong, hw, h9, hl]
    · simp [rxBitHighFall, hw, h9]
  · simp [rxBitHighFall, hw]

@[simp] theorem rxAckDecision_withTask :
    rxAckDecision (withTask e c k n s) = (rxAckDecision s).map (withTask e c k n) := by
  cases hr : bufRead s.drv.rxBuf s.drv.rxLen 0 <;> simp [rxAckDecision, hr, Except.map]

@[simp] theorem rxByteComplete_withTask :
    rxByteComplete (withTask e c k n s) = (rxByteComplete s).map (withTask e c k n) := by
  cases hm : bufWrite s.drv.rxBuf s.drv.rxLen s.drv.rxShift with
  | error _ => simp [rxByteComplete, hm, Except.map]
  | ok m =>
    by_cases hl : s.drv.rxLen = 0
    · rw [hl] at hm
      simp [rxByteComplete, hm, hl, Except.map]
    · simp [rxByteComplete, hm, hl, Except.map]

@[simp] theorem rxDeliver_withTask : rxDeliver (withTask e c k n s) = (rxDeliver s).map (withTask e c k n) := by
  by_cases hf : s.drv.mbFull = true
  · simp [rxDeliver, hf, Except.map]
  · cases hb : bufTake s.drv.rxBuf s.drv.rxLen s.drv.rxLen <;> simp [rxDeliver, hf, hb, Except.map]

@[simp] theorem rxFrameComplete_withTask :
    rxFrameComplete (withTask e c k n s) = (rxFrameComplete s).map (withTask e c k n) := by
  cases hr : bufRead s.drv.rxBuf s.drv.rxLen 0 with
  | error _ => simp [rxFrameComplete, hr, Except.map]
  | ok hdr =>
    by_cases hd : (s.drv.rxAckOwed || isBroadcast (headerDest hdr)) = true
    · cases hu : rxDeliver (updDrv (fun d => { d with rxState := .idle }) s) <;>
        simp [rxFrameComplete, hr, hd, hu, Except.map]
    · simp [rxFrameComplete, hr, hd, Except.map]

@[simp] theorem rxCellHigh_withTask : rxCellHigh (withTask e c k n s) = withTask e c k n (rxCellHigh s) := rfl

@[simp] theorem rxDataBit_withTask :
    rxDataBit b (withTask e c k n s) = (rxDataBit b s).map (withTask e c k n) := by
  have hs : rxShiftIn b (withTask e c k n s) = withTask e c k n (rxShiftIn b s) := rfl
  by_cases h7 : s.drv.rxBit = 7
  · cases hu : rxByteComplete (rxShiftIn b s) <;> simp [rxDataBit, hs, h7, hu, Except.map]
  · simp [rxDataBit, hs, h7, Except.map]

@[simp] theorem rxAckBit_withTask : rxAckBit b (withTask e c k n s) = (rxAckBit b s).map (withTask e c k n) := by
  cases hl : s.drv.rxLen with
  | zero => simp [rxAckBit, hl, Except.map]
  | succ m => by_cases he : s.drv.rxEom = true <;> simp [rxAckBit, hl, he, Except.map]

@[simp] theorem rxBitLowRise_withTask :
    rxBitLowRise t (withTask e c k n s) = (rxBitLowRise t s).map (withTask e c k n) := by
  cases hc : classifyLow (t - s.drv.rxTFall) with
  | bit b =>
    by_cases h7 : s.drv.rxBit ≤ 7
    · simp [rxBitLowRise, rxTakeBit, hc, h7]
    · by_cases h8 : s.drv.rxBit = 8 <;> simp [rxBitLowRise, rxTakeBit, hc, h7, h8, Except.map]
  | start | bad => simp [rxBitLowRise, hc, Except.map]

@[simp] theorem rxDispatch_withTask :
    rxDispatch t lvl (withTask e c k n s) = (rxDispatch t lvl s).map (withTask e c k n) := by
  cases hs : s.drv.rxState <;> cases lvl <;> simp [rxDispatch, rxIdleFall, rxIdleRise, hs, Except.map]

@[simp] theorem txRearmWait_withTask : txRearmWait (withTask e c k n s) = withTask e c k n (txRearmWait s) := by
  by_cases hp : s.drv.txPhase = .wait <;> simp [txRearmWait, hp]

/-- EDGE_ISR (R90). -/
@[simp] theorem edgeIsr_withTask :
    edgeIsr t lvl (withTask e c k n s) = (edgeIsr t lvl s).map (withTask e c k n) := by
  have hn : noteLine t lvl (withTask e c k n s) = withTask e c k n (noteLine t lvl s) := rfl
  have hc : clearJustTransmitted lvl (noteLine t lvl (withTask e c k n s)) =
      withTask e c k n (clearJustTransmitted lvl (noteLine t lvl s)) := by cases lvl <;> rfl
  by_cases he : s.drv.enabled = true
  · by_cases hp : onLine s.drv.txPhase = true
    · simp [edgeIsr, he, hp, hn, Except.map]
    · cases hu : rxDispatch t lvl (clearJustTransmitted lvl (noteLine t lvl s)) <;>
        simp [edgeIsr, he, hp, hc, hu, Except.map]
  · simp [edgeIsr, he, Except.map]

/-! ### The transmit path (40_bit_timing_driver R110 to R120) -/

@[simp] theorem txFinish_withTask : txFinish (withTask e c k n s) = withTask e c k n (txFinish s) := by
  simp [txFinish]

@[simp] theorem txWaitAlarm_withTask : txWaitAlarm t (withTask e c k n s) = withTask e c k n (txWaitAlarm t s) := by
  by_cases hf : busFree t s = true
  · simp [txWaitAlarm, txStartAttempt, hf]
  · by_cases ht : s.par.sendIdleTimeoutUs ≤ t - s.drv.txWaitStart <;> simp [txWaitAlarm, txTimeout, hf, ht]

@[simp] theorem txBeginCell_withTask :
    txBeginCell t (withTask e c k n s) = (txBeginCell t s).map (withTask e c k n) := by
  have hw : txBitValue s.drv.txByte s.drv.txBit (withTask e c k n s) = txBitValue s.drv.txByte s.drv.txBit s := rfl
  cases hv : txBitValue s.drv.txByte s.drv.txBit s <;> simp [txBeginCell, txDriveCell, hw, hv, Except.map]

@[simp] theorem txBitRelease_withTask : txBitRelease (withTask e c k n s) = withTask e c k n (txBitRelease s) := by
  by_cases hv : s.drv.txValue = true <;> simp [txBitRelease, hv]

@[simp] theorem txArbLost_withTask : txArbLost (withTask e c k n s) = (txArbLost s).map (withTask e c k n) := by
  unfold txArbLost
  rw [withTask_drv]
  cases bufRead s.drv.txBuf s.drv.txLen 0 with
  | error _ => rfl
  | ok hdr =>
    cases bufTake s.drv.txBuf s.drv.txLen s.drv.txByte with
    | error _ => rfl
    | ok sent => cases bufRead s.drv.txBuf s.drv.txLen s.drv.txByte <;> rfl

@[simp] theorem txSample_withTask : txSample (withTask e c k n s) = (txSample s).map (withTask e c k n) := by
  by_cases h9 : s.drv.txBit = 9
  · cases hr : bufRead s.drv.txBuf s.drv.txLen 0 <;> simp [txSample, txAwaitCellEnd, h9, hr, Except.map]
  · by_cases hl : lineNow s = .low <;> simp [txSample, txAwaitCellEnd, h9, hl, Except.map]

@[simp] theorem txAttemptFailed_withTask :
    txAttemptFailed (withTask e c k n s) = withTask e c k n (txAttemptFailed s) := by
  by_cases ha : s.drv.txAttempt < maxAttempts <;> simp [txAttemptFailed, freeSelect, ha]

@[simp] theorem txCellEnd_withTask : txCellEnd t (withTask e c k n s) = (txCellEnd t s).map (withTask e c k n) := by
  by_cases h9 : s.drv.txBit < 9
  · simp [txCellEnd, h9]
  · by_cases hb : s.drv.txBlockOk = false
    · simp [txCellEnd, h9, hb, Except.map]
    · by_cases hl : s.drv.txByte + 1 = s.drv.txLen <;> simp [txCellEnd, h9, hb, hl, Except.map]

@[simp] theorem txAlarm_withTask : txAlarm t (withTask e c k n s) = (txAlarm t s).map (withTask e c k n) := by
  cases hp : s.drv.txPhase <;> simp [txAlarm, txStartRelease, txStartEnd, hp, Except.map]

/-- ALARM_ISR (60_exceptions R197). -/
@[simp] theorem alarmIsr_withTask (ch : Channel) :
    alarmIsr ch t (withTask e c k n s) = (alarmIsr ch t s).map (withTask e c k n) := by
  by_cases he : s.drv.enabled = true
  · cases ch with
    | tx => simp [alarmIsr, he]
    | ack => by_cases ha : s.drv.rxAcking = true <;> simp [alarmIsr, he, ha, Except.map]
  · simp [alarmIsr, he, Except.map]

/-! ### Taking an interrupt (60_exceptions R200, R201) -/

theorem takeInterrupt_withTask (src : Source) :
    takeInterrupt src (withTask e c k n s) = (takeInterrupt src s).map (withTask e c k n) := by
  match src with
  | .edge =>
    cases he : s.edges with
    | nil => simp [takeInterrupt_edge, he, Except.map]
    | cons p es =>
      simp only [takeInterrupt_edge, withTask_edges, he]
      exact edgeIsr_withTask e c k n (s := { s with edges := es })
  | .alarm .tx =>
    by_cases hd : alarmDue s.drv.alarmTx s.now = true <;> simp [takeInterrupt_tx, hd, Except.map]
  | .alarm .ack =>
    by_cases hd : alarmDue s.drv.alarmAck s.now = true <;> simp [takeInterrupt_ack, hd, Except.map]

end TaskApart

section EngineDrive

variable {s t : State}

/-! ### The engine and the line -/

theorem engLoad_drv (s : State) : (engLoad s).drv = s.drv := by
  have hd := drawCfg_drv s
  unfold engLoad
  split
  · rename_i h
    rw [h] at hd
    exact hd
  · rename_i h
    rw [h] at hd
    split <;> exact hd

theorem engReceive_drive (h : engReceive s = .next t) : t.drv.drive = s.drv.drive := by
  unfold engReceive copyOut at h
  split at h
  · split at h
    · cases h
    · rename_i hc
      split at hc <;> cases hc
      cases h
      rfl
  · cases h
    rfl

/-- An engine step keeps what this node does to the line, but for the driver's enable, which releases it (R89). -/
theorem engineStep_drive (h : engineStep s = .next t) : t.drv.drive = s.drv.drive ∨ t.drv.drive = .released := by
  unfold engineStep at h
  split at h
  · exact .inl (exec_lineSame _ h).drive
  · exact .inl (engReceived_lineSame _ h).drive
  · exact .inl (runFrom_lineSame h).drive
  · split at h
    · cases h
      exact .inl (by rw [engLoad_drv])
    · cases h
      exact .inl rfl
    · cases h
      exact .inl rfl
    · cases h
      exact .inr (by simp [drvPrepare_drv])
    · cases h
      exact .inl (obtainPa_lineSame s).drive
    · cases h
      exact .inl (allocateBegin_lineSame s).drive
    · exact .inl (engReceive_drive h)
    · cases h
      exact .inl rfl

end EngineDrive

/-- Settles O55: the handlers' frame, their steps with any task, and the engine's drive of the line. -/
theorem handlersKeepToTheDriver : Obligations.HandlersKeepToTheDriver := by
  refine ⟨fun src s t h => ?_, fun src e c k n s => takeInterrupt_withTask e c k n src, fun s t => engineStep_drive⟩
  have f := takeInterrupt_frame h
  exact ⟨f.eng, f.cfg, f.keyq, f.ind, f.now, f.env, f.par, f.enabled, f.selfLa, f.txBuf, f.txLen⟩

end Sys2Proof.Machine
end

section
/-! PROOF. The state at reset: the values of 70_reset_and_hazards R217 and the base case of the machine's invariant. -/

namespace Sys2Proof.Machine

/-- Settles O10, field by field: `State.reset` writes each of these values. -/
theorem resetValues : Obligations.ResetValues := by
  unfold Obligations.ResetValues
  and_intros <;> rfl

/-- Nothing has been received: the receive state is idle, the mailbox is empty and no ACK is driven. -/
theorem rxInv_reset : RxInv Drv.reset where
  bit := by decide
  len := by decide
  filled := memFilled_zero _
  lowData := nofun
  lowTail := nofun
  highData := nofun
  highTail := nofun
  mailbox := nofun
  acking := nofun

/-- The engine stands at its load with no action left to do, and no send is in progress. -/
theorem engInv_reset : EngInv State.reset where
  sending := fun h => absurd rfl h
  woken := nofun
  inRule := fun _ h => absurd h List.not_mem_nil
  fetched := nofun
  sendsOnly := fun _ h => absurd h List.not_mem_nil
  running := fun h => absurd rfl h
  started := by decide
  published := rfl
  lost := .inl (by decide)
  keyq := Nat.zero_le _

/-- Settles O11: the invariant's parts one by one, and every timestamp is 0 at reset. -/
theorem invAtReset : Obligations.InvAtReset where
  mem := memInv_reset
  rx := rxInv_reset
  tx := txInv_idle rfl
  eng := engInv_reset
  times := by decide

end Sys2Proof.Machine
end
